-- ==== Sys2Proof/Word.lean ====
section
/-! DEFINITION. The word types of the machine and the two operand sizes. -/

namespace Sys2Proof

/-- A byte (decision D6: 8 bits). -/
abbrev Byte := BitVec 8

/-- A 16-bit word register's contents. -/
abbrev Half := BitVec 16

/-- A 32-bit value: general register, linear address, EFLAGS, CR0 (R20 to R24). -/
abbrev Word := BitVec 32

/-- A 64-bit value: a model-specific register, "EDX:EAX" (R9, decision D28). -/
abbrev Quad := BitVec 64

/-- "the current mode (16- or 32-bit)": an operand or address size (R113, R114). -/
inductive OpSize where
  | w16
  | w32
  deriving DecidableEq, Repr

end Sys2Proof
end

