-- ==== Sys2Proof/Config.lean ====
section
/-! DEFINITION. The configuration record of rule R8 (the values fixed for a run, as plain data), the named parts of
rule R2, and the free values: constants with no body, which stand for every `draw` of the spec. -/

namespace Sys2Proof

/-- The processors of rule R2. -/
inductive Cpu where
  | am5x86
  | ibm386SLC
  | ibm486SLC
  | ibm486SLC2
  | ibm486BL3
  | i386A
  | i486A
  | i486B
  | other
  deriving DecidableEq, Repr

/-- PHYS_ADDR_BITS of rule R8: 24 or 32. -/
inductive PhysAddrBits where
  | p24
  | p32
  deriving DecidableEq, Repr

/-- XBTS_HIGH_FILL of rule R8. -/
inductive HighFill where
  | draw
  | zero
  deriving DecidableEq, Repr

/-- The function XBTS computes (rule R165): the supplied instance (R166), the literal reading (R167), or an instance
of which nothing is assumed: the free function `Config.xbtsArbitrary` (log entry 11). -/
inductive XbtsChoice where
  | gk
  | literal
  | arbitrary
  deriving DecidableEq, Repr

/-- RESET_MSR(n) of rule R8, a value for each model-specific register; `none` is its default, a draw (R240, R241). -/
structure ResetMsr where
  array : Option Quad
  r83 : Option Quad
  r1000 : Option Quad
  r1001 : Option Quad
  r1002 : Option Quad
  r1004 : Option Quad
  deriving DecidableEq, Repr

/-- The configuration record of rule R8; `platformRom` is the platform fact of R93 and R252 (log entry 15).
`slc2Has1000` to `bl3Has1002` are the parameter cells of MSR_PRESENT, those R25's table marks D36 (U7, U8): `none` is
an OPEN cell, `some` a value the claim fixes; the same for PHYS_ADDR_BITS, EXT_A20_MASK and HIDDEN_MEM_SUPPORTED, which R8
leaves OPEN. A model refuses where a rule needs an OPEN value (92_eei_decisions.md; log entry 18). -/
structure Config where
  cpu : Cpu
  defaultSize : OpSize
  cpl : Fin 4
  physAddrBits : Option PhysAddrBits
  extA20Mask : Option Bool
  arrayMsrIndex : Word
  slc2Has1000 : Option Bool
  slc2Has1001 : Option Bool
  bl3Has1000 : Option Bool
  bl3Has1001 : Option Bool
  bl3Has1002 : Option Bool
  xbtsFn : XbtsChoice
  xbtsHighFill : HighFill
  admitMemOperands : Bool
  extLimitUnit : Nat
  endAddr : Option Word
  hiddenMemSupported : Option Bool
  resetMsr : ResetMsr
  platformRom : BitVec 16
  deriving DecidableEq, Repr

/-- The configuration `State.reset` carries: R8's defaults, OPEN among them, and where R8 gives none ("the claim names
it") the values of log entry 3. DESIGN CHOICE, unsafe: nothing may rest on them. -/
def Config.atReset : Config where
  cpu := .ibm486SLC
  defaultSize := .w32
  cpl := 0
  physAddrBits := none
  extA20Mask := none
  arrayMsrIndex := 0x82
  slc2Has1000 := some true
  slc2Has1001 := some true
  bl3Has1000 := none
  bl3Has1001 := none
  bl3Has1002 := none
  xbtsFn := .gk
  xbtsHighFill := .draw
  admitMemOperands := true
  extLimitUnit := 65536
  endAddr := none
  hiddenMemSupported := none
  resetMsr := ⟨none, none, none, none, none, none⟩
  platformRom := 0

/-- The n-th free value (`draw` of R14): nothing constrains it. Safe. Log entry 5. -/
opaque Config.freeWord : Nat → Quad

/-- The byte that memory, as left by the launch or the hardware reset numbered by the first argument, holds at a
physical address nothing has written since (R243, R241). Nothing constrains it. Safe. Log entry 4. -/
opaque Config.launchByte : Nat → Nat → Byte

/-- The same for a byte of hidden memory (R99, R240). Nothing constrains it. Safe. Log entry 23. -/
opaque Config.hiddenLaunchByte : Nat → Nat → Byte

/-- The value of an XbtsFn of which nothing is assumed (R165): from W, `r_old`, `m_old`, `acc`, `cl` and a draw,
either a refusal (`none`) or `r_new` and `m_new`, each a value or not written. Safe. Log entry 11. -/
opaque Config.xbtsArbitrary : OpSize → Word → Word → Word → Byte → Quad → Option (Option Word × Option Word)

end Sys2Proof
end

