-- ==== Sys2Proof/Syntax.lean ====
section
/-! DEFINITION. The instructions: one constructor per row of spec/opcode_table.json, with the operand forms of
rules R115 to R119. -/

namespace Sys2Proof

/-- The general registers in the numbering 0 to 7 of rule R116; the 16-bit names are their low halves (R21). -/
inductive Reg where
  | eax
  | ecx
  | edx
  | ebx
  | esp
  | ebp
  | esi
  | edi
  deriving DecidableEq, Repr

/-- The base column of rule R119's table (16-bit addressing), rm = 000 to 111 in order. -/
inductive Base16 where
  | bxSi
  | bxDi
  | bpSi
  | bpDi
  | si
  | di
  | bp
  | bx
  deriving DecidableEq, Repr

/-- The displacement that goes with mod = 00, 01, 10 in 16-bit addressing (R119). -/
inductive Disp16 where
  | absent
  | d8 (d : Byte)
  | d16 (d : Half)
  deriving DecidableEq, Repr

/-- The displacement that goes with mod = 00, 01, 10 in 32-bit addressing (R118). -/
inductive Disp32 where
  | absent
  | d8 (d : Byte)
  | d32 (d : Word)
  deriving DecidableEq, Repr

/-- The SIB scale: the index is shifted left by 0, 1, 2 or 3 (R118). -/
inductive Scale where
  | x1
  | x2
  | x4
  | x8
  deriving DecidableEq, Repr

/-- A memory operand with address size 16 (R119); `direct` is mod = 00, rm = 110. -/
inductive Mem16 where
  | based (base : Base16) (disp : Disp16)
  | direct (disp : Half)
  deriving DecidableEq, Repr

/-- A memory operand with address size 32 (R118): a register base; mod = 00, rm = 101 (`direct`); a SIB byte with a
base register; a SIB byte whose base = 101 with mod = 00 (`sibNoBase`). An index of 100 is `none`. -/
inductive Mem32 where
  | based (base : Reg) (disp : Disp32)
  | direct (disp : Word)
  | sib (scale : Scale) (index : Option Reg) (base : Reg) (disp : Disp32)
  | sibNoBase (scale : Scale) (index : Option Reg) (disp : Word)
  deriving DecidableEq, Repr

/-- The second operand of XBTS, "regW/memW" (R115, R117). -/
inductive RmOperand where
  | reg (r : Reg)
  | mem16 (m : Mem16)
  | mem32 (m : Mem32)
  deriving DecidableEq, Repr

/-- The operands of format RM (R111): operand size, address size, first operand, second operand, as `xbts` has them. -/
structure RmForm where
  w : OpSize
  a : OpSize
  reg : Reg
  rm : RmOperand
  deriving DecidableEq, Repr

/-- One constructor per row of the opcode table.
`xbts w a reg rm`: operand size w (R113), address size a (R114; it also counts a 67h prefix before a register
operand), first operand reg, second operand rm (R117).
`cmpxchg f`: format RM, the same operand bytes as XBTS (R111, R185). -/
inductive Instr where
  | xbts (w a : OpSize) (reg : Reg) (rm : RmOperand)
  | cmpxchg (f : RmForm)
  | rdmsr
  | wrmsr
  | movR32Imm32 (r : Reg) (imm : Word)
  deriving DecidableEq, Repr

end Sys2Proof
end

