-- ==== Sys2Proof/WellFormed.lean ====
section
/-! DEFINITION. Which instruction terms an encoding exists for: the exclusions of the ModRM and SIB tables
(R118, R119). -/

namespace Sys2Proof

/-- mod = 00 with rm = 110 is the direct form, so BP has no form without displacement (R119). -/
def Mem16.wellFormed : Mem16 → Bool
  | .based .bp .absent => false
  | .based _ _ => true
  | .direct _ => true

/-- index = 100 means no index, so ESP is never an index (R118). -/
def indexWellFormed : Option Reg → Bool
  | some .esp => false
  | some _ => true
  | none => true

/-- rm = 100 announces a SIB byte, so ESP is no plain base; rm or base = 101 with mod = 00 is the form without
base, so EBP has no form without displacement (R118). -/
def Mem32.wellFormed : Mem32 → Bool
  | .based .esp _ => false
  | .based .ebp .absent => false
  | .based _ _ => true
  | .direct _ => true
  | .sib _ _ .ebp .absent => false
  | .sib _ i _ _ => indexWellFormed i
  | .sibNoBase _ i _ => indexWellFormed i

/-- A memory operand is of the instruction's address size; a register operand goes with either (R114). -/
def RmOperand.wellFormed : OpSize → RmOperand → Bool
  | _, .reg _ => true
  | .w16, .mem16 m => m.wellFormed
  | .w32, .mem32 m => m.wellFormed
  | .w32, .mem16 _ => false
  | .w16, .mem32 _ => false

/-- The instruction has an encoding. -/
def Instr.wellFormed : Instr → Bool
  | .xbts _ a _ rm => rm.wellFormed a
  | .cmpxchg f => f.rm.wellFormed f.a
  | .rdmsr => true
  | .wrmsr => true
  | .movR32Imm32 _ _ => true

end Sys2Proof
end

