-- ==== Sys2Proof/Decode.lean ====
section
/-! DEFINITION. The decoder (rules R110 to R127), total on every list of bytes; the encoder; instruction lengths
(R121); and the reading of the opcode table's numbered words. -/

namespace Sys2Proof

/-! ### Sizes and register numbers -/

/-- The other size: what a size prefix selects (R113, R114). -/
def OpSize.other : OpSize → OpSize
  | .w16 => .w32
  | .w32 => .w16

/-- The size in force: DEFAULT_SIZE without the override, the other value with it (R113, R114). -/
def sizeWith (c : Config) (override : Bool) : OpSize :=
  if override then c.defaultSize.other else c.defaultSize

/-- Register numbers, R116. -/
def Reg.bits : Reg → BitVec 3
  | .eax => 0
  | .ecx => 1
  | .edx => 2
  | .ebx => 3
  | .esp => 4
  | .ebp => 5
  | .esi => 6
  | .edi => 7

/-- The register a three-bit field names, R116. -/
def Reg.ofBits (b : BitVec 3) : Reg :=
  match b.toNat with
  | 0 => .eax
  | 1 => .ecx
  | 2 => .edx
  | 3 => .ebx
  | 4 => .esp
  | 5 => .ebp
  | 6 => .esi
  | _ => .edi

/-- The rm numbers of rule R119's table. -/
def Base16.bits : Base16 → BitVec 3
  | .bxSi => 0
  | .bxDi => 1
  | .bpSi => 2
  | .bpDi => 3
  | .si => 4
  | .di => 5
  | .bp => 6
  | .bx => 7

/-- The row of rule R119's table an rm number names. -/
def Base16.ofBits (b : BitVec 3) : Base16 :=
  match b.toNat with
  | 0 => .bxSi
  | 1 => .bxDi
  | 2 => .bpSi
  | 3 => .bpDi
  | 4 => .si
  | 5 => .di
  | 6 => .bp
  | _ => .bx

/-- The SIB scale field, R118. -/
def Scale.bits : Scale → BitVec 2
  | .x1 => 0
  | .x2 => 1
  | .x4 => 2
  | .x8 => 3

/-- The scale a two-bit field names, R118. -/
def Scale.ofBits (b : BitVec 2) : Scale :=
  match b.toNat with
  | 0 => .x1
  | 1 => .x2
  | 2 => .x4
  | _ => .x8

/-- The SIB index field: 100 is no index, R118. -/
def indexOfBits (b : BitVec 3) : Option Reg :=
  if b = 4 then none else some (Reg.ofBits b)

/-- The SIB index field of an index, R118. -/
def indexBits : Option Reg → BitVec 3
  | none => 4
  | some r => r.bits

/-- The mod field of the ModRM byte, R115. -/
inductive ModField where
  | m00
  | m01
  | m10
  | m11
  deriving DecidableEq, Repr

def ModField.bits : ModField → BitVec 2
  | .m00 => 0
  | .m01 => 1
  | .m10 => 2
  | .m11 => 3

def ModField.ofBits (b : BitVec 2) : ModField :=
  match b.toNat with
  | 0 => .m00
  | 1 => .m01
  | 2 => .m10
  | _ => .m11

/-! ### Parts of a byte list -/

/-- Bits 7-6 of a ModRM or SIB byte (R115, R118). -/
def topField (b : Byte) : BitVec 2 := b.extractLsb' 6 2

/-- Bits 5-3 of a ModRM or SIB byte. -/
def midField (b : Byte) : BitVec 3 := b.extractLsb' 3 3

/-- Bits 2-0 of a ModRM or SIB byte, or of the helper's opcode byte. -/
def lowField (b : Byte) : BitVec 3 := b.extractLsb' 0 3

/-- The byte with the three fields (R115, R118). -/
def fieldsByte (t : BitVec 2) (m l : BitVec 3) : Byte := (t ++ m ++ l : BitVec 8)

def takeByte : List Byte → Option (Byte × List Byte)
  | b :: rest => some (b, rest)
  | _ => none

/-- Two bytes, low byte first (R122). -/
def takeHalf : List Byte → Option (Half × List Byte)
  | b0 :: b1 :: rest => some ((b1 ++ b0 : BitVec 16), rest)
  | _ => none

/-- Four bytes, low byte first (R122). -/
def takeWord : List Byte → Option (Word × List Byte)
  | b0 :: b1 :: b2 :: b3 :: rest => some ((b3 ++ b2 ++ b1 ++ b0 : BitVec 32), rest)
  | _ => none

/-- A 16-bit field's two bytes, low byte first. -/
def halfBytes (h : Half) : List Byte := [h.extractLsb' 0 8, h.extractLsb' 8 8]

/-- A 32-bit field's four bytes, low byte first. -/
def wordBytes (w : Word) : List Byte :=
  [w.extractLsb' 0 8, w.extractLsb' 8 8, w.extractLsb' 16 8, w.extractLsb' 24 8]

/-! ### Outcomes of decoding (R126) -/

/-- The decoder's refusals. `truncated`: the list ended before the instruction did. -/
inductive DecodeStop where
  | prefixNotAdmitted
  | unknownOpcode
  | memOperandNotAdmitted
  | truncated
  deriving DecidableEq, Repr

/-- What the bytes are: an instruction and the bytes after it; an opcode this CPU lacks (R125) and the bytes after
the opcode; or a refusal by name. -/
inductive DecodeResult where
  | ok (i : Instr) (rest : List Byte)
  | invalidOpcode (rest : List Byte)
  | stop (r : DecodeStop)
  deriving DecidableEq, Repr

def DecodeResult.instr? : DecodeResult → Option Instr
  | .ok i _ => some i
  | .invalidOpcode _ => none
  | .stop _ => none

/-! ### Operands -/

/-- The displacement mod selects, 16-bit addressing (R119). -/
def takeDisp16 (m : ModField) (bs : List Byte) : Option (Disp16 × List Byte) :=
  match m with
  | .m01 => (takeByte bs).map fun p => (.d8 p.1, p.2)
  | .m10 => (takeHalf bs).map fun p => (.d16 p.1, p.2)
  | .m00 => some (.absent, bs)
  | .m11 => some (.absent, bs)

/-- The displacement mod selects, 32-bit addressing (R118). -/
def takeDisp32 (m : ModField) (bs : List Byte) : Option (Disp32 × List Byte) :=
  match m with
  | .m01 => (takeByte bs).map fun p => (.d8 p.1, p.2)
  | .m10 => (takeWord bs).map fun p => (.d32 p.1, p.2)
  | .m00 => some (.absent, bs)
  | .m11 => some (.absent, bs)

/-- The memory forms of rule R119. -/
def decodeMem16 (m : ModField) (rm : BitVec 3) (bs : List Byte) : Option (Mem16 × List Byte) :=
  if m = .m00 ∧ rm = 6 then (takeHalf bs).map fun p => (.direct p.1, p.2)
  else (takeDisp16 m bs).map fun p => (.based (Base16.ofBits rm) p.1, p.2)

/-- The SIB byte and what follows it (R118). -/
def decodeSib (m : ModField) (bs : List Byte) : Option (Mem32 × List Byte) :=
  match takeByte bs with
  | none => none
  | some (sb, rest) =>
    let scale := Scale.ofBits (topField sb)
    let index := indexOfBits (midField sb)
    if m = .m00 ∧ lowField sb = 5 then (takeWord rest).map fun p => (.sibNoBase scale index p.1, p.2)
    else (takeDisp32 m rest).map fun p => (.sib scale index (Reg.ofBits (lowField sb)) p.1, p.2)

/-- The memory forms of rule R118. -/
def decodeMem32 (m : ModField) (rm : BitVec 3) (bs : List Byte) : Option (Mem32 × List Byte) :=
  if rm = 4 then decodeSib m bs
  else if m = .m00 ∧ rm = 5 then (takeWord bs).map fun p => (.direct p.1, p.2)
  else (takeDisp32 m bs).map fun p => (.based (Reg.ofBits rm) p.1, p.2)

/-- The second operand (R115): a register when mod = 11, else memory by the address size. -/
def decodeRm (a : OpSize) (m : ModField) (rm : BitVec 3) (bs : List Byte) : Option (RmOperand × List Byte) :=
  if m = .m11 then some (.reg (Reg.ofBits rm), bs)
  else
    match a with
    | .w16 => (decodeMem16 m rm bs).map fun p => (.mem16 p.1, p.2)
    | .w32 => (decodeMem32 m rm bs).map fun p => (.mem32 p.1, p.2)

/-! ### Opcodes -/

/-- Which parts have model-specific registers at all, and so RDMSR and WRMSR (R125). -/
def Cpu.hasMsrs : Cpu → Bool
  | .am5x86 => true
  | .ibm386SLC => true
  | .ibm486SLC => true
  | .ibm486SLC2 => true
  | .ibm486BL3 => true
  | .i386A => false
  | .i486A => false
  | .i486B => false
  | .other => false

/-- The operand bytes of format RM after the two opcode bytes: ModRM, SIB, displacement (R111, R115 to R119). -/
def decodeRmFormat (c : Config) (o a : Bool) (mk : OpSize → OpSize → Reg → RmOperand → Instr) (bs : List Byte) :
    DecodeResult :=
  match takeByte bs with
  | none => .stop .truncated
  | some (modrm, rest) =>
    match decodeRm (sizeWith c a) (ModField.ofBits (topField modrm)) (lowField modrm) rest with
    | none => .stop .truncated
    | some (rm, rest') => .ok (mk (sizeWith c o) (sizeWith c a) (Reg.ofBits (midField modrm)) rm) rest'

/-- The byte is a ModRM byte of a memory form. -/
def isMemoryModRm (bs : List Byte) : Bool :=
  match takeByte bs with
  | none => false
  | some (modrm, _) => ModField.ofBits (topField modrm) != .m11

/-- XBTS after its two opcode bytes; MemOperandNotAdmitted is decision (4) of R126. -/
def decodeXbts (c : Config) (o a : Bool) (bs : List Byte) : DecodeResult :=
  if isMemoryModRm bs && !c.admitMemOperands then .stop .memOperandNotAdmitted else decodeRmFormat c o a .xbts bs

/-- CMPXCHG on the first 80486, format RM: the prefixes and the operand bytes of XBTS (R111, R185; log entry 10). It
is NamedOnly before ADMIT_MEM_OPERANDS is asked (R126). -/
def decodeCmpxchg (c : Config) (o a : Bool) (bs : List Byte) : DecodeResult :=
  decodeRmFormat c o a (fun w s reg rm => .cmpxchg ⟨w, s, reg, rm⟩) bs

/-- The meaning of 0Fh A6h on each part (R124). -/
def decode0FA6 (c : Config) (o a : Bool) (bs : List Byte) : DecodeResult :=
  match c.cpu with
  | .i386A => decodeXbts c o a bs
  | .i486A => decodeCmpxchg c o a bs
  | .am5x86 => .invalidOpcode bs
  | .ibm386SLC => .invalidOpcode bs
  | .ibm486SLC => .invalidOpcode bs
  | .ibm486SLC2 => .invalidOpcode bs
  | .ibm486BL3 => .invalidOpcode bs
  | .i486B => .invalidOpcode bs
  | .other => .invalidOpcode bs

/-- RDMSR or WRMSR: no prefix (R114), and InvalidOpcode on a part without model-specific registers (R125). -/
def decodeMsrOp (c : Config) (o a : Bool) (i : Instr) (bs : List Byte) : DecodeResult :=
  if o || a then .stop .prefixNotAdmitted
  else if c.cpu.hasMsrs then .ok i bs
  else .invalidOpcode bs

/-- The second opcode byte after 0Fh. -/
def decodeTwoByte (c : Config) (o a : Bool) (bs : List Byte) : DecodeResult :=
  match takeByte bs with
  | none => .stop .truncated
  | some (b, rest) =>
    if b = 0xA6 then decode0FA6 c o a rest
    else if b = 0x32 then decodeMsrOp c o a .rdmsr rest
    else if b = 0x30 then decodeMsrOp c o a .wrmsr rest
    else .stop .unknownOpcode

/-- The helper MOV r32, imm32: no prefix, and only with DEFAULT_SIZE = 32 (R114, R190). -/
def decodeMov (c : Config) (o a : Bool) (r : Reg) (bs : List Byte) : DecodeResult :=
  if o || a then .stop .prefixNotAdmitted
  else if c.defaultSize = .w16 then .stop .unknownOpcode
  else
    match takeWord bs with
    | none => .stop .truncated
    | some (imm, rest) => .ok (.movR32Imm32 r imm) rest

/-- The opcode after the admitted prefixes: 66h seen (o), 67h seen (a). -/
def decodeOpcode (c : Config) (o a : Bool) (bs : List Byte) : DecodeResult :=
  match takeByte bs with
  | none => .stop .truncated
  | some (b, rest) =>
    if b = 0x0F then decodeTwoByte c o a rest
    else if b &&& 0xF8 = 0xB8 then decodeMov c o a (Reg.ofBits (lowField b)) rest
    else .stop .unknownOpcode

/-- The prefixes no instruction of the table admits (R114): LOCK, REPNE, REP, the segment overrides. -/
def forbiddenPrefixes : List Byte := [0xF0, 0xF2, 0xF3, 0x26, 0x2E, 0x36, 0x3E, 0x64, 0x65]

/-- The decoder (R126): prefixes first, at most one 66h and one 67h in either order, then the opcode. -/
def decodeFrom (c : Config) (o a : Bool) : List Byte → DecodeResult
  | [] => .stop .truncated
  | b :: rest =>
    if b = 0x66 then (if o then .stop .prefixNotAdmitted else decodeFrom c true a rest)
    else if b = 0x67 then (if a then .stop .prefixNotAdmitted else decodeFrom c o true rest)
    else if b ∈ forbiddenPrefixes then .stop .prefixNotAdmitted
    else decodeOpcode c o a (b :: rest)

/-- The instruction the bytes begin with (R126). -/
def decode (c : Config) (bs : List Byte) : DecodeResult := decodeFrom c false false bs

/-! ### The encoder -/

def Disp16.mod : Disp16 → ModField
  | .absent => .m00
  | .d8 _ => .m01
  | .d16 _ => .m10

def Disp16.bytes : Disp16 → List Byte
  | .absent => []
  | .d8 d => [d]
  | .d16 d => halfBytes d

def Disp32.mod : Disp32 → ModField
  | .absent => .m00
  | .d8 _ => .m01
  | .d32 _ => .m10

def Disp32.bytes : Disp32 → List Byte
  | .absent => []
  | .d8 d => [d]
  | .d32 d => wordBytes d

def RmOperand.mod : RmOperand → ModField
  | .reg _ => .m11
  | .mem16 (.based _ d) => d.mod
  | .mem16 (.direct _) => .m00
  | .mem32 (.based _ d) => d.mod
  | .mem32 (.direct _) => .m00
  | .mem32 (.sib _ _ _ d) => d.mod
  | .mem32 (.sibNoBase _ _ _) => .m00

def RmOperand.rmBits : RmOperand → BitVec 3
  | .reg r => r.bits
  | .mem16 (.based b _) => b.bits
  | .mem16 (.direct _) => 6
  | .mem32 (.based r _) => r.bits
  | .mem32 (.direct _) => 5
  | .mem32 (.sib _ _ _ _) => 4
  | .mem32 (.sibNoBase _ _ _) => 4

/-- The bytes after ModRM: SIB and displacement. -/
def RmOperand.tail : RmOperand → List Byte
  | .reg _ => []
  | .mem16 (.based _ d) => d.bytes
  | .mem16 (.direct d) => halfBytes d
  | .mem32 (.based _ d) => d.bytes
  | .mem32 (.direct d) => wordBytes d
  | .mem32 (.sib s i b d) => fieldsByte s.bits (indexBits i) b.bits :: d.bytes
  | .mem32 (.sibNoBase s i d) => fieldsByte s.bits (indexBits i) 5 :: wordBytes d

/-- 66h when the operand size is not DEFAULT_SIZE, then 67h when the address size is not (R113, R114). -/
def sizePrefixes (c : Config) (w a : OpSize) : List Byte :=
  (if w = c.defaultSize then [] else [0x66]) ++ (if a = c.defaultSize then [] else [0x67])

/-- Format RM of R111. -/
def encodeRmFormat (c : Config) (w a : OpSize) (reg : Reg) (rm : RmOperand) : List Byte :=
  sizePrefixes c w a ++ (0x0F :: 0xA6 :: fieldsByte rm.mod.bits reg.bits rm.rmBits :: rm.tail)

/-- The bytes of a well-formed instruction under DEFAULT_SIZE of c. -/
def encode (c : Config) : Instr → List Byte
  | .xbts w a reg rm => encodeRmFormat c w a reg rm
  | .cmpxchg f => encodeRmFormat c f.w f.a f.reg f.rm
  | .rdmsr => [0x0F, 0x32]
  | .wrmsr => [0x0F, 0x30]
  | .movR32Imm32 r imm => fieldsByte 2 7 r.bits :: wordBytes imm

/-- The row the instruction belongs to exists under c: its `cpu` list, ADMIT_MEM_OPERANDS, and `requires` (R124 to
R127, R190). -/
def Instr.availableOn (c : Config) : Instr → Bool
  | .xbts _ _ _ (.reg _) => c.cpu == .i386A
  | .xbts _ _ _ (.mem16 _) => c.cpu == .i386A && c.admitMemOperands
  | .xbts _ _ _ (.mem32 _) => c.cpu == .i386A && c.admitMemOperands
  | .cmpxchg _ => c.cpu == .i486A
  | .rdmsr => c.cpu.hasMsrs
  | .wrmsr => c.cpu.hasMsrs
  | .movR32Imm32 _ _ => c.defaultSize == .w32

/-! ### Lengths (R121) -/

def Disp16.length : Disp16 → Nat
  | .absent => 0
  | .d8 _ => 1
  | .d16 _ => 2

def Disp32.length : Disp32 → Nat
  | .absent => 0
  | .d8 _ => 1
  | .d32 _ => 4

/-- SIB and displacement bytes. -/
def RmOperand.tailLength : RmOperand → Nat
  | .reg _ => 0
  | .mem16 (.based _ d) => d.length
  | .mem16 (.direct _) => 2
  | .mem32 (.based _ d) => d.length
  | .mem32 (.direct _) => 4
  | .mem32 (.sib _ _ _ d) => 1 + d.length
  | .mem32 (.sibNoBase _ _ _) => 1 + 4

/-- The length of format RM: prefixes, two opcode bytes, ModRM, SIB, displacement (R111, R121). -/
def rmFormatLength (c : Config) (w a : OpSize) (rm : RmOperand) : Nat :=
  (if w = c.defaultSize then 0 else 1) + (if a = c.defaultSize then 0 else 1) + 3 + rm.tailLength

/-- `len` of R121: prefixes, opcode, ModRM, SIB, displacement, immediate. -/
def instrLength (c : Config) : Instr → Nat
  | .xbts w a _ rm => rmFormatLength c w a rm
  | .cmpxchg f => rmFormatLength c f.w f.a f.rm
  | .rdmsr => 2
  | .wrmsr => 2
  | .movR32Imm32 _ _ => 5

/-- The longest form: 66h 67h 0Fh A6h ModRM SIB disp32 (R121). -/
def maxInstrLength : Nat := 10

/-! ### The opcode table's numbered words -/

/-- k bytes of a number, first byte most significant (R127: "the opcode bytes taken as one big-endian number").
Log entry 19. -/
def bigEndianBytes : Nat → Nat → List Byte
  | 0, _ => []
  | k + 1, w => BitVec.ofNat 8 (w >>> (8 * k)) :: bigEndianBytes k w

/-- The instruction's bytes in address order: the table's bits, then zero bytes up to the longest instruction. -/
def tableBytes (nbits w : Nat) : List Byte :=
  bigEndianBytes (nbits / 8) w ++ List.replicate (maxInstrLength - nbits / 8) 0

/-- The parts in the order of rule R2's table. -/
def Cpu.all : List Cpu :=
  [.am5x86, .ibm386SLC, .ibm486SLC, .ibm486SLC2, .ibm486BL3, .i386A, .i486A, .i486B, .other]

/-- The part on which the bytes are read: the configured one if it has an instruction there, else the first of R2's
table that has one (a row of the opcode table belongs to the parts of its `cpu` list). Log entry 19. -/
def cpuForBytes (c : Config) (bs : List Byte) : Cpu :=
  ((c.cpu :: Cpu.all).find? fun p => (decode { c with cpu := p } bs).instr?.isSome).getD c.cpu

/-- The instruction the decoder reads from a word numbered as spec/opcode_table.json numbers it. -/
def decodeTableWord (nbits w : Nat) : Option Instr :=
  let bs := tableBytes nbits w
  (decode { Config.atReset with cpu := cpuForBytes Config.atReset bs } bs).instr?

end Sys2Proof
end

