-- ==== Sys2Proof/Machine/State.lean ====
section
/-! DEFINITION. The machine's state as plain data, its faults and refusals, and the state right after reset. -/

namespace Sys2Proof.Machine

/-- The kinds of `Trapped(kind)` (R200, R206, R213). -/
inductive TrapKind where
  /-- Vector 6, no error code: the CPU lacks the instruction (R124, R125, R201). -/
  | invalidOpcode
  /-- Vector 13, error code 0: RDMSR or WRMSR with CPL other than 0 or of an absent register (R145, R147, R202). -/
  | generalProtection
  /-- Vector 1: listed by R200, raised by nothing in scope (R222). -/
  | debugTrap
  /-- Vector 2: the cache parity error's NMI, taken between instructions (R205, R213). -/
  | nmi
  deriving DecidableEq, Repr

/-- The machine stops with a fault. -/
inductive Fault where
  /-- `Trapped(kind)`, terminal (R206): raised by `takeException` alone. The state at the trap is the state the step
  began with (precise traps). Safe: the spec says nothing of the handler. Log entry 7. -/
  | trapped (kind : TrapKind)
  deriving DecidableEq, Repr

/-- The parameters R8 leaves OPEN, besides the cells of MSR_PRESENT. -/
inductive OpenParameter where
  | physAddrBits
  | extA20Mask
  | hiddenMemSupported
  deriving DecidableEq, Repr

/-- `refuse(reason)` of the spec: the run has no meaning from here. Every one is safe: it stops the run. -/
inductive Refusal where
  /-- An instruction not modelled yet, by its mnemonic: raised by a refused arm of exec only. -/
  | notModelled (mnemonic : String)
  /-- Raised by the fetch: no row of the opcode table (R125). -/
  | unknownOpcode
  /-- Raised by the fetch: a prefix rule R114 does not admit. -/
  | prefixNotAdmitted
  /-- Raised by CMPXCHG: named in the source, not defined (R180, R185). -/
  | namedOnly (mnemonic : String)
  /-- Raised by the fetch: a memory operand with ADMIT_MEM_OPERANDS false (R126). -/
  | memOperandNotAdmitted
  /-- Raised by every memory access with CR0 bit 31 set (R84, R86). -/
  | pagingNotModelled
  /-- Raised by the fetch past FFFFFFFFh and by an advance of pc past the end (R22). -/
  | pcWrap
  /-- Raised by a write to a fetched byte or a fetch of a written one (R96). -/
  | codeModified
  /-- Raised where MSR_PRESENT is needed and OPEN (R147, R84, R212). -/
  | msrPresenceOpen
  /-- Raised by the address path and by BusWrite where the physical address depends on a parameter that is OPEN, and by a
  read of hidden memory where its presence is (R8, R82, R84, R99; 92_eei_decisions.md, open parameters; log entry 18). -/
  | parameterOpen (parameter : OpenParameter)
  /-- Raised by WRMSR 83h (R28, R32). -/
  | reservedBitsWritten
  /-- Raised by WRMSR 83h bits 3-1 and WRMSR 1002h bits 26-24 (R33, R69). -/
  | reservedEncodingWritten
  /-- Raised by WRMSR of the register of the fragment (R26). -/
  | arrayRegisterWrite
  /-- Raised by XBTS under XbtsGK: the string runs past the operand (R166). -/
  | xbtsOutOfOperand
  /-- Raised by XBTS under XbtsLiteral (R167). -/
  | xbtsSemanticsUnknown
  /-- Raised by XBTS under an arbitrary instance that refuses (R165). -/
  | xbtsInstanceRefused
  /-- Raised by the PWI pin with 1000h bit 5 set (R217). -/
  | suspendNotModelled
  deriving DecidableEq, Repr

/-- Why an instruction does not complete: an exception to be taken, or a refusal. -/
inductive Stop where
  | trap (kind : TrapKind)
  | refuse (r : Refusal)
  deriving DecidableEq, Repr

/-- The environment's steps (R212). -/
inductive Event where
  | hardwareReset
  | cacheParityError
  | cacheReload
  | dfsHardwareRequest
  | dfsReadyRaise
  | dfsRequestRemoved
  | busWrite (pa : Word) (v : Byte)
  | flushSnoopSignal
  | pwiPin
  deriving DecidableEq, Repr

/-- Which agent moves (R18). -/
inductive Turn where
  | core
  | env (e : Event)
  deriving DecidableEq, Repr

/-- The power states of R78, R262, R263. No rule reads it and nothing in scope changes it (log entry 22). -/
inductive ClockState where
  | running
  | stoppedInHalt
  | stopGrant
  | lowPowerHalt
  deriving DecidableEq, Repr

/-- The general registers x[0] to x[7] (R20). -/
structure Regs where
  eax : Word
  ecx : Word
  edx : Word
  ebx : Word
  esp : Word
  ebp : Word
  esi : Word
  edi : Word
  deriving DecidableEq, Repr

/-- The model-specific registers (R25). A register absent on the configured CPU is held and reached by nothing. -/
structure MsrFile where
  /-- The register of the fragment (R26). -/
  array : Quad
  /-- Hardware Configuration Register (R27). -/
  r83 : Quad
  /-- Processor Operation Register (R35). -/
  r1000 : Quad
  /-- Cache Region Control Registers (R58). -/
  r1001 : Quad
  /-- Processor Operation Register 2 (R64). -/
  r1002 : Quad
  /-- Processor Control Register (R71). -/
  r1004 : Quad
  deriving DecidableEq, Repr

/-- Bytes by physical address, in canonical form: see `Memory.wf`. -/
abbrev Memory := List Host.Cell

/-- The machine. -/
structure State where
  /-- The values fixed for the run (R8). -/
  cfg : Config
  regs : Regs
  /-- Linear address of the next instruction's first byte (R22). -/
  pc : Word
  /-- EFLAGS (R23). -/
  eflags : Word
  /-- CR0, of which bit 31 is read (R24). -/
  cr0 : Word
  msr : MsrFile
  /-- The first-write latch of Register 1000h (R37). -/
  msr1000Written : Bool
  /-- A parity-error NMI is pending (R213). -/
  nmiPending : Bool
  /-- The external pin requests a frequency shift (R215). -/
  hwDfsRequest : Bool
  clock : ClockState
  /-- Physical memory `M`: the bytes written since launch; an unlisted byte holds what the launch left (R243). -/
  mem : Memory
  /-- Hidden memory (R99), present when `cfg.hiddenMemSupported` is `some true`; no instruction in scope reaches it. -/
  hidden : Memory
  /-- Bytes another bus master wrote while a cached copy may exist (R92). -/
  staleBus : List Nat
  /-- Bytes written under a ROM bit, whose cached copy may be older (R93). -/
  staleRom : List Nat
  /-- `none`: no parity error came with parity disabled since the cache was last emptied. `some l`: one came, and l are the
  bytes whose cached copy was written or invalidated since (R90, R213; log entry 33). -/
  parityRenewed : Option (List Nat)
  /-- Bytes fetched as instruction bytes in this run (R96). -/
  fetched : List Nat
  /-- Bytes written by the core or a BusWrite in this run (R96). -/
  written : List Nat
  /-- Whose turn it is next, the first turn first; empty: the core's from here on. The model's own (log entry 6). -/
  schedule : List Turn
  /-- Which contents unlisted memory bytes have: the launch's, or a hardware reset's (log entry 4). -/
  launch : Nat
  /-- How many free values have been used. The model's own (log entry 5). -/
  draws : Nat
  deriving DecidableEq, Repr

/-- The state right after reset. The spec fixes the three Booleans (R240); the zeros of registers, the pc and the
configuration are this model's (log entries 1, 2, 3, unsafe). -/
def State.reset : State where
  cfg := Config.atReset
  regs := ⟨0, 0, 0, 0, 0, 0, 0, 0⟩
  pc := 0
  eflags := 0
  cr0 := 0
  msr := ⟨0, 0, 0, 0, 0, 0⟩
  msr1000Written := false
  nmiPending := false
  hwDfsRequest := false
  clock := .running
  mem := []
  hidden := []
  staleBus := []
  staleRom := []
  parityRenewed := none
  fetched := []
  written := []
  schedule := []
  launch := 0
  draws := 0

end Sys2Proof.Machine
end

