-- ==== Sys2Proof/Machine/Ops.lean ====
section
/-! DEFINITION. The named operations over the state: fields, free values, memory and address sets, the presence of
model-specific registers, the address path, caching, memory access, exceptions, and the advance of pc. -/

namespace Sys2Proof.Machine

open Host (Outcome)

/-! ### One update per field -/

def State.setRegs (s : State) (v : Regs) : State := { s with regs := v }
def State.setPc (s : State) (v : Word) : State := { s with pc := v }
def State.setEflags (s : State) (v : Word) : State := { s with eflags := v }
def State.setCr0 (s : State) (v : Word) : State := { s with cr0 := v }
def State.setMsr (s : State) (v : MsrFile) : State := { s with msr := v }
def State.setLatch (s : State) (v : Bool) : State := { s with msr1000Written := v }
def State.setNmiPending (s : State) (v : Bool) : State := { s with nmiPending := v }
def State.setHwDfsRequest (s : State) (v : Bool) : State := { s with hwDfsRequest := v }
def State.setMem (s : State) (v : Memory) : State := { s with mem := v }
def State.setStaleBus (s : State) (v : List Nat) : State := { s with staleBus := v }
def State.setStaleRom (s : State) (v : List Nat) : State := { s with staleRom := v }
def State.setParityRenewed (s : State) (v : Option (List Nat)) : State := { s with parityRenewed := v }
def State.setFetched (s : State) (v : List Nat) : State := { s with fetched := v }
def State.setWritten (s : State) (v : List Nat) : State := { s with written := v }
def State.setSchedule (s : State) (v : List Turn) : State := { s with schedule := v }

/-! ### Free values (`draw` of R14, log entry 5) -/

/-- The next unused free value; a narrower draw is some of its bits. -/
def State.free (s : State) : Quad := Config.freeWord s.draws

/-- The next free value has been used. -/
def State.tick (s : State) : State := { s with draws := s.draws + 1 }

/-! ### General registers (R20, R21) -/

def Regs.get (g : Regs) : Reg → Word
  | .eax => g.eax
  | .ecx => g.ecx
  | .edx => g.edx
  | .ebx => g.ebx
  | .esp => g.esp
  | .ebp => g.ebp
  | .esi => g.esi
  | .edi => g.edi

def Regs.set (g : Regs) (r : Reg) (v : Word) : Regs :=
  match r with
  | .eax => { g with eax := v }
  | .ecx => { g with ecx := v }
  | .edx => { g with edx := v }
  | .ebx => { g with ebx := v }
  | .esp => { g with esp := v }
  | .ebp => { g with ebp := v }
  | .esi => { g with esi := v }
  | .edi => { g with edi := v }

/-- x[i], the 32-bit register (R12). -/
def State.reg (s : State) (r : Reg) : Word := s.regs.get r

/-- x[i] <- v. -/
def State.setReg (s : State) (r : Reg) (v : Word) : State := s.setRegs (s.regs.set r v)

/-! ### Memory as a sorted list of bytes, and sorted sets of addresses -/

/-- The byte listed at an address; an unlisted address has no value in the list. -/
def memGet : Memory → Nat → Option Byte
  | [], _ => none
  | c :: rest, a => if c.1 = a then some c.2 else memGet rest a

/-- The list with one byte written. -/
def memSet : Memory → Nat → Byte → Memory
  | [], a, b => [(a, b)]
  | c :: rest, a, b =>
    if a < c.1 then (a, b) :: c :: rest
    else if a = c.1 then (a, b) :: rest
    else c :: memSet rest a b

/-- The canonical form: addresses strictly rising. An unlisted address has no value, so no entry can equal one
(log entry 4). -/
def Memory.wf (m : Memory) : Bool := decide (m.Pairwise fun c d => c.1 < d.1)

/-- The canonical form of a set of addresses: strictly rising. -/
def addrSetWf (l : List Nat) : Bool := decide (l.Pairwise fun a b => a < b)

def addrInsert (a : Nat) : List Nat → List Nat
  | [] => [a]
  | b :: rest =>
    if a < b then a :: b :: rest
    else if a = b then b :: rest
    else b :: addrInsert a rest

def addrErase (a : Nat) (l : List Nat) : List Nat := l.filter fun b => b ≠ a

def addrInsertAll (as : List Nat) (l : List Nat) : List Nat := as.foldl (fun acc a => addrInsert a acc) l

/-- M[pa]: the byte written last, else the byte the launch or the last hardware reset left there (R243). -/
def State.memByte (s : State) (pa : Nat) : Byte := (memGet s.mem pa).getD (Config.launchByte s.launch pa)

/-- M[pa] <- b. -/
def State.setMemByte (s : State) (pa : Nat) (b : Byte) : State := s.setMem (memSet s.mem pa b)

/-- A byte of hidden memory, where CPU and motherboard support it (R99); refused where that is OPEN (R8). No instruction
in scope reads it. -/
def State.hiddenByte (s : State) (a : Nat) : Except Refusal (Option Byte) :=
  match s.cfg.hiddenMemSupported with
  | none => .error (.parameterOpen .hiddenMemSupported)
  | some false => .ok none
  | some true => .ok (some ((memGet s.hidden a).getD (Config.hiddenLaunchByte s.launch a)))

/-! ### Presence of the model-specific registers (R25) -/

/-- The six registers. -/
inductive MsrId where
  | array
  | r83
  | r1000
  | r1001
  | r1002
  | r1004
  deriving DecidableEq, Repr

/-- A cell of R25's table; `isOpen` is a cell marked OPEN that no claim has fixed. -/
inductive Presence where
  | present
  | absent
  | isOpen
  deriving DecidableEq, Repr

/-- A parameter cell of MSR_PRESENT: OPEN until a claim fixes it. -/
def parameterCell : Option Bool → Presence
  | none => .isOpen
  | some true => .present
  | some false => .absent

/-- MSR_PRESENT(CPU, n), the table of R25; its cells marked D36 are parameters of the configuration (R8, U7, U8). -/
def msrPresence (c : Config) (m : MsrId) : Presence :=
  match c.cpu, m with
  | .am5x86, .array => .present
  | .am5x86, .r83 => .present
  | .ibm386SLC, .r1000 => .present
  | .ibm386SLC, .r1001 => .present
  | .ibm486SLC, .r1000 => .present
  | .ibm486SLC, .r1001 => .present
  | .ibm486SLC2, .r1000 => parameterCell c.slc2Has1000
  | .ibm486SLC2, .r1001 => parameterCell c.slc2Has1001
  | .ibm486SLC2, .r1002 => .present
  | .ibm486BL3, .r1000 => parameterCell c.bl3Has1000
  | .ibm486BL3, .r1001 => parameterCell c.bl3Has1001
  | .ibm486BL3, .r1002 => parameterCell c.bl3Has1002
  | .ibm486BL3, .r1004 => .present
  | _, _ => .absent

/-- MSR_PRESENT as a fact: the cell says yes. -/
def hasMsr (c : Config) (m : MsrId) : Bool := msrPresence c m == .present

/-- The register a number names, compared as a full 32-bit number (R151 (a)). The number of the register of the
fragment is a parameter; it is compared last (log entry 24). -/
def msrOfNumber (c : Config) (n : Word) : Option MsrId :=
  if n = 0x83 then some .r83
  else if n = 0x1000 then some .r1000
  else if n = 0x1001 then some .r1001
  else if n = 0x1002 then some .r1002
  else if n = 0x1004 then some .r1004
  else if n = c.arrayMsrIndex then some .array
  else none

/-- Is the part a 486SLC, with 1000h bits 18 to 15 (R36)? -/
def has486SlcBits : Cpu → Bool
  | .ibm486SLC => true
  | .ibm486SLC2 => true
  | .am5x86 => false
  | .ibm386SLC => false
  | .ibm486BL3 => false
  | .i386A => false
  | .i486A => false
  | .i486B => false
  | .other => false

/-- A bit of Register 1000h that has its meaning on the configured part: false where the register is not present. -/
def State.bit1000 (s : State) (i : Nat) : Bool := hasMsr s.cfg .r1000 && s.msr.r1000.getLsbD i

/-- ForceExternalReads, 1000h bit 17, on the parts that have it (R36, R40, R91). -/
def State.forceExternalReads (s : State) : Bool := has486SlcBits s.cfg.cpu && s.bit1000 17

/-! ### The address path (R84) -/

/-- CR0 bit 31 (R24). -/
def State.paging (s : State) : Bool := s.cr0.getLsbD 31

/-- Address line 20 is known to be masked, inside the CPU (R55) or outside it. -/
def State.a20Masked (s : State) : Bool := s.bit1000 2 || s.cfg.extA20Mask == some true

/-- The address with bit 20 forced to 0. -/
def clearBit20 (lin : Word) : Word := lin &&& 0xFFEFFFFF

/-- The low PHYS_ADDR_BITS bits (R82). -/
def truncPhys (p : PhysAddrBits) (a : Word) : Nat :=
  match p with
  | .p24 => a.toNat % 2 ^ 24
  | .p32 => a.toNat

/-- The physical address of 32 bits (R82): refused where PHYS_ADDR_BITS is OPEN and the two widths give different
addresses (log entry 18). -/
def narrowPhys (c : Config) (a : Word) : Except Refusal Nat :=
  match c.physAddrBits with
  | some p => .ok (truncPhys p a)
  | none => if a.toNat < 2 ^ 24 then .ok a.toNat else .error (.parameterOpen .physAddrBits)

/-- Whether a byte's address depends on an OPEN cell of R25's table: the internal mask bit is set, bit 20 of the
address too, no external mask is known, and MSR_PRESENT(CPU, 1000h) is OPEN (log entry 18). -/
def State.a20Open (s : State) (lin : Word) : Bool :=
  msrPresence s.cfg .r1000 == .isOpen && s.msr.r1000.getLsbD 2 && lin.getLsbD 20 && s.cfg.extA20Mask != some true

/-- Whether a byte's address depends on an OPEN EXT_A20_MASK: bit 20 of the address is set and the internal mask does not
clear it (log entry 18). -/
def State.extA20Open (s : State) (lin : Word) : Bool :=
  s.cfg.extA20Mask == none && lin.getLsbD 20 && !s.bit1000 2

/-- PhysAddr of R84. -/
def physAddr (s : State) (lin : Word) : Except Refusal Nat :=
  if s.paging then .error .pagingNotModelled
  else if s.a20Open lin then .error .msrPresenceOpen
  else if s.extA20Open lin then .error (.parameterOpen .extA20Mask)
  else narrowPhys s.cfg (if s.a20Masked then clearBit20 lin else lin)

/-! ### Caching (R63, R90 to R93) -/

/-- What governs caching on a part: Register 1000h; a cache doc00 gives no control rule for, or one whose control is
not known because the register is OPEN or absent; or no cache described (log entry 14). -/
inductive CacheKind where
  | controlled
  | unknown
  | absent
  deriving DecidableEq, Repr

def cacheKind (c : Config) : CacheKind :=
  if hasMsr c .r1000 then .controlled
  else
    match c.cpu with
    | .am5x86 => .unknown
    | .ibm386SLC => .unknown
    | .ibm486SLC => .unknown
    | .ibm486SLC2 => .unknown
    | .ibm486BL3 => .unknown
    | .i386A => .absent
    | .i486A => .absent
    | .i486B => .absent
    | .other => .absent

/-- The address is in the area 1000h bit 6 takes out of the cache: E0000h to E0FFFh with the bit set (R51). -/
def dbcsArea (r1000 : Quad) (pa : Nat) : Bool := r1000.getLsbD 6 && decide (0xE0000 ≤ pa ∧ pa ≤ 0xE0FFF)

/-- `Cacheable` of R63, from the contents of Registers 1000h and 1001h. -/
def regionCacheable (extLimitUnit : Nat) (r1000 r1001 : Quad) (pa : Nat) : Bool :=
  if pa < 0x100000 then
    if dbcsArea r1000 pa then false
    else r1001.getLsbD (pa / 0x10000)
  else decide (pa < 0x100000 + (r1001.extractLsb' 32 8).toNat * extLimitUnit)

/-- `IsRom` of R63. -/
def regionRom (r1001 : Quad) (pa : Nat) : Bool :=
  decide (pa < 0x100000) && r1001.getLsbD (16 + pa / 0x10000)

/-- Is a physical address cacheable (R51, R63)? `none`: an input of the environment (1000h bit 10 = 0), or not known
(log entry 14). The area of 1000h bit 6 is not cacheable, with bit 10 = 0 too (log entry 31). DESIGN CHOICE: on the Am5x86
83h bit 7, which disables the data cache, does not settle it, since R29 does not say what becomes of the contents (log
entry 14, safe). -/
def State.cacheable (s : State) (pa : Nat) : Option Bool :=
  match cacheKind s.cfg with
  | .absent => some false
  | .unknown => none
  | .controlled =>
    if dbcsArea s.msr.r1000 pa then some false
    else if s.msr.r1000.getLsbD 10 then
      if s.msr.r1000.getLsbD 7 then
        if hasMsr s.cfg .r1001 then some (regionCacheable s.cfg.extLimitUnit s.msr.r1000 s.msr.r1001 pa) else none
      else some false
    else none

/-- A cached copy may exist: not known counts as yes, since a stale byte is a free value (log entry 14). -/
def State.mayBeCached (s : State) (pa : Nat) : Bool := (s.cacheable pa).getD true

/-- The ROM bit of Register 1001h covers the address, on a part that has the register. -/
def State.romBit (s : State) (pa : Nat) : Bool := hasMsr s.cfg .r1001 && regionRom s.msr.r1001 pa

/-- The ROM bit covers the address and the part may have Register 1001h: an OPEN cell counts as having it, since a stale
byte is a free value (log entry 14). -/
def State.mayBeRomBit (s : State) (pa : Nat) : Bool := msrPresence s.cfg .r1001 != .absent && regionRom s.msr.r1001 pa

/-- The platform has ROM at the address (log entry 15). -/
def State.platformRomAt (s : State) (pa : Nat) : Bool :=
  decide (pa < 0x100000) && s.cfg.platformRom.getLsbD (pa / 0x10000)

/-- The cached copy of the byte may be one that a parity error with parity disabled has spoilt. DESIGN CHOICE: no rule names
the affected bytes, so each byte counts until its copy is written, invalidated or emptied (log entry 33, safe). -/
def State.parityMayHit (s : State) (pa : Nat) : Bool :=
  match s.parityRenewed with
  | none => false
  | some l => decide (pa ∉ l)

/-- The byte's cached copy is written or invalidated: a parity error before that does not affect it (log entry 33). -/
def State.renewCopy (s : State) (pa : Nat) : State := s.setParityRenewed (s.parityRenewed.map (addrInsert pa))

/-- A read of the byte may see a cached copy that is stale or spoilt (R90 to R93). -/
def State.isStale (s : State) (pa : Nat) : Bool :=
  !s.forceExternalReads && (decide (pa ∈ s.staleBus) || ((decide (pa ∈ s.staleRom) || s.parityMayHit pa) && s.mayBeCached pa))

/-- The cache is emptied: R92's and R93's staleness and a parity error's effect end (R98, R213, R219). -/
def State.flushCache (s : State) : State := ((s.setStaleBus []).setStaleRom []).setParityRenewed none

/-! ### Memory access (R13, R80, R87) -/

/-- The core reads the byte at a physical address: M[pa], or a free value where the cached copy may be stale or
spoilt. -/
def readByte (s : State) (pa : Nat) : Byte × State :=
  if s.isStale pa then (s.free.setWidth 8, s.tick) else (s.memByte pa, s)

/-- Reads n bytes from a linear address on, each through PhysAddr of its own address. -/
def readBytes : Nat → State → Word → Except Refusal (List Byte × State)
  | 0, s, _ => .ok ([], s)
  | n + 1, s, lin =>
    match physAddr s lin with
    | .error r => .error r
    | .ok pa =>
      match readBytes n (readByte s pa).2 (lin + 1) with
      | .error r => .error r
      | .ok (bs, s') => .ok ((readByte s pa).1 :: bs, s')

/-- Bytes as one value, the first byte least significant (R80). -/
def littleEndian : List Byte → Word
  | [] => 0
  | b :: rest => (littleEndian rest <<< 8) ||| b.setWidth 32

/-- The n low bytes of a value, least significant first (R80). -/
def leBytes : Nat → Word → List Byte
  | 0, _ => []
  | n + 1, v => v.setWidth 8 :: leBytes n (v >>> 8)

/-- MemRead(addr, n) of R13, zero-extended to 32 bits. -/
def memRead (s : State) (lin : Word) (n : Nat) : Except Refusal (Word × State) :=
  match readBytes n s lin with
  | .error r => .error r
  | .ok (bs, s') => .ok (littleEndian bs, s')

/-- A core write to one byte's storage: ROM on the platform ignores it; under a set ROM bit the cached copy is not
updated (R93); elsewhere memory and cache take it (R92). No core write ends R93's staleness (log entry 30). DESIGN CHOICE:
a write that ROM ignores does not end R92's staleness of the byte (log entry 27, safe); where no ROM bit is known to cover
the byte, on a part without Register 1001h such as the Am5x86 too, it leaves the byte stale (log entry 15, safe). -/
def storeByte (s : State) (pa : Nat) (b : Byte) : State :=
  if s.platformRomAt pa then
    if s.romBit pa then s else s.setStaleRom (addrInsert pa s.staleRom)
  else
    let t := (s.setMemByte pa b).setStaleBus (addrErase pa s.staleBus)
    if s.mayBeRomBit pa then t.setStaleRom (addrInsert pa s.staleRom)
    else t.renewCopy pa

/-- The byte is written: refused where it was fetched as an instruction byte (R96). -/
def writeByte (s : State) (pa : Nat) (b : Byte) : Except Refusal State :=
  if pa ∈ s.fetched then .error .codeModified
  else .ok ((storeByte s pa b).setWritten (addrInsert pa s.written))

/-- Writes bytes from a linear address on, each through PhysAddr of its own address. -/
def writeBytes : List Byte → State → Word → Except Refusal State
  | [], s, _ => .ok s
  | b :: bs, s, lin =>
    match physAddr s lin with
    | .error r => .error r
    | .ok pa =>
      match writeByte s pa b with
      | .error r => .error r
      | .ok s' => writeBytes bs s' (lin + 1)

/-- MemWrite(addr, n, v) of R13. -/
def memWrite (s : State) (lin : Word) (n : Nat) (v : Word) : Except Refusal State :=
  writeBytes (leBytes n v) s lin

/-! ### Exceptions (R200 to R206) and the end of an instruction (R22) -/

/-- The vector: of the exceptions by R200's table (GK8, GK18), of the NMI by GK8. -/
def TrapKind.vector : TrapKind → Nat
  | .debugTrap => 1
  | .nmi => 2
  | .invalidOpcode => 6
  | .generalProtection => 13

/-- The error code: of the exceptions by R200's table. PRESUMED: the NMI has none; the table has no row for it and no rule
gives one (log entry 35, unsafe). -/
def TrapKind.errorCode : TrapKind → Option Word
  | .generalProtection => some 0
  | .invalidOpcode => none
  | .debugTrap => none
  | .nmi => none

/-- Taking an exception (R206): the run ends in Trapped(kind); no handler is entered, nothing is saved, and the
state at the trap is the state the step began with. R209: there is no return from it. -/
def takeException (kind : TrapKind) (_s : State) : Outcome State Fault Refusal := .fault (.trapped kind)

/-- An instruction that does not complete. -/
def stopWith (st : Stop) (s : State) : Outcome State Fault Refusal :=
  match st with
  | .trap kind => takeException kind s
  | .refuse r => .refused r

/-- `pc + len` would exceed FFFFFFFFh, or in 16-bit mode the 16-bit offset FFFFh (R22, log entry 8). -/
def pcWraps (s : State) (len : Nat) : Bool :=
  decide (2 ^ 32 ≤ s.pc.toNat + len) ||
    (s.cfg.defaultSize == .w16 && decide (2 ^ 16 ≤ s.pc.toNat % 2 ^ 16 + len))

/-- The instruction completes: `pc <- pc + len` (R22). -/
def advance (len : Nat) (s : State) : Outcome State Fault Refusal :=
  if pcWraps s len then .refused .pcWrap else .next (s.setPc (s.pc + BitVec.ofNat 32 len))

end Sys2Proof.Machine
end

