-- ==== Sys2Proof/Machine/Operands.lean ====
section
/-! DEFINITION. Operand forms: the W-bit views of the registers (R12, R21), effective addresses (R118, R119), and
reading and writing the register-or-memory operand. A W-bit value is held in 32 bits, zero-extended. -/

namespace Sys2Proof.Machine

/-- W. -/
def opBits : OpSize → Nat
  | .w16 => 16
  | .w32 => 32

/-- W / 8, the width of "memW" (R88). -/
def opBytes : OpSize → Nat
  | .w16 => 2
  | .w32 => 4

/-- The low W bits of a value, zero-extended. -/
def narrow (w : OpSize) (v : Word) : Word :=
  match w with
  | .w16 => v &&& 0xFFFF
  | .w32 => v

/-- reg(W, i) (R12). -/
def readReg (s : State) (w : OpSize) (r : Reg) : Word := narrow w (s.reg r)

/-- The register after reg(W, i) <- v: for W = 16, bits 31-16 keep their value (R12, R21). -/
def mergeReg (w : OpSize) (old v : Word) : Word :=
  match w with
  | .w16 => (old &&& 0xFFFF0000) ||| (v &&& 0xFFFF)
  | .w32 => v

/-- reg(W, i) <- v. -/
def writeReg (s : State) (w : OpSize) (r : Reg) (v : Word) : State := s.setReg r (mergeReg w (s.reg r) v)

/-! ### Effective addresses -/

/-- disp8 sign-extended to 16 bits, or disp16 (R119). -/
def disp16Value : Disp16 → Half
  | .absent => 0
  | .d8 d => d.signExtend 16
  | .d16 d => d

/-- disp8 sign-extended to 32 bits, or disp32 (R118). -/
def disp32Value : Disp32 → Word
  | .absent => 0
  | .d8 d => d.signExtend 32
  | .d32 d => d

/-- A 16-bit register (R21). -/
def reg16 (s : State) (r : Reg) : Half := (s.reg r).setWidth 16

/-- The register sum of R119's table, modulo 2^16. -/
def base16Value (s : State) : Base16 → Half
  | .bxSi => reg16 s .ebx + reg16 s .esi
  | .bxDi => reg16 s .ebx + reg16 s .edi
  | .bpSi => reg16 s .ebp + reg16 s .esi
  | .bpDi => reg16 s .ebp + reg16 s .edi
  | .si => reg16 s .esi
  | .di => reg16 s .edi
  | .bp => reg16 s .ebp
  | .bx => reg16 s .ebx

/-- The effective address with address size 16: the 16-bit sum zero-extended (R119). -/
def ea16 (s : State) : Mem16 → Word
  | .based b d => (base16Value s b + disp16Value d).setWidth 32
  | .direct d => d.setWidth 32

/-- Index << scale, or 0 without index (R118). -/
def indexValue (s : State) (sc : Scale) : Option Reg → Word
  | none => 0
  | some r => s.reg r <<< sc.bits.toNat

/-- The effective address with address size 32, modulo 2^32 (R118). -/
def ea32 (s : State) : Mem32 → Word
  | .based r d => s.reg r + disp32Value d
  | .direct d => d
  | .sib sc i b d => s.reg b + indexValue s sc i + disp32Value d
  | .sibNoBase sc i d => indexValue s sc i + d

/-! ### The register-or-memory operand -/

/-- Where an operand is: a register, or memory from a linear address on (segment base 0, R83). -/
inductive Place where
  | reg (r : Reg)
  | mem (ea : Word)
  deriving DecidableEq, Repr

/-- Where the second operand is, from the registers at the start of the instruction (R115, R120). -/
def rmPlace (s : State) : RmOperand → Place
  | .reg r => .reg r
  | .mem16 m => .mem (ea16 s m)
  | .mem32 m => .mem (ea32 s m)

/-- `m_old` of R162: the register's W-bit view, or MemRead(ea, W/8). -/
def readPlace (s : State) (w : OpSize) : Place → Except Refusal (Word × State)
  | .reg r => .ok (readReg s w r, s)
  | .mem ea => memRead s ea (opBytes w)

/-- `m_new` of R162: the register's W-bit view is written, or MemWrite(ea, W/8, v). -/
def writePlace (s : State) (w : OpSize) (p : Place) (v : Word) : Except Refusal State :=
  match p with
  | .reg r => .ok (writeReg s w r v)
  | .mem ea => memWrite s ea (opBytes w) v

end Sys2Proof.Machine
end

