-- ==== Sys2Proof/Machine/Mov.lean ====
section
/-! DEFINITION. The helper MOV r32, imm32 (rule R190). -/

namespace Sys2Proof.Machine

open Host (Outcome)

/-- x[r] <- imm32; pc <- pc + 5; no flag (R190). -/
def execMovR32Imm32 (r : Reg) (imm : Word) (s : State) : Outcome State Fault Refusal :=
  advance (instrLength s.cfg (.movR32Imm32 r imm)) (s.setReg r imm)

end Sys2Proof.Machine
end

