-- ==== Sys2Proof/Machine/Msr.lean ====
section
/-! DEFINITION. RDMSR and WRMSR (rules R140 to R151): the checks, ReadValue (R144) and WriteValue (R143). -/

namespace Sys2Proof.Machine

open Host (Outcome)

def MsrFile.get (f : MsrFile) : MsrId → Quad
  | .array => f.array
  | .r83 => f.r83
  | .r1000 => f.r1000
  | .r1001 => f.r1001
  | .r1002 => f.r1002
  | .r1004 => f.r1004

def MsrFile.set (f : MsrFile) (m : MsrId) (v : Quad) : MsrFile :=
  match m with
  | .array => { f with array := v }
  | .r83 => { f with r83 := v }
  | .r1000 => { f with r1000 := v }
  | .r1001 => { f with r1001 := v }
  | .r1002 => { f with r1002 := v }
  | .r1004 => { f with r1004 := v }

/-- The checks RDMSR and WRMSR share, in the order of their pseudocode (R141, R142, R145, R147, R205): the CPU, the
privilege level, the presence of the register ECX names (R148). -/
def msrGate (s : State) : Except Stop MsrId :=
  if s.cfg.cpu.hasMsrs = false then .error (.trap .invalidOpcode)
  else if s.cfg.cpl ≠ 0 then .error (.trap .generalProtection)
  else
    match msrOfNumber s.cfg (s.reg .ecx) with
    | none => .error (.trap .generalProtection)
    | some m =>
      match msrPresence s.cfg m with
      | .present => .ok m
      | .absent => .error (.trap .generalProtection)
      | .isOpen => .error (.refuse .msrPresenceOpen)

/-- The bits taken from `new` where the mask is 1, from `old` where it is 0. -/
def merge (mask old new : Quad) : Quad := (old &&& ~~~mask) ||| (new &&& mask)

/-- A frequency shift is requested, by software (1002h bit 27) or by the pin (R215). -/
def dfsPending (hw : Bool) (r1002 : Quad) : Bool := hw || r1002.getLsbD 27

/-- The bits RDMSR takes from the stored register; the others are drawn (R144). 1000h bits 18 to 15 are stored bits
on the 486SLC parts (R36); 1002h bit 28 while a request is pending (R70, R215; log entry 13); nothing of the register of the
fragment (R26). -/
def readMask (c : Config) (hw : Bool) (r1002 : Quad) : MsrId → Quad
  | .array => 0
  | .r83 => 0xEF
  | .r1000 => if has486SlcBits c.cpu then 0x7FEFF else 0x7EFF
  | .r1001 => 0xFFFFFFFFFF
  | .r1002 => if dfsPending hw r1002 then 0x3F000000 else 0x2F000000
  | .r1004 => 0xD40000

/-- ReadValue(n) with the draw d (R144). -/
def readValue (s : State) (m : MsrId) (d : Quad) : Quad :=
  merge (readMask s.cfg s.hwDfsRequest s.msr.r1002 m) d (s.msr.get m)

/-- EDX:EAX (R9). -/
def edxEax (s : State) : Quad := (s.reg .edx ++ s.reg .eax : BitVec 64)

/-- WriteValue(83h) (R28, R32, R33). -/
def write83 (old v : Quad) : Except Refusal Quad :=
  if v &&& ~~~0xEF ≠ 0 then .error .reservedBitsWritten
  else if v.extractLsb' 1 3 = 0 ∨ v.extractLsb' 1 3 = 1 ∨ v.extractLsb' 1 3 = 4 then .ok (merge 0xEF old v)
  else .error .reservedEncodingWritten

/-- The bits of Register 1000h a WRMSR stores as written (R143): 13, 12, 9, 7 to 1; 18 to 15 on the 486SLC parts
(R36); 14 and 10 on the first write after a hardware reset (R37). -/
def mask1000 (cpu : Cpu) (latched : Bool) : Quad :=
  (if has486SlcBits cpu then 0x78000 else 0) ||| (if latched then 0 else 0x4400) ||| 0x32FE

/-- WriteValue(1000h) (R36, R37, R46, R57): bits 11 and 0 become 0 when written 0, a draw when written 1. -/
def write1000 (cpu : Cpu) (latched : Bool) (old v d : Quad) : Quad :=
  merge 0x801 (merge (mask1000 cpu latched) old v) (v &&& d)

/-- WriteValue(1001h) (R59 to R62). -/
def write1001 (old v : Quad) : Quad := merge 0xFFFFFFFFFF old v

/-- WriteValue(1002h) (R65 to R69): "bit 28 keeps its hardware value". -/
def write1002 (old v : Quad) : Except Refusal Quad :=
  if v.extractLsb' 24 3 = 0 ∨ v.extractLsb' 24 3 = 3 ∨ v.extractLsb' 24 3 = 4 then .ok (merge 0x2F000000 old v)
  else .error .reservedEncodingWritten

/-- WriteValue(1004h) (R72 to R77). -/
def write1004 (old v : Quad) : Quad := merge 0xD40000 old v

/-- WriteValue(n, S, v) with the draw d (R143). -/
def writeValue (s : State) (m : MsrId) (v d : Quad) : Except Refusal Quad :=
  match m with
  | .array => .error .arrayRegisterWrite
  | .r83 => write83 s.msr.r83 v
  | .r1000 => .ok (write1000 s.cfg.cpu s.msr1000Written s.msr.r1000 v d)
  | .r1001 => .ok (write1001 s.msr.r1001 v)
  | .r1002 => write1002 s.msr.r1002 v
  | .r1004 => .ok (write1004 s.msr.r1004 v)

/-- MSR[n] <- v; a WRMSR of Register 1000h uses up the first-write latch (R37). -/
def storeMsr (s : State) (m : MsrId) (v : Quad) : State :=
  let t := s.setMsr (s.msr.set m v)
  if m = .r1000 then t.setLatch true else t

/-- RDMSR (R141). -/
def execRdmsr (s : State) : Outcome State Fault Refusal :=
  match msrGate s with
  | .error st => stopWith st s
  | .ok m =>
    let v := readValue s m s.free
    advance (instrLength s.cfg .rdmsr)
      ((s.tick.setReg .edx (v.extractLsb' 32 32)).setReg .eax (v.extractLsb' 0 32))

/-- WRMSR (R142). -/
def execWrmsr (s : State) : Outcome State Fault Refusal :=
  match msrGate s with
  | .error st => stopWith st s
  | .ok m =>
    match writeValue s m (edxEax s) s.free with
    | .error r => .refused r
    | .ok v => advance (instrLength s.cfg .wrmsr) (storeMsr s.tick m v)

end Sys2Proof.Machine
end

