-- ==== Sys2Proof/Machine/Flags.lean ====
section
/-! DEFINITION. The six status flags of EFLAGS (R23) and the one flag computation the spec gives: after XBTS all six
are free values and nothing else in EFLAGS changes (R168). RDMSR, WRMSR and MOV write no flag. -/

namespace Sys2Proof.Machine

/-- CF 0, PF 2, AF 4, ZF 6, SF 7, OF 11 (R23). -/
def statusFlagMask : Word := 0x8D5

/-- EFLAGS[CF,PF,AF,ZF,SF,OF] <- the same bits of fl, the rest unchanged. -/
def withStatusFlags (eflags fl : Word) : Word := (eflags &&& ~~~statusFlagMask) ||| (fl &&& statusFlagMask)

/-- The state with the six status flags taken from fl (R168). -/
def State.setStatusFlags (s : State) (fl : Word) : State := s.setEflags (withStatusFlags s.eflags fl)

end Sys2Proof.Machine
end

