-- ==== Sys2Proof/Machine/Xbts.lean ====
section
/-! DEFINITION. The opcode 0Fh A6h: XBTS, extract bit string (rules R160 to R171), and CMPXCHG, which the source names
and does not define (R180, R185). -/

namespace Sys2Proof.Machine

open Host (Outcome)

/-- The n low bits. -/
def lowMask (n : Nat) : Word := BitVec.ofNat 32 (2 ^ n - 1)

/-- CL, bits 7-0 of ECX (R21). -/
def State.cl (s : State) : Byte := (s.reg .ecx).setWidth 8

/-- The bits of the destination above the string: XBTS_HIGH_FILL (R166). -/
def xbtsHigh (fill : HighFill) (len : Nat) (d : Quad) : Word :=
  match fill with
  | .draw => d.setWidth 32 <<< len
  | .zero => 0

/-- XbtsGK (R166): offset AX or EAX, length CL; the string is the low `len` bits of `r_new`; `m` is not written. -/
def xbtsGK (fill : HighFill) (w : OpSize) (mOld acc : Word) (cl : Byte) (d : Quad) :
    Except Refusal (Option Word × Option Word) :=
  if opBits w < (narrow w acc).toNat + cl.toNat then .error .xbtsOutOfOperand
  else .ok (some (xbtsHigh fill cl.toNat d ||| (mOld >>> (narrow w acc).toNat &&& lowMask cl.toNat)), none)

/-- XbtsFn, the configured instance (R165 to R167): `r_new` and `m_new`, each a value or not written. -/
def xbtsFn (c : Config) (w : OpSize) (rOld mOld acc : Word) (cl : Byte) (d : Quad) :
    Except Refusal (Option Word × Option Word) :=
  match c.xbtsFn with
  | .gk => xbtsGK c.xbtsHighFill w mOld acc cl d
  | .literal => .error .xbtsSemanticsUnknown
  | .arbitrary =>
    match Config.xbtsArbitrary w rOld mOld acc cl d with
    | none => .error .xbtsInstanceRefused
    | some p => .ok p

/-- `m_new`, if written. -/
def writePlaceIf (s : State) (w : OpSize) (p : Place) : Option Word → Except Refusal State
  | none => .ok s
  | some v => writePlace s w p v

/-- `r_new`, if written. -/
def writeRegIf (s : State) (w : OpSize) (r : Reg) : Option Word → State
  | none => s
  | some v => writeReg s w r v

/-- What XBTS does on the part that has it, but for the pc (R162): every input is read from the state at the start
(the memory operand's read may use free values), then `m`, `r` and the six flags are written in that order. -/
def xbtsEffect (w : OpSize) (reg : Reg) (rm : RmOperand) (s : State) : Except Refusal State :=
  match readPlace s w (rmPlace s rm) with
  | .error r => .error r
  | .ok (mOld, s1) =>
    match xbtsFn s.cfg w (readReg s w reg) mOld (s.reg .eax) s.cl s1.free with
    | .error r => .error r
    | .ok (rNew, mNew) =>
      match writePlaceIf s1.tick w (rmPlace s rm) mNew with
      | .error r => .error r
      | .ok s2 => .ok ((writeRegIf s2 w reg rNew).setStatusFlags (s2.free.setWidth 32)).tick

/-- XBTS (R162): executed on the 80386 A step, and on every other part what R124 says of the bytes 0Fh A6h. -/
def execXbts (w a : OpSize) (reg : Reg) (rm : RmOperand) (s : State) : Outcome State Fault Refusal :=
  match s.cfg.cpu with
  | .i386A =>
    match xbtsEffect w reg rm s with
    | .error r => .refused r
    | .ok s' => advance (instrLength s.cfg (.xbts w a reg rm)) s'
  | .i486A => .refused (.namedOnly "CMPXCHG")
  | .am5x86 => takeException .invalidOpcode s
  | .ibm386SLC => takeException .invalidOpcode s
  | .ibm486SLC => takeException .invalidOpcode s
  | .ibm486SLC2 => takeException .invalidOpcode s
  | .ibm486BL3 => takeException .invalidOpcode s
  | .i486B => takeException .invalidOpcode s
  | .other => takeException .invalidOpcode s

/-- CMPXCHG on the first 80486: named, not defined, so refused by name (R180, R185). -/
def execCmpxchg (_f : RmForm) (_s : State) : Outcome State Fault Refusal := .refused (.namedOnly "CMPXCHG")

end Sys2Proof.Machine
end

