-- ==== Sys2Proof/Machine/Dispatch.lean ====
section
/-! DEFINITION. One arm per instruction. -/

namespace Sys2Proof.Machine

def exec (i : Instr) (s : State) : Host.Outcome State Fault Refusal :=
  match i with
  | .xbts w a reg rm => Sys2Proof.Machine.execXbts w a reg rm s
  | .cmpxchg f => Sys2Proof.Machine.execCmpxchg f s
  | .rdmsr => Sys2Proof.Machine.execRdmsr s
  | .wrmsr => Sys2Proof.Machine.execWrmsr s
  | .movR32Imm32 r imm => Sys2Proof.Machine.execMovR32Imm32 r imm s

end Sys2Proof.Machine
end

