-- ==== Sys2Proof/Machine/Env.lean ====
section
/-! DEFINITION. The environment's steps (rules R212 to R219, R241). An event a part does not have, or whose condition
does not hold, has no effect (log entry 6). -/

namespace Sys2Proof.Machine

open Host (Outcome)

/-- The k-th free value from here on. -/
def State.freeAt (s : State) (k : Nat) : Quad := Config.freeWord (s.draws + k)

/-- HardwareReset (R240, R241): the three Booleans become false, MSR[n] becomes RESET_MSR(n), a fresh draw where the
configuration names no value, and every other piece of state of R240's table becomes a fresh draw; the configuration of
the run stays (log entry 17). -/
def eventHardwareReset (s : State) : State :=
  { s with
    regs :=
      { eax := (s.freeAt 0).setWidth 32
        ecx := (s.freeAt 1).setWidth 32
        edx := (s.freeAt 2).setWidth 32
        ebx := (s.freeAt 3).setWidth 32
        esp := (s.freeAt 4).setWidth 32
        ebp := (s.freeAt 5).setWidth 32
        esi := (s.freeAt 6).setWidth 32
        edi := (s.freeAt 7).setWidth 32 }
    pc := (s.freeAt 8).setWidth 32
    eflags := (s.freeAt 9).setWidth 32
    cr0 := (s.freeAt 10).setWidth 32
    msr :=
      { array := s.cfg.resetMsr.array.getD (s.freeAt 11)
        r83 := s.cfg.resetMsr.r83.getD (s.freeAt 12)
        r1000 := s.cfg.resetMsr.r1000.getD (s.freeAt 13)
        r1001 := s.cfg.resetMsr.r1001.getD (s.freeAt 14)
        r1002 := s.cfg.resetMsr.r1002.getD (s.freeAt 15)
        r1004 := s.cfg.resetMsr.r1004.getD (s.freeAt 16) }
    msr1000Written := false
    nmiPending := false
    hwDfsRequest := false
    mem := []
    hidden := []
    staleBus := []
    staleRom := []
    parityRenewed := none
    launch := s.draws + 1
    draws := s.draws + 17 }

/-- A new value of Register 1000h. -/
def State.setR1000 (s : State) (v : Quad) : State := s.setMsr (s.msr.set .r1000 v)

/-- A new value of Register 1002h. -/
def State.setR1002 (s : State) (v : Quad) : State := s.setMsr (s.msr.set .r1002 v)

/-- An event of the parts with Register 1000h (R212): none on a part without it; refused where the cell of R25 is OPEN
("a model refuses when a rule needs the value and the claim has not fixed it", 92_eei_decisions.md). -/
def onPartsWith1000 (s : State) (o : Outcome State Fault Refusal) : Outcome State Fault Refusal :=
  match msrPresence s.cfg .r1000 with
  | .present => o
  | .absent => .next s
  | .isOpen => .refused .msrPresenceOpen

/-- CacheParityError (R213, R56, R57). With 1000h bit 1 = 1: cache flushed, bit 7 <- 0, bit 1 <- 0, bit 0 <- 1, NMI
pending. With bit 1 = 0: bit 0 <- bit 0 OR a draw, no other register changes, and reads of an affected byte are draws from
here on (R90; which bytes those are: log entry 33). -/
def eventCacheParityError (s : State) : State :=
  if s.msr.r1000.getLsbD 1 then (s.flushCache.setR1000 (merge 0x83 s.msr.r1000 1)).setNmiPending true
  else ((s.setR1000 (s.msr.r1000 ||| (s.free &&& 1))).tick).setParityRenewed (some [])

/-- The cache is enabled, as far as the registers say: with 1000h bit 10 = 0 the external line decides (R47, R50). -/
def State.cacheMayBeEnabled (s : State) : Bool := !s.msr.r1000.getLsbD 10 || s.msr.r1000.getLsbD 7

/-- CacheReload (R214): 1000h bit 11 <- 1 (log entry 28). -/
def eventCacheReload (s : State) : State :=
  if s.cacheMayBeEnabled then s.setR1000 (s.msr.r1000 ||| 0x800) else s

/-- DFSHardwareRequest (R215): enabled by 1002h bit 29. -/
def eventDfsHardwareRequest (s : State) : State :=
  if s.cfg.cpu = .ibm486SLC2 ∧ s.msr.r1002.getLsbD 29 then s.setHwDfsRequest true else s

/-- DFSReadyRaise (R215): enabled by a pending request; 1002h bit 28 <- 1. -/
def eventDfsReadyRaise (s : State) : State :=
  if s.cfg.cpu = .ibm486SLC2 ∧ dfsPending s.hwDfsRequest s.msr.r1002 then s.setR1002 (s.msr.r1002 ||| 0x10000000)
  else s

/-- DFSRequestRemoved (R215): the pin's request ends. With no request left, RDMSR draws bit 28 (`readMask`). -/
def eventDfsRequestRemoved (s : State) : State :=
  if s.cfg.cpu = .ibm486SLC2 then s.setHwDfsRequest false else s

/-- What a bus master's write leaves stale in the cache (R92): snooping invalidates the copy; without it a copy that
may be cached is stale. A part with no snoop bit known does not snoop (log entry 14). DESIGN CHOICE: R92's conditions
(bit 3, Cacheable, bit 17) are those at the BusWrite; where they do not hold then, no later read is stale by it, whatever
the bits become (log entry 29, unsafe). -/
def busWriteStale (pa : Nat) (s : State) : State :=
  if s.bit1000 3 then ((s.setStaleBus (addrErase pa s.staleBus)).setStaleRom (addrErase pa s.staleRom)).renewCopy pa
  else if s.mayBeCached pa && !s.forceExternalReads then s.setStaleBus (addrInsert pa s.staleBus)
  else s

/-- M[pa] <- v, but ROM on the platform ignores writes (R216, R252; log entry 21). -/
def busStore (s : State) (pa : Nat) (v : Byte) : State := if s.platformRomAt pa then s else s.setMemByte pa v

/-- BusWrite(pa, v) (R216) at a physical address: refused on a fetched byte (R96). -/
def busWriteAt (pa : Nat) (v : Byte) (s : State) : Outcome State Fault Refusal :=
  if pa ∈ s.fetched then .refused .codeModified
  else .next ((busStore (busWriteStale pa s) pa v).setWritten (addrInsert pa s.written))

/-- BusWrite(pa, v) (R216), its address narrowed to PHYS_ADDR_BITS (log entry 21). -/
def eventBusWrite (a : Word) (v : Byte) (s : State) : Outcome State Fault Refusal :=
  match narrowPhys s.cfg a with
  | .error r => .refused r
  | .ok pa => busWriteAt pa v s

/-- FlushSnoopSignal (R219): with 1000h bit 4 = 1 the cache is emptied. -/
def eventFlushSnoopSignal (s : State) : State := if s.msr.r1000.getLsbD 4 then s.flushCache else s

/-- PwiPin (R217): Suspend mode is not modelled; with 1000h bit 5 = 0 no effect. -/
def eventPwiPin (s : State) : Outcome State Fault Refusal :=
  if s.msr.r1000.getLsbD 5 then .refused .suspendNotModelled else .next s

/-- One step of the environment (R212). -/
def envStep (e : Event) (s : State) : Outcome State Fault Refusal :=
  match e with
  | .hardwareReset => .next (eventHardwareReset s)
  | .cacheParityError => onPartsWith1000 s (.next (eventCacheParityError s))
  | .cacheReload => onPartsWith1000 s (.next (eventCacheReload s))
  | .dfsHardwareRequest => .next (eventDfsHardwareRequest s)
  | .dfsReadyRaise => .next (eventDfsReadyRaise s)
  | .dfsRequestRemoved => .next (eventDfsRequestRemoved s)
  | .busWrite pa v => eventBusWrite pa v s
  | .flushSnoopSignal => onPartsWith1000 s (.next (eventFlushSnoopSignal s))
  | .pwiPin => onPartsWith1000 s (eventPwiPin s)

end Sys2Proof.Machine
end

