-- ==== Sys2Proof/Machine/Fetch.lean ====
section
/-! DEFINITION. Fetching an instruction (rules R13, R22, R84, R96, R126): the bytes at pc, each through PhysAddr, the
decoder, and the refusal of self-modifying code; and placing an instruction's bytes where the next fetch reads. -/

namespace Sys2Proof.Machine

/-- The bytes from a linear address on, each with its physical address, up to n of them; and the refusal that meets
a decoder which needs one more (the address space ends, or the address path refuses). -/
def fetchWindow : Nat → State → Nat → List (Nat × Byte) × Refusal
  | 0, _, _ => ([], .pcWrap)
  | n + 1, s, a =>
    if a < 2 ^ 32 then
      match physAddr s (BitVec.ofNat 32 a) with
      | .error r => ([], r)
      | .ok pa => ((pa, s.memByte pa) :: (fetchWindow n s (a + 1)).1, (fetchWindow n s (a + 1)).2)
    else ([], .pcWrap)

/-- What the fetch gives: an instruction and the state that remembers its bytes as fetched, or why there is none. -/
inductive Fetched where
  | run (i : Instr) (s : State)
  | stop (st : Stop)
  deriving DecidableEq, Repr

/-- The decoder's refusals by the spec's names; `more` is met where the bytes end. -/
def decodeRefusal (more : Refusal) : DecodeStop → Refusal
  | .prefixNotAdmitted => .prefixNotAdmitted
  | .unknownOpcode => .unknownOpcode
  | .memOperandNotAdmitted => .memOperandNotAdmitted
  | .truncated => more

/-- The physical addresses of the instruction's own bytes: the window without the rest the decoder left. -/
def fetchedAddrs (win : List (Nat × Byte)) (rest : List Byte) : List Nat :=
  (win.take (win.length - rest.length)).map Prod.fst

/-- A byte of the list was written in this run (R96). -/
def anyWritten (s : State) (pas : List Nat) : Bool := pas.any fun a => decide (a ∈ s.written)

/-- The state that remembers the bytes as fetched (R96). -/
def State.noteFetched (s : State) (pas : List Nat) : State := s.setFetched (addrInsertAll pas s.fetched)

/-- Fetch and decode at pc. DESIGN CHOICE where one of the bytes was written in the run (log entry 34, safe): for bytes
that are no instruction or are broken off, the decoder's refusal, PcWrap or the address path's refusal comes, not R96's
CodeModified; for an opcode the part lacks, and for CMPXCHG on the i486A, CodeModified comes, not the trap or NamedOnly.
DESIGN CHOICE: a fetch reads M, the program text fixed at launch (R96), also after a parity error with parity disabled, of
whose affected bytes R90 says what a MemRead gives (log entry 33, unsafe). -/
def fetchInstr (s : State) : Fetched :=
  let win := (fetchWindow maxInstrLength s s.pc.toNat).1
  let more := (fetchWindow maxInstrLength s s.pc.toNat).2
  match decode s.cfg (win.map Prod.snd) with
  | .stop r => .stop (.refuse (decodeRefusal more r))
  | .invalidOpcode rest =>
    if anyWritten s (fetchedAddrs win rest) then .stop (.refuse .codeModified) else .stop (.trap .invalidOpcode)
  | .ok i rest =>
    if anyWritten s (fetchedAddrs win rest) then .stop (.refuse .codeModified)
    else .run i (s.noteFetched (fetchedAddrs win rest))

/-- Bytes placed in memory from a linear address on, as the launch's program text: each through PhysAddr, and not
counted as written in the run. -/
def placeCode : List Byte → State → Nat → State
  | [], s, _ => s
  | b :: bs, s, a =>
    if a < 2 ^ 32 then
      match physAddr s (BitVec.ofNat 32 a) with
      | .error _ => s
      | .ok pa => placeCode bs ((s.setMemByte pa b).setWritten (addrErase pa s.written)) (a + 1)
    else s

/-- What a fetch needs besides the bytes: the core's turn, no pending NMI, paging off, and a part that has the
instruction (log entries 19, 20). -/
def readyToFetch (bs : List Byte) (s : State) : State :=
  { s with
    cfg := { s.cfg with cpu := cpuForBytes s.cfg bs }
    cr0 := s.cr0 &&& 0x7FFFFFFF
    nmiPending := false
    schedule := [] }

end Sys2Proof.Machine
end

