-- ==== Sys2Proof/Machine/Step.lean ====
section
/-! DEFINITION. One step of the machine: the turn's agent moves (R18). -/

namespace Sys2Proof.Machine

open Host (Outcome)

/-- The core's step: a pending NMI is taken before the next fetch (R205 (b)); else the instruction at pc is fetched,
decoded and executed. -/
def coreStep (s : State) : Outcome State Fault Refusal :=
  if s.nmiPending then takeException .nmi s
  else
    match fetchInstr s with
    | .stop st => stopWith st s
    | .run i s' => exec i s'

/-- One step: the agent whose turn it is (R18, R212). -/
def step (s : State) : Outcome State Fault Refusal :=
  match s.schedule with
  | [] => coreStep s
  | .core :: rest => coreStep (s.setSchedule rest)
  | .env e :: rest => envStep e (s.setSchedule rest)

/-- The instruction numbered as the opcode table numbers it, stored where the very next step fetches, with what that
fetch needs (log entries 19, 20). -/
def State.withFetchWord (s : State) (nbits w : Nat) : State :=
  placeCode (tableBytes nbits w) (readyToFetch (tableBytes nbits w) s) s.pc.toNat

end Sys2Proof.Machine
end

