-- ==== Sys2Proof/Machine/MsrFields.lean ====
section
/-! DEFINITION. The named fields of the model-specific registers (rules R26 to R77) as functions of the stored value,
and what the decoded fields say (debug control, clock mode, hardware level, NOP cycles, cache parity). Fields that
no other rule reads are power, pin, timing or test controls (R262 to R267). -/

namespace Sys2Proof.Machine

/-! ### The register of the fragment (R26) -/

def arrayPointer (r : Quad) : Word := r.extractLsb' 32 32
def arrayData (r : Quad) : Word := r.extractLsb' 0 32

/-! ### Register 83h (R27 to R34) -/

/-- DDC: 1 disables the data cache (R29). -/
def ddc (r : Quad) : Bool := r.getLsbD 7
/-- DIC: 1 disables the instruction cache (R30). -/
def dic (r : Quad) : Bool := r.getLsbD 6
/-- DBP: 1 disables branch prediction (R31). -/
def dbp (r : Quad) : Bool := r.getLsbD 5
/-- DC, bits 3-1 (R33). -/
def dcField (r : Quad) : BitVec 3 := r.extractLsb' 1 3
/-- DSPC: 1 disables stopping of CPU clocks in HALT and Stop Grant states (R34, R262). -/
def dspc (r : Quad) : Bool := r.getLsbD 0

/-- The three values of DC; the others are reserved (R33). -/
inductive DebugControl where
  | disabled
  | branchTracing
  | probeModeOnDebugTrap
  | reserved
  deriving DecidableEq, Repr

def debugControl (r : Quad) : DebugControl :=
  if dcField r = 0 then .disabled
  else if dcField r = 1 then .branchTracing
  else if dcField r = 4 then .probeModeOnDebugTrap
  else .reserved

/-! ### Register 1000h (R35 to R57) -/

def lowPowerPLA (r : Quad) : Bool := r.getLsbD 18
def forceExternalReadsBit (r : Quad) : Bool := r.getLsbD 17
/-- 1: the internal cache keeps even parity, else odd (R41, R78). -/
def cacheEvenParity (r : Quad) : Bool := r.getLsbD 16
def fpOperandCacheable (r : Quad) : Bool := r.getLsbD 15
def errorPinIsStrobe (r : Quad) : Bool := r.getLsbD 14
def lowPowerHaltEnable (r : Quad) : Bool := r.getLsbD 13
def waitReadyAfterOutput (r : Quad) : Bool := r.getLsbD 12
def cacheReloadStatus (r : Quad) : Bool := r.getLsbD 11
def cacheEnableInternal (r : Quad) : Bool := r.getLsbD 10
def disableCacheLock (r : Quad) : Bool := r.getLsbD 9
def cacheEnabled (r : Quad) : Bool := r.getLsbD 7
def noCacheDBCS (r : Quad) : Bool := r.getLsbD 6
def enablePWI (r : Quad) : Bool := r.getLsbD 5
def enableFlushSnoop (r : Quad) : Bool := r.getLsbD 4
def enableSnoop (r : Quad) : Bool := r.getLsbD 3
def a20MaskBit (r : Quad) : Bool := r.getLsbD 2
def cacheParityEnable (r : Quad) : Bool := r.getLsbD 1
def cacheParityError (r : Quad) : Bool := r.getLsbD 0

/-! ### Register 1001h (R58 to R62) -/

def extLimit (r : Quad) : Byte := r.extractLsb' 32 8
def romBlocks (r : Quad) : Half := r.extractLsb' 16 16
def cacheableBlocks (r : Quad) : Half := r.extractLsb' 0 16

/-! ### Register 1002h (R64 to R70) -/

def enableExternalDFS (r : Quad) : Bool := r.getLsbD 29
def dfsReady (r : Quad) : Bool := r.getLsbD 28
def dfsRequest (r : Quad) : Bool := r.getLsbD 27
def clockModeField (r : Quad) : BitVec 3 := r.extractLsb' 24 3

/-- The three listed values of ClockMode (R69, R266); 100 is "unconfirmed" in the source. -/
inductive ClockMode where
  | divideBy2
  | noDivide
  | threeToOneUnconfirmed
  | unlisted
  deriving DecidableEq, Repr

def clockMode (r : Quad) : ClockMode :=
  if clockModeField r = 0 then .divideBy2
  else if clockModeField r = 3 then .noDivide
  else if clockModeField r = 4 then .threeToOneUnconfirmed
  else .unlisted

/-! ### Register 1004h (R71 to R77) -/

/-- The two hardware levels of bit 23 (R73). -/
inductive HardwareLevel where
  | dd1
  | dd0
  deriving DecidableEq, Repr

def hardwareLevel (r : Quad) : HardwareLevel := if r.getLsbD 23 then .dd0 else .dd1
def movCr0Decode (r : Quad) : Bool := r.getLsbD 22
def cacheLowPower (r : Quad) : Bool := r.getLsbD 20
def nopCyclesBit (r : Quad) : Bool := r.getLsbD 18

/-- The cycles a NOP takes on the 486BL3 (R77, R267): timing that no rule depends on. -/
def nopCycles (r : Quad) : Nat :=
  match hardwareLevel r, nopCyclesBit r with
  | .dd0, false => 2
  | .dd1, false => 3
  | .dd0, true => 3
  | .dd1, true => 2

/-- A parity error is forced: 1000h bit 16 with bit 7 on a 486SLC part (R41, R212 "certain"). DESIGN CHOICE: where the
presence of Register 1000h is OPEN, the stored bits count (log entry 32, safe). -/
def State.parityErrorCertain (s : State) : Bool :=
  has486SlcBits s.cfg.cpu && msrPresence s.cfg .r1000 != .absent && s.msr.r1000.getLsbD 16 && s.msr.r1000.getLsbD 7

end Sys2Proof.Machine
end

