-- ==== Sys2Proof/Safety.lean ====
section
/-! DEFINITION. What a run is, how it ends (R246), and the launch premises of rule R252, in the terms claims use. A run
ends at the first state whose pc is END_ADDR: no definition here looks past it. -/

namespace Sys2Proof.Safety

open Sys2Proof.Machine

/-- t is reached from s in k steps. -/
def ReachesIn (k : Nat) (s t : State) : Prop := Host.Core.run Sys2Proof.core k s = .next t

/-- pc = END_ADDR at an instruction boundary (R246). -/
def atEnd (s : State) : Bool := s.cfg.endAddr == some s.pc

/-- The run from s has not ended before its k-th step: none of the states before is at END_ADDR. -/
def GoesOn (k : Nat) (s : State) : Prop := ∀ j, j < k → ∀ u, ReachesIn j s u → atEnd u = false

/-- t is a state of the run from s, its end state included. -/
def InRun (s t : State) : Prop := ∃ k, ReachesIn k s t ∧ GoesOn k s

/-- A step of the run from s begins in t. -/
def StepsFrom (s t : State) : Prop := InRun s t ∧ atEnd t = false

/-- The run from s ends normally in t: t is the first state at END_ADDR (R246). -/
def EndsNormally (s t : State) : Prop := InRun s t ∧ atEnd t = true

/-- The run ends Trapped(kind) before it comes to END_ADDR, never a normal end (R206, R246). -/
def EndsTrapped (s : State) (kind : TrapKind) : Prop :=
  ∃ k, Host.Core.run Sys2Proof.core k s = .fault (.trapped kind) ∧ GoesOn k s

/-- The run is refused before it comes to END_ADDR (R246). -/
def EndsRefused (s : State) (r : Refusal) : Prop :=
  ∃ k, Host.Core.run Sys2Proof.core k s = .refused r ∧ GoesOn k s

/-- The schedule holds the event. -/
def scheduled (s : State) (e : Event) : Bool := decide (Turn.env e ∈ s.schedule)

/-- The event occurs in the run from s: a step of it begins in t with the event's turn. -/
def OccursAt (e : Event) (s t : State) : Prop := StepsFrom s t ∧ t.schedule.head? = some (.env e)

/-- NoReset: no HardwareReset during the run. -/
def NoReset (s : State) : Prop := ∀ t, ¬ OccursAt .hardwareReset s t

/-- NoCacheParityError: no such event; not to be taken when 1000h bit 16 = 1 with bit 7 = 1 (R41), an OPEN register's
stored bits counting (log entry 32). -/
def NoCacheParityError (s : State) : Prop :=
  (∀ t, ¬ OccursAt .cacheParityError s t) ∧ ∀ t, InRun s t → t.parityErrorCertain = false

/-- NoOtherBusMaster: no BusWrite. -/
def NoOtherBusMaster (s : State) : Prop := ∀ pa v t, ¬ OccursAt (.busWrite pa v) s t

/-- SnoopCovers: 1000h bit 3 = 1 whenever a BusWrite hits a cacheable address. -/
def SnoopCovers (s : State) : Prop :=
  ∀ a v t pa, OccursAt (.busWrite a v) s t → narrowPhys t.cfg a = .ok pa → t.mayBeCached pa = true →
    t.bit1000 3 = true

/-- RomBitsTruthful: every block whose ROM bit is set is ROM on the platform; that ROM ignores writes is what
`storeByte` and `busStore` do. -/
def RomBitsTruthful (s : State) : Prop :=
  ∀ t, InRun s t → ∀ pa, t.mayBeRomBit pa = true → t.platformRomAt pa = true

/-- NoPwi: the PWI pin is not activated. -/
def NoPwi (s : State) : Prop := ∀ t, ¬ OccursAt .pwiPin s t

/-- NoDfsHardware: no DFSHardwareRequest. -/
def NoDfsHardware (s : State) : Prop := ∀ t, ¬ OccursAt .dfsHardwareRequest s t

/-- The physical addresses of n bytes from a linear address on. -/
def physAddrs (s : State) (lin : Word) (n : Nat) : List Nat :=
  (List.range n).filterMap fun k => (physAddr s (lin + BitVec.ofNat 32 k)).toOption

/-- The bytes an instruction writes or is refused for writing: XBTS's memory operand, where its XbtsFn writes it. -/
def instrWrites (s : State) : Instr → List Nat
  | .xbts w _ reg rm =>
    match rmPlace s rm, readPlace s w (rmPlace s rm) with
    | .mem ea, .ok (mOld, s1) =>
      match xbtsFn s.cfg w (readReg s w reg) mOld (s.reg .eax) s.cl s1.free with
      | .ok (_, some _) => physAddrs s ea (opBytes w)
      | .ok (_, none) => []
      | .error _ => []
    | .mem _, .error _ => []
    | .reg _, _ => []
  | .cmpxchg _ => []
  | .rdmsr => []
  | .wrmsr => []
  | .movR32Imm32 _ _ => []

/-- The bytes the core's next step writes or is refused for writing. -/
def coreWrites (s : State) : List Nat :=
  if s.nmiPending then []
  else
    match fetchInstr s with
    | .run i s' => instrWrites s' i
    | .stop _ => []

/-- The bytes the step from t writes or is refused for writing, whichever agent moves. -/
def turnWrites (t : State) : List Nat :=
  match t.schedule with
  | .env (.busWrite a _) :: _ => (narrowPhys t.cfg a).toOption.toList
  | .env _ :: _ => []
  | .core :: _ => coreWrites t
  | [] => coreWrites t

/-- CodeNotWritten: no write of the run touches a byte of the program text, given by its physical addresses; a write
refused CodeModified (R96) counts. -/
def CodeNotWritten (text : List Nat) (s : State) : Prop :=
  ∀ t, StepsFrom s t → ∀ a ∈ turnWrites t, a ∉ text

/-- NoExternalInterrupt holds of every run of this model: there is no event for another NMI cause or a maskable
interrupt (R204). -/
def NoExternalInterrupt (_s : State) : Prop := True

end Sys2Proof.Safety
end

