-- ==== Sys2Proof/Certificates/Slice0/Obligations.lean ====
section
/-! DEFINITION. The statements for the provers, from the numbered rules of spec/. -/

namespace Sys2Proof.Claim

open Sys2Proof.Machine

/-! ### The words the statements share -/

/-- The outcome is a next state. -/
abbrev Next (o : Host.Outcome State Fault Refusal) (t : State) : Prop := o = .next t

/-- Every general register outside the list reads as before. -/
def OtherRegsSame (ds : List Reg) (s t : State) : Prop := ∀ r, r ∉ ds → t.reg r = s.reg r

/-- Every byte of physical memory reads as before. -/
def MemorySame (s t : State) : Prop := ∀ a, t.memByte a = s.memByte a

/-- The configuration, CR0, the hidden Booleans, the clock state, hidden memory, the record of fetched bytes and
the schedule are unchanged. -/
def SystemSame (s t : State) : Prop :=
  t.cfg = s.cfg ∧ t.cr0 = s.cr0 ∧ t.nmiPending = s.nmiPending ∧ t.hwDfsRequest = s.hwDfsRequest ∧
    t.clock = s.clock ∧ t.hidden = s.hidden ∧ t.fetched = s.fetched ∧ t.schedule = s.schedule ∧
    t.launch = s.launch

/-- Every mark a byte can carry is unchanged: written in the run (R96), stale by a bus master's write (R92) or under a ROM
bit (R93), or read as a draw after a parity error (R90). -/
def MarksSame (s t : State) : Prop :=
  t.written = s.written ∧ t.staleBus = s.staleBus ∧ t.staleRom = s.staleRom ∧ t.parityRenewed = s.parityRenewed

/-- One byte is as before: its content, each of its marks, and whether a read of it may be stale. -/
def ByteSame (s t : State) (x : Nat) : Prop :=
  t.memByte x = s.memByte x ∧ (x ∈ t.written ↔ x ∈ s.written) ∧ (x ∈ t.staleBus ↔ x ∈ s.staleBus) ∧
    (x ∈ t.staleRom ↔ x ∈ s.staleRom) ∧ t.parityMayHit x = s.parityMayHit x ∧ t.isStale x = s.isStale x

/-- Every model-specific register and the first-write latch are unchanged. -/
def MsrsSame (s t : State) : Prop := t.msr = s.msr ∧ t.msr1000Written = s.msr1000Written

/-- The status flags CF, PF, AF, ZF, SF, OF are EFLAGS bits 0, 2, 4, 6, 7, 11 (R23). -/
def isStatusFlag (i : Nat) : Bool := i == 0 || i == 2 || i == 4 || i == 6 || i == 7 || i == 11

/-- Every bit of EFLAGS but the six status flags is unchanged. -/
def OtherFlagsSame (s t : State) : Prop := ∀ i, isStatusFlag i = false → t.eflags.getLsbD i = s.eflags.getLsbD i

/-- W. -/
def width : OpSize → Nat
  | .w16 => 16
  | .w32 => 32

/-- The bit offset of XbtsGK: AX for W = 16, EAX for W = 32 (R166). -/
def bitOffset (w : OpSize) (s : State) : Nat :=
  match w with
  | .w16 => (s.reg .eax).toNat % 65536
  | .w32 => (s.reg .eax).toNat

/-- The bit count of XbtsGK: CL (R166). -/
def bitCount (s : State) : Nat := (s.reg .ecx).toNat % 256

/-- XBTS runs as XbtsGK on the 80386 A step. -/
def RunsGK (s : State) : Prop := s.cfg.cpu = .i386A ∧ s.cfg.xbtsFn = .gk

/-- Each of the W/8 bytes from ea on has a physical address. -/
def Readable (s : State) (ea : Word) (w : OpSize) : Prop :=
  ∀ k, k < width w / 8 → ∃ pa, physAddr s (ea + BitVec.ofNat 32 k) = .ok pa

/-- The operand is a register, or its bytes all have a physical address. -/
def OperandReadable (s : State) (w : OpSize) (rm : RmOperand) : Prop :=
  ∀ ea, rmPlace s rm = .mem ea → Readable s ea w

/-- The bits RDMSR takes from the stored register (R144): the fields of class RW, RW-once and HW-status. 1000h bits
18-15 count on the 486SLC and 486SLC2 only (R36); 1002h bit 28 counts while a request is pending (R215). -/
def fixedBit (s : State) : MsrId → Nat → Bool
  | .array, _ => false
  | .r83, i => decide (i ≤ 3) || decide (5 ≤ i ∧ i ≤ 7)
  | .r1000, i =>
    decide (i ≤ 7) || decide (9 ≤ i ∧ i ≤ 14) ||
      (decide (15 ≤ i ∧ i ≤ 18) && decide (s.cfg.cpu = .ibm486SLC ∨ s.cfg.cpu = .ibm486SLC2))
  | .r1001, i => decide (i ≤ 39)
  | .r1002, i =>
    decide (24 ≤ i ∧ i ≤ 27) || i == 29 || (i == 28 && (s.hwDfsRequest || s.msr.r1002.getLsbD 27))
  | .r1004, i => i == 23 || i == 22 || i == 20 || i == 18

/-- The bits of class RW a WRMSR stores as written and a RDMSR gives back (R143, R144). -/
def controlBit (c : Cpu) : MsrId → Nat → Bool
  | .array, _ => false
  | .r83, i => decide (i ≤ 3) || decide (5 ≤ i ∧ i ≤ 7)
  | .r1000, i =>
    decide (1 ≤ i ∧ i ≤ 7) || i == 9 || i == 12 || i == 13 ||
      (decide (15 ≤ i ∧ i ≤ 18) && decide (c = .ibm486SLC ∨ c = .ibm486SLC2))
  | .r1001, i => decide (i ≤ 39)
  | .r1002, i => decide (24 ≤ i ∧ i ≤ 27) || i == 29
  | .r1004, i => i == 23 || i == 22 || i == 20 || i == 18

/-- EDX:EAX (R9). -/
def edxEaxBit (s : State) (i : Nat) : Bool :=
  if i < 32 then (s.reg .eax).getLsbD i else (s.reg .edx).getLsbD (i - 32)

/-- ECX names the register m, the part has it, and CPL = 0: RDMSR and WRMSR go on (R141, R142). -/
def Selects (s : State) (m : MsrId) : Prop :=
  s.cfg.cpl = 0 ∧ msrOfNumber s.cfg (s.reg .ecx) = some m ∧ msrPresence s.cfg m = .present

/-- pc + len does not exceed FFFFFFFFh, nor in 16-bit mode the offset, pc's low 16 bits (log entry 8), FFFFh (R22). -/
def FitsPc (s : State) (len : Nat) : Prop :=
  s.pc.toNat + len ≤ 0xFFFFFFFF ∧ (s.cfg.defaultSize = .w16 → s.pc.toNat % 0x10000 + len ≤ 0xFFFF)

/-- What WRMSR leaves alone, whatever it writes (R142): the marks of the bytes too, since no rule lets a WRMSR end one. -/
def WrmsrFrame (s t : State) : Prop :=
  t.regs = s.regs ∧ t.eflags = s.eflags ∧ t.mem = s.mem ∧ MemorySame s t ∧ SystemSame s t ∧ MarksSame s t ∧
    t.pc.toNat = s.pc.toNat + 2

/-- The other model-specific registers are unchanged. -/
def OtherMsrsSame (m : MsrId) (s t : State) : Prop := ∀ q, q ≠ m → t.msr.get q = s.msr.get q

/-- The effect of the bytes of one instruction at pc: they decode to i with nothing left, lie below the end of the
address space, sit at the physical addresses pas, and none was written in this run. -/
def HoldsAtPc (s : State) (bs : List Byte) (pas : List Nat) (i : Instr) : Prop :=
  decode s.cfg bs = .ok i [] ∧ pas.length = bs.length ∧ s.pc.toNat + bs.length ≤ 2 ^ 32 ∧
    ∀ k pa b, pas[k]? = some pa → bs[k]? = some b →
      physAddr s (s.pc + BitVec.ofNat 32 k) = .ok pa ∧ s.memByte pa = b ∧ pa ∉ s.written

/-- The bytes at pc up to the end of the address space are bs, which begin an instruction that has more bytes. -/
def BrokenOffAtTheEnd (s : State) (bs : List Byte) (pas : List Nat) : Prop :=
  (∃ more i, more ≠ [] ∧ decode s.cfg (bs ++ more) = .ok i []) ∧ pas.length = bs.length ∧
    s.pc.toNat + bs.length = 2 ^ 32 ∧
    ∀ k pa b, pas[k]? = some pa → bs[k]? = some b →
      physAddr s (s.pc + BitVec.ofNat 32 k) = .ok pa ∧ s.memByte pa = b

/-- It is the core's turn: nothing is scheduled before it, and `rest` is what stays scheduled. -/
def CoreTurn (s : State) (rest : List Turn) : Prop :=
  (s.schedule = [] ∧ rest = []) ∨ s.schedule = .core :: rest

/-- How many bits an address the model reaches can have: PHYS_ADDR_BITS, and 24 while that is OPEN, since an address that
needs more is refused (R82; log entry 18). -/
def addressBits : Option PhysAddrBits → Nat
  | some .p24 => 24
  | some .p32 => 32
  | none => 24

/-- The physical address of a BusWrite: its low PHYS_ADDR_BITS bits (log entry 21), where that is OPEN an address both
widths agree on (log entry 18). -/
def BusPlace (s : State) (a : Word) (pa : Nat) : Prop :=
  match s.cfg.physAddrBits with
  | some .p24 => pa = a.toNat % 2 ^ 24
  | some .p32 => pa = a.toNat
  | none => pa = a.toNat ∧ a.toNat < 2 ^ 24

/-- Memory, hidden memory and the address sets are in canonical form, and every listed address is a physical address. -/
def Canonical (s : State) : Prop :=
  Memory.wf s.mem = true ∧ Memory.wf s.hidden = true ∧ addrSetWf s.staleBus = true ∧ addrSetWf s.staleRom = true ∧
    addrSetWf (s.parityRenewed.getD []) = true ∧ addrSetWf s.fetched = true ∧ addrSetWf s.written = true ∧
    (∀ a b, (a, b) ∈ s.mem → a < 2 ^ addressBits s.cfg.physAddrBits) ∧
    ∀ a, a ∈ s.staleBus ++ s.staleRom ++ s.parityRenewed.getD [] ++ s.fetched ++ s.written →
      a < 2 ^ addressBits s.cfg.physAddrBits

/-- No reserved encoding is stored: 83h bits 3-1 (R33) and 1002h bits 26-24 (R69) hold listed values. -/
def EncodingsLegal (s : State) : Prop :=
  debugControl s.msr.r83 ≠ .reserved ∧ clockMode s.msr.r1002 ≠ .unlisted

/-- Bits 63-8 and bit 4 of the value are 0 (R28, R32). -/
def Writes83Zeros (s : State) : Prop := s.reg .edx = 0 ∧ ∀ i, 8 ≤ i ∨ i = 4 → (s.reg .eax).getLsbD i = false

/-- Bits 3-1 of EAX, the value written to 83h's DC (R33). -/
def written3to1 (s : State) : BitVec 3 := (s.reg .eax).extractLsb' 1 3

/-- Bits 26-24 of EAX, the value written to 1002h's ClockMode (R69). -/
def written26to24 (s : State) : BitVec 3 := (s.reg .eax).extractLsb' 24 3

/-- R124's parts for which the bytes 0Fh A6h are no instruction. -/
def lacks0FA6 : List Cpu := [.other, .i486B, .am5x86, .ibm386SLC, .ibm486SLC, .ibm486SLC2, .ibm486BL3]

/-- R125's parts without model-specific registers. -/
def lacksMsrs : List Cpu := [.i386A, .i486A, .i486B, .other]

/-- The numbers of R25's table but the register of the fragment's, as full 32-bit numbers (R148, R151 (a)). -/
def registerNumbers : List (Word × MsrId) :=
  [(0x83, .r83), (0x1000, .r1000), (0x1001, .r1001), (0x1002, .r1002), (0x1004, .r1004)]

/-- Which number names which register, ARRAY_MSR_INDEX being none of the five (R25, R148). -/
def NumbersNameTheRegisters : Prop :=
  ∀ (c : Config) (n : Word), c.arrayMsrIndex ∉ registerNumbers.map Prod.fst →
    (∀ m, (n, m) ∈ registerNumbers → msrOfNumber c n = some m) ∧
    (n = c.arrayMsrIndex → msrOfNumber c n = some .array) ∧
    (n ≠ c.arrayMsrIndex → n ∉ registerNumbers.map Prod.fst → msrOfNumber c n = none)

/-- The cells of R25's table marked yes. -/
def presentCells : List (Cpu × MsrId) :=
  [(.am5x86, .array), (.am5x86, .r83), (.ibm386SLC, .r1000), (.ibm386SLC, .r1001), (.ibm486SLC, .r1000),
    (.ibm486SLC, .r1001), (.ibm486SLC2, .r1002), (.ibm486BL3, .r1004)]

/-- The cells of R25's table marked D36, with the configuration's value. -/
def markedD36 (c : Config) : List (Cpu × MsrId × Option Bool) :=
  [(.ibm486SLC2, .r1000, c.slc2Has1000), (.ibm486SLC2, .r1001, c.slc2Has1001), (.ibm486BL3, .r1000, c.bl3Has1000),
    (.ibm486BL3, .r1001, c.bl3Has1001), (.ibm486BL3, .r1002, c.bl3Has1002)]

/-- A cell's value: fixed by the claim, or OPEN. -/
def cellValue : Option Bool → Presence
  | some true => .present
  | some false => .absent
  | none => .isOpen

/-- MSR_PRESENT(CPU, n), the table of R25: yes, D36 (by default yes on the 486SLC2 and OPEN on the 486BL3), else no. -/
def PresenceFollowsTheTable : Prop :=
  (∀ (c : Config) (m : MsrId),
    ((c.cpu, m) ∈ presentCells → msrPresence c m = .present) ∧
    (∀ v, (c.cpu, m, v) ∈ markedD36 c → msrPresence c m = cellValue v) ∧
    ((c.cpu, m) ∉ presentCells → (∀ v, (c.cpu, m, v) ∉ markedD36 c) → msrPresence c m = .absent)) ∧
  markedD36 Config.atReset =
    [(.ibm486SLC2, .r1000, some true), (.ibm486SLC2, .r1001, some true), (.ibm486BL3, .r1000, none),
      (.ibm486BL3, .r1001, none), (.ibm486BL3, .r1002, none)]

/-- The ROM bit of Register 1001h covers the address (R63), on a part that has or may have the register. -/
def UnderRomBit (s : State) (pa : Nat) : Prop :=
  msrPresence s.cfg .r1001 ≠ .absent ∧ pa < 0x100000 ∧ s.msr.r1001.getLsbD (16 + pa / 0x10000) = true

/-- The events of the parts with Register 1000h (R212). -/
def eventsOf1000 : List Event := [.cacheParityError, .cacheReload, .flushSnoopSignal, .pwiPin]

/-- The prefixes R114 names as not admitted on any instruction. -/
def neverAdmitted : List Byte := [0xF0, 0xF2, 0xF3, 0x26, 0x2E, 0x36, 0x3E, 0x64, 0x65]

/-- R119's table: the registers the rm number adds. -/
def sum16 (s : State) (rm : Fin 8) : Nat :=
  let r (x : Reg) := (s.reg x).toNat % 65536
  match rm with
  | 0 => r .ebx + r .esi
  | 1 => r .ebx + r .edi
  | 2 => r .ebp + r .esi
  | 3 => r .ebp + r .edi
  | 4 => r .esi
  | 5 => r .edi
  | 6 => r .ebp
  | 7 => r .ebx

/-- R116's table. -/
def numbered : Fin 8 → Reg
  | 0 => .eax
  | 1 => .ecx
  | 2 => .edx
  | 3 => .ebx
  | 4 => .esp
  | 5 => .ebp
  | 6 => .esi
  | 7 => .edi

/-- A sign-extended byte as an integer. -/
def signed8 (d : Byte) : Int := if d.toNat < 128 then d.toNat else (d.toNat : Int) - 256

/-- A number modulo 2^32. -/
def mod32 (n : Int) : Word := BitVec.ofInt 32 n

/-- A number modulo 2^16, zero-extended. -/
def mod16 (n : Int) : Word := (BitVec.ofInt 16 n).setWidth 32

end Sys2Proof.Claim

open Sys2Proof Sys2Proof.Machine Sys2Proof.Claim Sys2Proof.Safety

/-! ### Decoding and encoding -/

/-- Decode and encode agree on every well-formed instruction its part has (R110 to R127). -/
def Obligations.DecodeOfEncodeIsTheInstruction : Prop :=
  ∀ (c : Config) (i : Instr) (rest : List Byte), i.wellFormed = true → i.availableOn c = true →
    decode c (encode c i ++ rest) = .ok i rest

/-- What decodes is a well-formed instruction its part has, as long as R121 says; R121 does not name CMPXCHG, whose
length is that of its format in R111 (log entry 10). -/
def Obligations.DecodedInstructionIsWellFormedAndHasItsLength : Prop :=
  ∀ (c : Config) (bs rest : List Byte) (i : Instr), decode c bs = .ok i rest →
    i.wellFormed = true ∧ i.availableOn c = true ∧ bs.length = instrLength c i + rest.length ∧ instrLength c i ≤ 10

/-- The decoder reads no more bytes than the instruction's length (R126). -/
def Obligations.DecoderReadsOnlyTheInstructionsBytes : Prop :=
  ∀ (c : Config) (bs rest other : List Byte) (i : Instr), decode c bs = .ok i rest →
    ∃ own, bs = own ++ rest ∧ decode c (own ++ other) = .ok i other

/-- Words written out from the spec's encodings decode to what V-DEC 1, 2, 9, 13, 14, 15, 17 say. -/
def Obligations.SpelledOutBytesDecode : Prop :=
  let a := { Config.atReset with cpu := Cpu.i386A }
  decode a [0x0F, 0xA6, 0xD3] = .ok (.xbts .w32 .w32 .edx (.reg .ebx)) [] ∧
  decode a [0x66, 0x0F, 0xA6, 0xD3] = .ok (.xbts .w16 .w32 .edx (.reg .ebx)) [] ∧
  decode a [0x0F, 0xA6, 0x94, 0x8B, 0x00, 0x01, 0x00, 0x00] =
    .ok (.xbts .w32 .w32 .edx (.mem32 (.sib .x4 (some .ecx) .ebx (.d32 0x100)))) [] ∧
  decode a [0x66, 0x67, 0x0F, 0xA6, 0x94, 0x8B, 0x00, 0x01, 0x00, 0x00] =
    .ok (.xbts .w16 .w16 .edx (.mem16 (.based .si (.d16 0x8B)))) [0x01, 0x00, 0x00] ∧
  decode Config.atReset [0x0F, 0x32] = .ok .rdmsr [] ∧
  decode Config.atReset [0x0F, 0x30] = .ok .wrmsr [] ∧
  decode Config.atReset [0xB9, 0x83, 0x00, 0x00, 0x00] = .ok (.movR32Imm32 .ecx 0x83) []

/-- Prefixes R114 does not admit: any of the eight kinds on anything, on every CPU; a repeated size prefix; any
size prefix before RDMSR and WRMSR; and before the helper MOV. -/
def Obligations.PrefixesNotAdmittedAreRefused : Prop :=
  ∀ (c : Config) (rest : List Byte),
    (∀ p, p ∈ neverAdmitted → decode c (p :: rest) = .stop .prefixNotAdmitted ∧
      decode c (0x66 :: p :: rest) = .stop .prefixNotAdmitted ∧
      decode c (0x67 :: p :: rest) = .stop .prefixNotAdmitted) ∧
    (∀ p, p = 0x66 ∨ p = 0x67 →
      decode c (p :: p :: rest) = .stop .prefixNotAdmitted ∧
      (∀ q, q = 0x66 ∨ q = 0x67 → ∀ x, x ∈ neverAdmitted ∨ x = 0x66 ∨ x = 0x67 →
        decode c (p :: q :: x :: rest) = .stop .prefixNotAdmitted) ∧
      (∀ b, b = 0x30 ∨ b = 0x32 → decode c (p :: 0x0F :: b :: rest) = .stop .prefixNotAdmitted) ∧
      ∀ b : Byte, 0xB8 ≤ b.toNat → b.toNat ≤ 0xBF → decode c (p :: b :: rest) = .stop .prefixNotAdmitted)

/-- R124's table: the bytes 0Fh A6h on each part. -/
def Obligations.Opcode0FA6DependsOnTheProcessor : Prop :=
  ∀ (c : Config) (modrm : Byte) (rest : List Byte),
    (c.cpu ∈ lacks0FA6 → decode c (0x0F :: 0xA6 :: modrm :: rest) = .invalidOpcode (modrm :: rest)) ∧
    (c.cpu = .i486A → 0xC0 ≤ modrm.toNat →
      decode c (0x0F :: 0xA6 :: modrm :: rest) =
        .ok (.cmpxchg ⟨c.defaultSize, c.defaultSize, Reg.ofBits (modrm.extractLsb' 3 3),
          .reg (Reg.ofBits (modrm.extractLsb' 0 3))⟩) rest) ∧
    (c.cpu = .i486A → decode c (0x0F :: 0xA6 :: modrm :: rest) ≠ .stop .memOperandNotAdmitted) ∧
    (c.cpu = .i386A → 0xC0 ≤ modrm.toNat →
      decode c (0x0F :: 0xA6 :: modrm :: rest) =
        .ok (.xbts c.defaultSize c.defaultSize (Reg.ofBits (modrm.extractLsb' 3 3))
          (.reg (Reg.ofBits (modrm.extractLsb' 0 3)))) rest) ∧
    (c.cpu = .i386A → modrm.toNat < 0xC0 → c.admitMemOperands = false →
      decode c (0x0F :: 0xA6 :: modrm :: rest) = .stop .memOperandNotAdmitted)

/-- RDMSR and WRMSR: an instruction on the parts with model-specific registers, InvalidOpcode on the others (R125). -/
def Obligations.MsrOpcodesExistOnlyWithMsrs : Prop :=
  ∀ (c : Config) (rest : List Byte),
    (c.cpu ∈ lacksMsrs → decode c (0x0F :: 0x32 :: rest) = .invalidOpcode rest ∧
      decode c (0x0F :: 0x30 :: rest) = .invalidOpcode rest) ∧
    (c.cpu ∉ lacksMsrs → decode c (0x0F :: 0x32 :: rest) = .ok .rdmsr rest ∧
      decode c (0x0F :: 0x30 :: rest) = .ok .wrmsr rest)

/-- An opcode without a row is refused, never an exception (R125): a first byte that is neither a prefix, 0Fh nor
B8h to BFh; a second byte after 0Fh other than A6h, 32h, 30h; B8h to BFh when DEFAULT_SIZE is 16 (R190). -/
def Obligations.UnknownOpcodesAreRefused : Prop :=
  ∀ (c : Config) (b : Byte) (rest : List Byte),
    (b ∉ neverAdmitted → b ≠ 0x66 → b ≠ 0x67 → b ≠ 0x0F → b.toNat < 0xB8 ∨ 0xBF < b.toNat →
      decode c (b :: rest) = .stop .unknownOpcode) ∧
    (b ≠ 0xA6 → b ≠ 0x32 → b ≠ 0x30 → decode c (0x0F :: b :: rest) = .stop .unknownOpcode) ∧
    (0xB8 ≤ b.toNat → b.toNat ≤ 0xBF → c.defaultSize = .w16 → decode c (b :: rest) = .stop .unknownOpcode)

/-- R119's table, from the bytes after the opcode: for every rm and mod = 00, 01, 10, the address of the operand. -/
def Obligations.SixteenBitAddressesFollowTheTable : Prop :=
  ∀ (s : State) (rm : Fin 8) (b0 b1 : Byte) (rest : List Byte),
    (rm ≠ 6 → (decodeRm .w16 .m00 (BitVec.ofNat 3 rm.val) rest).map (fun p => (rmPlace s p.1, p.2)) =
      some (.mem (mod16 (sum16 s rm)), rest)) ∧
    (decodeRm .w16 .m00 6 (b0 :: b1 :: rest)).map (fun p => (rmPlace s p.1, p.2)) =
      some (.mem (mod16 (b0.toNat + 256 * b1.toNat)), rest) ∧
    (decodeRm .w16 .m01 (BitVec.ofNat 3 rm.val) (b0 :: rest)).map (fun p => (rmPlace s p.1, p.2)) =
      some (.mem (mod16 (sum16 s rm + signed8 b0)), rest) ∧
    (decodeRm .w16 .m10 (BitVec.ofNat 3 rm.val) (b0 :: b1 :: rest)).map (fun p => (rmPlace s p.1, p.2)) =
      some (.mem (mod16 (sum16 s rm + (b0.toNat + 256 * b1.toNat))), rest)

/-- R118's table, from the bytes after the opcode: the forms without SIB, and the forms with it, where the index is
shifted by the scale, 100 is no index, and base = 101 with mod = 00 is no base. -/
def Obligations.ThirtyTwoBitAddressesFollowTheTable : Prop :=
  ∀ (s : State) (rm sc ix ba : Nat) (b0 b1 b2 b3 : Byte) (rest : List Byte) (hrm : rm < 8) (hix : ix < 8)
    (hba : ba < 8), sc < 4 →
    let reg (n : Fin 8) : Int := (s.reg (numbered n)).toNat
    let d32 : Int := b0.toNat + 256 * b1.toNat + 65536 * b2.toNat + 16777216 * b3.toNat
    let place (m : ModField) (x : Nat) (bs : List Byte) :=
      (decodeRm .w32 m (BitVec.ofNat 3 x) bs).map (fun p => (rmPlace s p.1, p.2))
    let sib : Byte := BitVec.ofNat 8 (64 * sc + 8 * ix + ba)
    let idx : Int := if ix = 4 then 0 else reg ⟨ix, hix⟩ * 2 ^ sc
    (rm ≠ 4 → rm ≠ 5 → place .m00 rm rest = some (.mem (mod32 (reg ⟨rm, hrm⟩)), rest)) ∧
    place .m00 5 (b0 :: b1 :: b2 :: b3 :: rest) = some (.mem (mod32 d32), rest) ∧
    (rm ≠ 4 → place .m01 rm (b0 :: rest) = some (.mem (mod32 (reg ⟨rm, hrm⟩ + signed8 b0)), rest)) ∧
    (rm ≠ 4 → place .m10 rm (b0 :: b1 :: b2 :: b3 :: rest) = some (.mem (mod32 (reg ⟨rm, hrm⟩ + d32)), rest)) ∧
    (ba ≠ 5 → place .m00 4 (sib :: rest) = some (.mem (mod32 (reg ⟨ba, hba⟩ + idx)), rest)) ∧
    (ba = 5 → place .m00 4 (sib :: b0 :: b1 :: b2 :: b3 :: rest) = some (.mem (mod32 (idx + d32)), rest)) ∧
    place .m01 4 (sib :: b0 :: rest) = some (.mem (mod32 (reg ⟨ba, hba⟩ + idx + signed8 b0)), rest) ∧
    place .m10 4 (sib :: b0 :: b1 :: b2 :: b3 :: rest) = some (.mem (mod32 (reg ⟨ba, hba⟩ + idx + d32)), rest)

/-! ### The step -/

/-- On the core's turn without a pending NMI, when the bytes at pc are an instruction's, step is exec of it in the
state whose schedule has moved on and which remembers the bytes as fetched. -/
def Obligations.StepRunsTheDecodedInstruction : Prop :=
  ∀ (s : State) (rest : List Turn) (bs : List Byte) (pas : List Nat) (i : Instr),
    CoreTurn s rest → s.nmiPending = false → HoldsAtPc s bs pas i →
    step s = exec i ((s.setSchedule rest).noteFetched pas)

/-- A pending NMI is taken at the instruction boundary before the next instruction is fetched (R205 (b)), whatever
stands at pc. -/
def Obligations.PendingNmiIsTakenBeforeTheFetch : Prop :=
  ∀ (s : State) (rest : List Turn), CoreTurn s rest → s.nmiPending = true → step s = .fault (.trapped .nmi)

/-- An opcode the part lacks ends the step in Trapped(InvalidOpcode) (R125, R201), unless the bytes were written in
this run: 0Fh A6h on the seven parts without it, 0Fh 30h and 0Fh 32h on the four without model-specific registers. -/
def Obligations.MissingOpcodeTraps : Prop :=
  ∀ (s : State) (rest : List Turn) (p0 p1 : Nat),
    CoreTurn s rest → s.nmiPending = false → s.pc.toNat + 2 ≤ 2 ^ 32 →
    physAddr s s.pc = .ok p0 → physAddr s (s.pc + 1) = .ok p1 → s.memByte p0 = 0x0F →
    (s.cfg.cpu ∈ lacks0FA6 ∧ s.memByte p1 = 0xA6) ∨
      (s.cfg.cpu ∈ lacksMsrs ∧ (s.memByte p1 = 0x30 ∨ s.memByte p1 = 0x32)) →
    p0 ∉ s.written → p1 ∉ s.written →
    step s = .fault (.trapped .invalidOpcode)

/-- Every core step that gives a next state falls through: pc is the old one plus the executed instruction's length, and
neither FFFFFFFFh nor in 16-bit mode the 16-bit offset FFFFh (pc's low 16 bits: log entry 8) is passed. Where it would be
passed, the step of an instruction that completes at another pc is refused PcWrap; so is the fetch of an instruction that
the end of the address space breaks off (R22), also where one of its bytes was written in the run: the model's choice, log
entry 34. -/
def Obligations.PcOnlyFallsThrough : Prop :=
  ∀ (s : State) (rest : List Turn), CoreTurn s rest →
    (∀ t, step s = .next t →
      ∃ i s', fetchInstr (s.setSchedule rest) = .run i s' ∧ t.pc.toNat = s.pc.toNat + instrLength s.cfg i ∧
        FitsPc s (instrLength s.cfg i)) ∧
    (∀ bs pas i p u, s.nmiPending = false → HoldsAtPc s bs pas i → ¬ FitsPc s (instrLength s.cfg i) →
      exec i (((s.setSchedule rest).noteFetched pas).setPc p) = .next u → step s = .refused .pcWrap) ∧
    ∀ bs pas, s.nmiPending = false → BrokenOffAtTheEnd s bs pas → step s = .refused .pcWrap

/-- With paging on, nothing is fetched: the core's step refuses (R84, R86). -/
def Obligations.PagingRefusesTheFetch : Prop :=
  ∀ (s : State) (rest : List Turn), CoreTurn s rest → s.nmiPending = false → s.cr0.getLsbD 31 = true →
    step s = .refused .pagingNotModelled

/-- Where a fetched instruction has a byte written in this run, the step is refused CodeModified (R96), before anything the
instruction itself would do. The model's own choices, which no rule states: that CodeModified comes before the NamedOnly of
a CMPXCHG on the i486A (R185), no order being given (log entry 34, safe); and which writes count, one of an equal value and
one that ROM ignores among them (log entry 16, safe). -/
def Obligations.FetchOfWrittenCodeRefuses : Prop :=
  ∀ (s : State) (rest : List Turn) (bs : List Byte) (pas : List Nat) (i : Instr) (bad : Nat),
    CoreTurn s rest → s.nmiPending = false → decode s.cfg bs = .ok i [] → pas.length = bs.length →
    s.pc.toNat + bs.length ≤ 2 ^ 32 →
    (∀ k pa b, pas[k]? = some pa → bs[k]? = some b →
      physAddr s (s.pc + BitVec.ofNat 32 k) = .ok pa ∧ s.memByte pa = b) →
    bad ∈ pas → bad ∈ s.written → step s = .refused .codeModified

/-! ### XBTS and CMPXCHG -/

/-- XBTS with a register operand under XbtsGK, on every operand the rule admits (R162, R166, R170): the field, the
fill (zero, or bits of a free value the instruction used up), the upper half of a 16-bit destination, and everything else unchanged. -/
def Obligations.XbtsRegisterFormExtractsTheField : Prop :=
  ∀ (s : State) (w a : OpSize) (reg src : Reg),
    RunsGK s → bitOffset w s + bitCount s ≤ width w → FitsPc s (instrLength s.cfg (.xbts w a reg (.reg src))) →
    ∃ t, Next (exec (.xbts w a reg (.reg src)) s) t ∧
      (∀ i, i < bitCount s → (t.reg reg).getLsbD i = (s.reg src).getLsbD (bitOffset w s + i)) ∧
      (s.cfg.xbtsHighFill = .zero → ∀ i, bitCount s ≤ i → i < width w → (t.reg reg).getLsbD i = false) ∧
      (s.cfg.xbtsHighFill = .draw → ∃ n, s.draws ≤ n ∧ n < t.draws ∧
        ∀ i, bitCount s ≤ i → i < width w → (t.reg reg).getLsbD i = (Config.freeWord n).getLsbD (i - bitCount s)) ∧
      (∀ i, width w ≤ i → (t.reg reg).getLsbD i = (s.reg reg).getLsbD i) ∧
      OtherRegsSame [reg] s t ∧ OtherFlagsSame s t ∧ t.mem = s.mem ∧ MemorySame s t ∧ MsrsSame s t ∧ SystemSame s t ∧
      MarksSame s t ∧
      t.pc.toNat = s.pc.toNat + instrLength s.cfg (.xbts w a reg (.reg src))

/-- XBTS with a memory operand under XbtsGK (R162, R166, R170 (j), R171): it completes wherever the operand's bytes
have a physical address; where none of them may be stale in a cache (which bytes may be is the model's choice where the spec
describes no cache or does not settle it: log entry 14), the field is the memory's bits, read
little-endian; memory is not written. -/
def Obligations.XbtsMemoryFormExtractsTheField : Prop :=
  ∀ (s : State) (w a : OpSize) (reg : Reg) (rm : RmOperand) (ea : Word),
    RunsGK s → rmPlace s rm = .mem ea → Readable s ea w → bitOffset w s + bitCount s ≤ width w →
    FitsPc s (instrLength s.cfg (.xbts w a reg rm)) →
    ∃ t, Next (exec (.xbts w a reg rm) s) t ∧
      (∀ pa : Nat → Nat,
        (∀ k, k < width w / 8 → physAddr s (ea + BitVec.ofNat 32 k) = .ok (pa k) ∧ s.isStale (pa k) = false) →
        ∀ i, i < bitCount s →
          (t.reg reg).getLsbD i =
            (s.memByte (pa ((bitOffset w s + i) / 8))).getLsbD ((bitOffset w s + i) % 8)) ∧
      (s.cfg.xbtsHighFill = .zero → ∀ i, bitCount s ≤ i → i < width w → (t.reg reg).getLsbD i = false) ∧
      (s.cfg.xbtsHighFill = .draw → ∃ n, s.draws ≤ n ∧ n < t.draws ∧
        ∀ i, bitCount s ≤ i → i < width w → (t.reg reg).getLsbD i = (Config.freeWord n).getLsbD (i - bitCount s)) ∧
      (∀ i, width w ≤ i → (t.reg reg).getLsbD i = (s.reg reg).getLsbD i) ∧
      OtherRegsSame [reg] s t ∧ OtherFlagsSame s t ∧ t.mem = s.mem ∧ MemorySame s t ∧ MsrsSame s t ∧ SystemSame s t ∧
      MarksSame s t ∧
      t.pc.toNat = s.pc.toNat + instrLength s.cfg (.xbts w a reg rm)

/-- A string that would run past the operand is refused by name (R166, R170 (d)), in every readable form. -/
def Obligations.XbtsPastTheOperandIsRefused : Prop :=
  ∀ (s : State) (w a : OpSize) (reg : Reg) (rm : RmOperand),
    RunsGK s → OperandReadable s w rm → width w < bitOffset w s + bitCount s →
    exec (.xbts w a reg rm) s = .refused .xbtsOutOfOperand

/-- XbtsLiteral refuses on every input (R167). -/
def Obligations.XbtsLiteralRefusesEveryInput : Prop :=
  ∀ (s : State) (w a : OpSize) (reg : Reg) (rm : RmOperand),
    s.cfg.cpu = .i386A → s.cfg.xbtsFn = .literal → OperandReadable s w rm →
    exec (.xbts w a reg rm) s = .refused .xbtsSemanticsUnknown

/-- A memory operand with paging on is refused (R162, R84). -/
def Obligations.XbtsMemoryOperandWithPagingIsRefused : Prop :=
  ∀ (s : State) (w a : OpSize) (reg : Reg) (rm : RmOperand) (ea : Word),
    s.cfg.cpu = .i386A → rmPlace s rm = .mem ea → s.cr0.getLsbD 31 = true →
    exec (.xbts w a reg rm) s = .refused .pagingNotModelled

/-- XBTS on every part but the 80386 A step does what R124 says of its opcode. -/
def Obligations.XbtsExistsOnlyOnTheAStep : Prop :=
  ∀ (s : State) (w a : OpSize) (reg : Reg) (rm : RmOperand),
    (s.cfg.cpu ∈ lacks0FA6 → exec (.xbts w a reg rm) s = .fault (.trapped .invalidOpcode)) ∧
    (s.cfg.cpu = .i486A → exec (.xbts w a reg rm) s = .refused (.namedOnly "CMPXCHG"))

/-- Under every instance of XbtsFn the six status flags after XBTS are one free value's bits, and no other bit of
EFLAGS changes (R168). -/
def Obligations.XbtsLeavesTheStatusFlagsFree : Prop :=
  ∀ (s t : State) (w a : OpSize) (reg : Reg) (rm : RmOperand), exec (.xbts w a reg rm) s = .next t →
    (∃ n, s.draws ≤ n ∧ n < t.draws ∧
      ∀ i, isStatusFlag i = true → t.eflags.getLsbD i = (Config.freeWord n).getLsbD i) ∧ OtherFlagsSame s t

/-- The frame of XBTS under every instance of XbtsFn (R162): only the two register operands, the bytes of the memory
operand with their marks, the status flags, pc and the count of free values may change. -/
def Obligations.XbtsFrame : Prop :=
  ∀ (s t : State) (w a : OpSize) (reg : Reg) (rm : RmOperand), exec (.xbts w a reg rm) s = .next t →
    (∀ r, r ≠ reg → rmPlace s rm ≠ .reg r → t.reg r = s.reg r) ∧
    (∀ x, (∀ ea k, rmPlace s rm = .mem ea → k < width w / 8 → physAddr s (ea + BitVec.ofNat 32 k) ≠ .ok x) →
      ByteSame s t x) ∧
    (∀ q, rmPlace s rm = .reg q → MemorySame s t ∧ MarksSame s t) ∧
    OtherFlagsSame s t ∧ MsrsSame s t ∧ SystemSame s t

/-- CMPXCHG on the first 80486 is refused by name, in every form; it is recognised from exactly the bytes that are XBTS
on the 80386 A step with memory operands admitted (R111, R180, R185). -/
def Obligations.CmpxchgIsRefusedByName : Prop :=
  ∀ (s : State) (f : RmForm), s.cfg.cpu = .i486A →
    exec (.cmpxchg f) s = .refused (.namedOnly "CMPXCHG") ∧
      ∀ bs rest, decode s.cfg bs = .ok (.cmpxchg f) rest ↔
        decode { s.cfg with cpu := .i386A, admitMemOperands := true } bs = .ok (.xbts f.w f.a f.reg f.rm) rest

/-! ### MOV r32, imm32 -/

/-- The helper (R190): B8h + r and four bytes low byte first, x[r] <- imm32, pc <- pc + 5, nothing else, for every r;
no row with DEFAULT_SIZE = 16; no prefix. -/
def Obligations.MovLoadsTheImmediate : Prop :=
  ∀ (s : State) (n : Fin 8) (b0 b1 b2 b3 : Byte) (rest : List Byte),
    (s.cfg.defaultSize = .w16 →
      decode s.cfg (BitVec.ofNat 8 (0xB8 + n.val) :: b0 :: b1 :: b2 :: b3 :: rest) = .stop .unknownOpcode) ∧
    (∀ p, p ∈ 0x66 :: 0x67 :: neverAdmitted →
      decode s.cfg (p :: BitVec.ofNat 8 (0xB8 + n.val) :: b0 :: b1 :: b2 :: b3 :: rest) = .stop .prefixNotAdmitted) ∧
    (s.cfg.defaultSize = .w32 → FitsPc s 5 →
      ∃ imm : Word, imm.toNat = b0.toNat + 256 * b1.toNat + 65536 * b2.toNat + 16777216 * b3.toNat ∧
        decode s.cfg (BitVec.ofNat 8 (0xB8 + n.val) :: b0 :: b1 :: b2 :: b3 :: rest) =
          .ok (.movR32Imm32 (numbered n) imm) rest ∧
        ∃ t, Next (exec (.movR32Imm32 (numbered n) imm) s) t ∧
          t.reg (numbered n) = imm ∧ OtherRegsSame [numbered n] s t ∧ t.eflags = s.eflags ∧ t.mem = s.mem ∧
          MemorySame s t ∧ MsrsSame s t ∧ SystemSame s t ∧ MarksSame s t ∧ t.draws = s.draws ∧
          t.pc.toNat = s.pc.toNat + 5)

/-! ### RDMSR and WRMSR -/

/-- RDMSR of a present register at CPL 0 completes (R141, R144): EDX:EAX holds the stored value in every bit of a
control or status field; ECX and everything else is unchanged, the marks of the bytes among it, but for pc and the one
free value used. -/
def Obligations.RdmsrReturnsTheStoredFields : Prop :=
  ∀ (s : State) (m : MsrId), Selects s m → FitsPc s 2 →
    ∃ t, Next (exec .rdmsr s) t ∧
      (∀ i, i < 64 → fixedBit s m i = true → edxEaxBit t i = (s.msr.get m).getLsbD i) ∧
      OtherRegsSame [.eax, .edx] s t ∧ t.eflags = s.eflags ∧ t.mem = s.mem ∧ MemorySame s t ∧ MsrsSame s t ∧
      SystemSame s t ∧ MarksSame s t ∧ t.draws = s.draws + 1 ∧ t.pc.toNat = s.pc.toNat + 2

/-- The other bits RDMSR returns are those of a free value used by no other read (R144). -/
def Obligations.RdmsrDrawsTheReservedBits : Prop :=
  ∀ (s t : State) (m : MsrId), Selects s m → exec .rdmsr s = .next t →
    t.draws = s.draws + 1 ∧
      ∀ i, i < 64 → fixedBit s m i = false → edxEaxBit t i = (Config.freeWord s.draws).getLsbD i

/-- What is stored in reserved bits cannot be learnt: RDMSR in two states whose model-specific registers agree in
every control and status bit gives the same registers. -/
def Obligations.RdmsrDoesNotRevealReservedBits : Prop :=
  ∀ (s t : State) (f : MsrFile),
    (∀ m i, i < 64 → fixedBit s m i = true → (f.get m).getLsbD i = (s.msr.get m).getLsbD i) →
    exec .rdmsr s = .next t → exec .rdmsr (s.setMsr f) = .next (t.setMsr f)

/-- The number in ECX as a full 32-bit number, the presence table (R25, R148), and the checks of RDMSR and WRMSR in their
order (R145, R147): without model-specific registers InvalidOpcode, at any
CPL; else CPL other than 0, GeneralProtection(0); else an absent register, GeneralProtection(0); else an OPEN cell,
refused. -/
def Obligations.MsrAccessChecks : Prop :=
  NumbersNameTheRegisters ∧ PresenceFollowsTheTable ∧
  ∀ (s : State) (i : Instr), i = .rdmsr ∨ i = .wrmsr →
    (s.cfg.cpu ∈ lacksMsrs → exec i s = .fault (.trapped .invalidOpcode)) ∧
    (s.cfg.cpu ∉ lacksMsrs → s.cfg.cpl ≠ 0 → exec i s = .fault (.trapped .generalProtection)) ∧
    (s.cfg.cpu ∉ lacksMsrs → s.cfg.cpl = 0 →
      (∀ m, msrOfNumber s.cfg (s.reg .ecx) = some m → msrPresence s.cfg m = .absent) →
      exec i s = .fault (.trapped .generalProtection)) ∧
    (s.cfg.cpu ∉ lacksMsrs → s.cfg.cpl = 0 →
      (∃ m, msrOfNumber s.cfg (s.reg .ecx) = some m ∧ msrPresence s.cfg m = .isOpen) →
      exec i s = .refused .msrPresenceOpen)

/-- WRMSR 83h with zeros in the reserved bits and a listed DC value stores the fields (R28 to R34, R143). -/
def Obligations.Wrmsr83StoresTheFields : Prop :=
  ∀ (s : State), Selects s .r83 → FitsPc s 2 → Writes83Zeros s →
    written3to1 s = 0 ∨ written3to1 s = 1 ∨ written3to1 s = 4 →
    ∃ t, Next (exec .wrmsr s) t ∧
      (∀ i, i < 8 → i ≠ 4 → t.msr.r83.getLsbD i = (s.reg .eax).getLsbD i) ∧
      OtherMsrsSame .r83 s t ∧ t.msr1000Written = s.msr1000Written ∧ WrmsrFrame s t

/-- WRMSR 83h with a reserved bit set is refused, and so is a reserved DC value (R28, R32, R33). -/
def Obligations.Wrmsr83RefusesReservedWrites : Prop :=
  ∀ (s : State), Selects s .r83 →
    (¬ Writes83Zeros s → exec .wrmsr s = .refused .reservedBitsWritten) ∧
    (Writes83Zeros s → written3to1 s ≠ 0 → written3to1 s ≠ 1 → written3to1 s ≠ 4 →
      exec .wrmsr s = .refused .reservedEncodingWritten)

/-- WRMSR 1000h always completes (R36, R37, R46, R57, R143): the control bits are stored, bits 18-15 only on the
486SLC parts; bits 14 and 10 only on the first write; bits 11 and 0 written 0 become 0; the latch is used up. -/
def Obligations.Wrmsr1000StoresTheFields : Prop :=
  ∀ (s : State), Selects s .r1000 → FitsPc s 2 →
    ∃ t, Next (exec .wrmsr s) t ∧
      (∀ i, i < 64 → controlBit s.cfg.cpu .r1000 i = true → t.msr.r1000.getLsbD i = edxEaxBit s i) ∧
      (∀ i, i = 14 ∨ i = 10 →
        t.msr.r1000.getLsbD i = if s.msr1000Written then s.msr.r1000.getLsbD i else (s.reg .eax).getLsbD i) ∧
      (∀ i, i = 11 ∨ i = 0 → (s.reg .eax).getLsbD i = false → t.msr.r1000.getLsbD i = false) ∧
      t.msr1000Written = true ∧ OtherMsrsSame .r1000 s t ∧ WrmsrFrame s t

/-- A 1 written to 1000h bit 11 or bit 0 leaves a free bit there (R46, R57, D14). -/
def Obligations.Wrmsr1000WrittenOneLeavesAFreeStatusBit : Prop :=
  ∀ (s t : State), Selects s .r1000 → exec .wrmsr s = .next t →
    ∃ n, s.draws ≤ n ∧ n < t.draws ∧
      ∀ i, i = 11 ∨ i = 0 → (s.reg .eax).getLsbD i = true →
        t.msr.r1000.getLsbD i = (Config.freeWord n).getLsbD i

/-- WRMSR 1001h always completes and stores bits 39-0 (R58 to R62, R143, R151 (d)). -/
def Obligations.Wrmsr1001StoresTheFields : Prop :=
  ∀ (s : State), Selects s .r1001 → FitsPc s 2 →
    ∃ t, Next (exec .wrmsr s) t ∧
      (∀ i, i < 40 → t.msr.r1001.getLsbD i = edxEaxBit s i) ∧
      OtherMsrsSame .r1001 s t ∧ t.msr1000Written = s.msr1000Written ∧ WrmsrFrame s t

/-- WRMSR 1002h with a listed ClockMode stores bits 29, 27, 26-24; bit 28 keeps its value, whatever is written (R65 to
R69, R143, R151 (f)); an unlisted ClockMode is refused (R69). -/
def Obligations.Wrmsr1002StoresTheFields : Prop :=
  ∀ (s : State), Selects s .r1002 → FitsPc s 2 →
    (written26to24 s = 0 ∨ written26to24 s = 3 ∨ written26to24 s = 4 →
      ∃ t, Next (exec .wrmsr s) t ∧
        (∀ i, controlBit s.cfg.cpu .r1002 i = true → t.msr.r1002.getLsbD i = (s.reg .eax).getLsbD i) ∧
        t.msr.r1002.getLsbD 28 = s.msr.r1002.getLsbD 28 ∧
        OtherMsrsSame .r1002 s t ∧ t.msr1000Written = s.msr1000Written ∧ WrmsrFrame s t) ∧
    (written26to24 s ≠ 0 → written26to24 s ≠ 3 → written26to24 s ≠ 4 →
      exec .wrmsr s = .refused .reservedEncodingWritten)

/-- WRMSR 1004h always completes and stores bits 23, 22, 20, 18 (R72 to R77, R143). -/
def Obligations.Wrmsr1004StoresTheFields : Prop :=
  ∀ (s : State), Selects s .r1004 → FitsPc s 2 →
    ∃ t, Next (exec .wrmsr s) t ∧
      (∀ i, controlBit s.cfg.cpu .r1004 i = true → t.msr.r1004.getLsbD i = (s.reg .eax).getLsbD i) ∧
      OtherMsrsSame .r1004 s t ∧ t.msr1000Written = s.msr1000Written ∧ WrmsrFrame s t

/-- WRMSR of the register of the fragment is refused (R26). -/
def Obligations.WrmsrOfTheArrayRegisterIsRefused : Prop :=
  ∀ (s : State), Selects s .array → exec .wrmsr s = .refused .arrayRegisterWrite

/-- What WRMSR stored in a control field, RDMSR of the same register gives back (R15, R144, D13). -/
def Obligations.RdmsrReadsBackWhatWrmsrStored : Prop :=
  ∀ (s t u : State) (m : MsrId), Selects s m → exec .wrmsr s = .next t → exec .rdmsr t = .next u →
    ∀ i, i < 64 → controlBit s.cfg.cpu m i = true → edxEaxBit u i = edxEaxBit s i

/-- Once Register 1000h has been written, its bits 14 and 10 never change, over any number of steps of either agent,
until a hardware reset (R37, R254). -/
def Obligations.LatchedBitsNeverChangeWithoutReset : Prop :=
  ∀ (k : Nat) (s t : State), scheduled s .hardwareReset = false → s.msr1000Written = true → ReachesIn k s t →
    t.msr1000Written = true ∧ t.msr.r1000.getLsbD 14 = s.msr.r1000.getLsbD 14 ∧
      t.msr.r1000.getLsbD 10 = s.msr.r1000.getLsbD 10

/-- At CPL other than 0 no step of the core changes a model-specific register or the latch, or completes an access to
one (R145). -/
def Obligations.UnprivilegedCodeCannotReachTheMsrs : Prop :=
  ∀ (s t : State) (rest : List Turn), CoreTurn s rest → s.cfg.cpl ≠ 0 → step s = .next t →
    MsrsSame s t ∧ ∀ s', fetchInstr (s.setSchedule rest) ≠ .run .rdmsr s' ∧ fetchInstr (s.setSchedule rest) ≠ .run .wrmsr s'

/-- On the core's turn only WRMSR changes a model-specific register or the latch (R140 (f)), and only the register ECX
names; the environment's events are other steps. -/
def Obligations.NoInstructionButWrmsrChangesTheMsrs : Prop :=
  ∀ (s t : State) (rest : List Turn), CoreTurn s rest → step s = .next t → ¬ MsrsSame s t →
    (∃ s', fetchInstr (s.setSchedule rest) = .run .wrmsr s') ∧
      ∃ m, msrOfNumber s.cfg (s.reg .ecx) = some m ∧ OtherMsrsSame m s t

/-- Every step but HardwareReset keeps CR0 and hidden memory (R24, R99); every step, HardwareReset included, keeps the
configuration, which R8 and R211 fix for the run, and the clock state (R78). That HardwareReset keeps these two is this
model's choice, log entry 17; that nothing changes the clock state is log entry 22. -/
def Obligations.StepsKeepCr0HiddenMemoryConfigurationAndClock : Prop :=
  ∀ (s t : State), step s = .next t →
    t.cfg = s.cfg ∧ t.clock = s.clock ∧
      (s.schedule.head? ≠ some (.env .hardwareReset) → t.cr0 = s.cr0 ∧ t.hidden = s.hidden ∧ t.launch = s.launch)

/-! ### Memory -/

/-- The address path (R82, R84), with EXT_A20_MASK and PHYS_ADDR_BITS named: refused with paging; bit 20 cleared when
Register 1000h bit 2 is 1 on a part that has the register, or the external mask is on; the low PHYS_ADDR_BITS bits. -/
def Obligations.AddressPath : Prop :=
  ∀ (s : State) (lin : Word),
    (s.cr0.getLsbD 31 = true → physAddr s lin = .error .pagingNotModelled) ∧
    ∀ (m : Bool) (p : PhysAddrBits), s.cfg.extA20Mask = some m → s.cfg.physAddrBits = some p →
      s.cr0.getLsbD 31 = false → msrPresence s.cfg .r1000 ≠ .isOpen →
      physAddr s lin = .ok
        ((if (msrPresence s.cfg .r1000 = .present ∧ s.msr.r1000.getLsbD 2 = true) ∨ m = true then
            lin.toNat - (if lin.toNat / 2 ^ 20 % 2 = 1 then 2 ^ 20 else 0)
          else lin.toNat) % 2 ^ addressBits (some p))

/-- Where MSR_PRESENT(CPU, 1000h), EXT_A20_MASK or PHYS_ADDR_BITS is OPEN, an address is refused only if the unknown value
would decide it: bit 20 set and not known to be masked, while the internal mask bit is set and the cell OPEN, or the
external mask is OPEN; more than 24 bits with the width OPEN. Any other address goes the path (R8, R84). That the model
refuses these addresses alone is its choice (log entry 18). A read of hidden memory whose presence is OPEN is refused. -/
def Obligations.OpenParametersStopOnlyAddressesTheyDecide : Prop :=
  ∀ (s : State) (lin : Word),
    (s.cfg.hiddenMemSupported = none → ∀ a, s.hiddenByte a = .error (.parameterOpen .hiddenMemSupported)) ∧
    (s.cr0.getLsbD 31 = false →
      let bit20 := lin.toNat / 2 ^ 20 % 2 = 1
      let masked := (msrPresence s.cfg .r1000 = .present ∧ s.msr.r1000.getLsbD 2 = true) ∨ s.cfg.extA20Mask = some true
      let cellDecides := msrPresence s.cfg .r1000 = .isOpen ∧ s.msr.r1000.getLsbD 2 = true
      (bit20 → ¬ masked → cellDecides → physAddr s lin = .error .msrPresenceOpen) ∧
      (bit20 → ¬ masked → ¬ cellDecides → s.cfg.extA20Mask = none →
        physAddr s lin = .error (.parameterOpen .extA20Mask)) ∧
      ∀ low, (bit20 ∧ masked ∧ low + 2 ^ 20 = lin.toNat) ∨ (¬ bit20 ∧ low = lin.toNat) ∨
          (bit20 ∧ ¬ masked ∧ ¬ cellDecides ∧ s.cfg.extA20Mask = some false ∧ low = lin.toNat) →
        (s.cfg.physAddrBits = none →
          (low < 2 ^ 24 → physAddr s lin = .ok low) ∧
          (2 ^ 24 ≤ low → physAddr s lin = .error (.parameterOpen .physAddrBits))) ∧
        ∀ p, s.cfg.physAddrBits = some p → physAddr s lin = .ok (low % 2 ^ addressBits (some p)))

/-- With A20 masked, an address in an odd megabyte reaches the byte one megabyte lower (R85). -/
def Obligations.MaskedA20WrapsAtOneMegabyte : Prop :=
  ∀ (s : State) (lin : Word) (pa : Nat), s.a20Masked = true → lin.toNat / 2 ^ 20 % 2 = 1 → physAddr s lin = .ok pa →
    physAddr s (lin - 0x100000) = .ok pa

/-- MemWrite, at every alignment. A byte fetched as code refuses it, else it completes where every byte has a physical
address (R96). Each byte (low byte first at rising addresses, R80, R87) is stored where the platform has RAM, and marked
as written (in ROM too: log entry 16); ROM on the platform keeps its byte. The next read of a byte in RAM gives it, but
under a set ROM bit, or after an earlier write under one that nothing but a flush or a snoop ends, a free value while the
byte may be cached and reads are not forced to memory (R91, R93; log entry 30, DEDUCED). Every other byte reads as before.
MemRead gives the value back where each byte is RAM under no ROM bit and not stale by R93. The model's own choices, which
no rule states: a write that ROM ignores under its ROM bit leaves the byte's staleness as it was, where R92 says "until the
core writes" it (log entry 27); a write with the ROM bit clear is read back also where a parity error had made the byte's
reads free (log entry 33); ROM under a clear ROM bit keeps its byte, and where the platform has ROM is a configuration
field (log entry 15); a part whose Register 1001h is OPEN counts as having it, what may or may not be cached as cached, and
a part without a described cache as having none (log entry 14). -/
def Obligations.MemReadAfterMemWrite : Prop :=
  ∀ (s : State) (lin v : Word) (n : Nat), n = 1 ∨ n = 2 ∨ n = 4 →
    let place (k : Nat) := physAddr s (lin + BitVec.ofNat 32 k)
    let byte (k : Nat) : Byte := (v >>> (8 * k)).setWidth 8
    ((∀ k, k < n → ∃ pa, place k = .ok pa) → (∃ k pa, k < n ∧ place k = .ok pa ∧ pa ∈ s.fetched) →
      memWrite s lin n v = .error .codeModified) ∧
    ((∀ k, k < n → ∃ pa, place k = .ok pa ∧ pa ∉ s.fetched) → ∃ t, memWrite s lin n v = .ok t) ∧
    ∀ t, memWrite s lin n v = .ok t →
      (∀ k pa, k < n → place k = .ok pa →
        pa ∈ t.written ∧
        (s.platformRomAt pa = true → t.memByte pa = s.memByte pa ∧
          (msrPresence s.cfg .r1001 = .present → UnderRomBit s pa → t.isStale pa = s.isStale pa)) ∧
        (s.platformRomAt pa = false → t.memByte pa = byte k ∧
          (¬ UnderRomBit s pa → pa ∉ s.staleRom → readByte t pa = (byte k, t)) ∧
          (UnderRomBit s pa ∨ pa ∈ s.staleRom → s.mayBeCached pa = true → s.forceExternalReads = false →
            readByte t pa = ((Config.freeWord t.draws).setWidth 8, t.tick)) ∧
          (s.mayBeCached pa = false ∨ s.forceExternalReads = true → readByte t pa = (byte k, t)))) ∧
      (∀ x, (∀ k, k < n → place k ≠ .ok x) →
        ByteSame s t x) ∧
      ((∀ k pa, k < n → place k = .ok pa → s.platformRomAt pa = false ∧ ¬ UnderRomBit s pa ∧ pa ∉ s.staleRom) →
        memRead t lin n = .ok (BitVec.ofNat 32 (v.toNat % 2 ^ (8 * n)), t))

/-- The cacheability function and IsRom (R47, R51, R63), on a part with Register 1000h. The model's own: the area of bit 6
is not cacheable with bit 10 = 0 too (log entry 31), and where bits 10 and 7 are 1 and the part is not known to have
Register 1001h, an address outside the area is not known to be either (log entry 14). -/
def Obligations.CacheabilityFunction : Prop :=
  ∀ (s : State) (pa : Nat), hasMsr s.cfg .r1000 = true →
    (s.msr.r1000.getLsbD 6 = true → 0xE0000 ≤ pa → pa ≤ 0xE0FFF → s.cacheable pa = some false) ∧
    (s.msr.r1000.getLsbD 10 = false → ¬ (s.msr.r1000.getLsbD 6 = true ∧ 0xE0000 ≤ pa ∧ pa ≤ 0xE0FFF) →
      s.cacheable pa = none) ∧
    (s.msr.r1000.getLsbD 10 = true → s.msr.r1000.getLsbD 7 = false → s.cacheable pa = some false) ∧
    (s.msr.r1000.getLsbD 10 = true → s.msr.r1000.getLsbD 7 = true → hasMsr s.cfg .r1001 = true → pa < 0x100000 →
      s.cacheable pa =
        some (decide (¬ (s.msr.r1000.getLsbD 6 = true ∧ 0xE0000 ≤ pa ∧ pa ≤ 0xE0FFF) ∧
          s.msr.r1001.getLsbD (pa / 65536) = true))) ∧
    (s.msr.r1000.getLsbD 10 = true → s.msr.r1000.getLsbD 7 = true → hasMsr s.cfg .r1001 = true → 0x100000 ≤ pa →
      s.cacheable pa =
        some (decide (pa < 0x100000 + s.msr.r1001.toNat / 2 ^ 32 % 256 * s.cfg.extLimitUnit))) ∧
    (s.msr.r1000.getLsbD 10 = true → s.msr.r1000.getLsbD 7 = true → hasMsr s.cfg .r1001 = false →
      ¬ (s.msr.r1000.getLsbD 6 = true ∧ 0xE0000 ≤ pa ∧ pa ≤ 0xE0FFF) → s.cacheable pa = none) ∧
    (hasMsr s.cfg .r1001 = true →
      s.romBit pa = decide (pa < 0x100000 ∧ s.msr.r1001.getLsbD (16 + pa / 65536) = true))

/-- Every step of either agent keeps memory, hidden memory and the address sets in canonical form, with every listed
address a physical address. -/
def Obligations.StepKeepsTheCanonicalForm : Prop :=
  ∀ (s t : State), Canonical s → step s = .next t → Canonical t

/-- The state after reset is in canonical form. -/
def Obligations.ResetIsCanonical : Prop := Canonical State.reset

/-- No step but HardwareReset stores a reserved encoding in 83h bits 3-1 or 1002h bits 26-24 (R33, R69). -/
def Obligations.ReservedEncodingsAreNeverStored : Prop :=
  ∀ (s t : State), EncodingsLegal s → s.schedule.head? ≠ some (.env .hardwareReset) → step s = .next t →
    EncodingsLegal t

/-! ### The environment -/

/-- BusWrite (R216, R92, R91): M[pa] <- v, but ROM on the platform keeps its byte (R252; log entry 21), and no other byte
changes; pa and no other byte is marked as written (R96; in ROM too: log entries 16, 21). With snooping (1000h bit 3) or
forced external reads (bit 17 on the 486SLC parts) the core's next read of pa gives M[pa], else, where pa may be cached, a
free value; where pa is not cacheable and no earlier BusWrite left it stale, M[pa]. A byte fetched as code is refused (R96).
Every other byte keeps its content and its marks. The model's own choices, which no rule states: the parts i386A, i486A,
i486B and Other, for which the spec describes no cache, have none, so that their next read gives M[pa] (log entry 14,
unsafe there); what may or may not be cached counts as cached (log entry 14, safe); the address is truncated (log entry
21), and refused where an OPEN PHYS_ADDR_BITS decides it (log entry 18); a snooped write ends R93's staleness of the byte
(log entry 30, DEDUCED) and a parity error's effect on it (log entry 33). -/
def Obligations.BusWriteAndTheNextRead : Prop :=
  ∀ (s : State) (a : Word) (v : Byte),
    (s.cfg.physAddrBits = none → 2 ^ 24 ≤ a.toNat →
      envStep (.busWrite a v) s = .refused (.parameterOpen .physAddrBits)) ∧
    ∀ pa, BusPlace s a pa →
      (pa ∈ s.fetched → envStep (.busWrite a v) s = .refused .codeModified) ∧
      (pa ∉ s.fetched →
        ∃ t, envStep (.busWrite a v) s = .next t ∧
          (s.platformRomAt pa = false → t.memByte pa = v) ∧
          (s.platformRomAt pa = true → t.memByte pa = s.memByte pa) ∧
          (∀ x, x ∈ t.written ↔ x = pa ∨ x ∈ s.written) ∧
          (∀ x, x ≠ pa → ByteSame s t x) ∧
          ((s.bit1000 3 = true ∨ s.forceExternalReads = true) → readByte t pa = (t.memByte pa, t)) ∧
          (s.mayBeCached pa = false → pa ∉ s.staleBus → readByte t pa = (t.memByte pa, t)) ∧
          (s.bit1000 3 = false → s.forceExternalReads = false → s.mayBeCached pa = true →
            readByte t pa = ((Config.freeWord t.draws).setWidth 8, t.tick)) ∧
          t.regs = s.regs ∧ t.pc = s.pc ∧ t.eflags = s.eflags ∧ MsrsSame s t ∧ SystemSame s t)

/-- CacheParityError with parity enabled (R56, R213): bit 7 and bit 1 become 0, bit 0 becomes 1, no other bit of 1000h
changes, nothing stays stale, and the next core step takes the NMI. -/
def Obligations.ParityErrorDisablesTheCacheAndRaisesNmi : Prop :=
  ∀ (s : State), hasMsr s.cfg .r1000 = true → s.msr.r1000.getLsbD 1 = true →
    ∃ t, envStep .cacheParityError s = .next t ∧
      t.msr.r1000.getLsbD 7 = false ∧ t.msr.r1000.getLsbD 1 = false ∧ t.msr.r1000.getLsbD 0 = true ∧
      (∀ i, i ≠ 7 → i ≠ 1 → i ≠ 0 → t.msr.r1000.getLsbD i = s.msr.r1000.getLsbD i) ∧
      OtherMsrsSame .r1000 s t ∧ (∀ pa, t.isStale pa = false) ∧ MemorySame s t ∧ t.regs = s.regs ∧
      t.eflags = s.eflags ∧ t.pc = s.pc ∧ t.written = s.written ∧ t.fetched = s.fetched ∧
      ∀ rest, CoreTurn t rest → step t = .fault (.trapped .nmi)

/-- CacheParityError with parity disabled (R57, R90, R213): bit 0 becomes itself or a free bit, no other register and no
byte of memory changes, no NMI becomes pending, and the next read of a byte that may be cached is a free value unless
reads are forced to memory. That every such byte counts as affected is the model's choice (log entry 33, safe). -/
def Obligations.ParityErrorWithParityDisabledSetsTheFlagAndFreesCachedReads : Prop :=
  ∀ (s : State), hasMsr s.cfg .r1000 = true → s.msr.r1000.getLsbD 1 = false →
    ∃ t, envStep .cacheParityError s = .next t ∧
      t.msr.r1000.getLsbD 0 = (s.msr.r1000.getLsbD 0 || (Config.freeWord s.draws).getLsbD 0) ∧
      (∀ i, i ≠ 0 → t.msr.r1000.getLsbD i = s.msr.r1000.getLsbD i) ∧ OtherMsrsSame .r1000 s t ∧
      t = { s with msr := t.msr, parityRenewed := some [], draws := s.draws + 1 } ∧
      ∀ pa,
        (s.mayBeCached pa = true → s.forceExternalReads = false →
          readByte t pa = ((Config.freeWord t.draws).setWidth 8, t.tick)) ∧
        (s.mayBeCached pa = false ∨ s.forceExternalReads = true → t.isStale pa = s.isStale pa)

/-- CacheReload sets 1000h bit 11 and changes nothing else (R46, R214; when the cache is enabled: log entry 28). Where the
cell of Register 1000h is OPEN, the four events of the parts with the register are refused (R212, and the open parameters
of 92_eei_decisions.md); on a part without the register they have no effect (log entry 6). -/
def Obligations.CacheReloadSetsTheStatusBit : Prop :=
  ∀ (s : State),
    (hasMsr s.cfg .r1000 = true → s.msr.r1000.getLsbD 10 = false ∨ s.msr.r1000.getLsbD 7 = true →
      ∃ t, envStep .cacheReload s = .next t ∧ t.msr.r1000.getLsbD 11 = true ∧
        (∀ i, i ≠ 11 → t.msr.r1000.getLsbD i = s.msr.r1000.getLsbD i) ∧ OtherMsrsSame .r1000 s t ∧
        t = { s with msr := t.msr }) ∧
    ∀ e, e ∈ eventsOf1000 →
      (msrPresence s.cfg .r1000 = .isOpen → envStep e s = .refused .msrPresenceOpen) ∧
      (msrPresence s.cfg .r1000 = .absent → envStep e s = .next s)

/-- The frequency-shift events on the 486SLC2 (R66, R70, R215). That a removed request leaves every register alone, the
stored 1002h bit 28 among them, is the model's choice (log entry 13, unsafe): R67 and R70 make the bit a draw when no
request is left, and the model makes that draw at each RDMSR while none is pending (`fixedBit`). That an event which is not
enabled has no effect is its choice too (log entry 6). -/
def Obligations.FrequencyShiftHandshake : Prop :=
  ∀ (s : State), s.cfg.cpu = .ibm486SLC2 →
    (s.msr.r1002.getLsbD 29 = true → envStep .dfsHardwareRequest s = .next { s with hwDfsRequest := true }) ∧
    (s.msr.r1002.getLsbD 29 = false → envStep .dfsHardwareRequest s = .next s) ∧
    (s.hwDfsRequest = false → s.msr.r1002.getLsbD 27 = false → envStep .dfsReadyRaise s = .next s) ∧
    (s.hwDfsRequest = true ∨ s.msr.r1002.getLsbD 27 = true →
      ∃ t, envStep .dfsReadyRaise s = .next t ∧ t.msr.r1002.getLsbD 28 = true ∧
        (∀ i, i ≠ 28 → t.msr.r1002.getLsbD i = s.msr.r1002.getLsbD i) ∧ OtherMsrsSame .r1002 s t ∧
        t = { s with msr := t.msr }) ∧
    envStep .dfsRequestRemoved s = .next { s with hwDfsRequest := false }

/-- FlushSnoopSignal and PwiPin (R219, R217): with 1000h bit 4 the cache is emptied and no register changes; the pin has
no effect with bit 5 = 0 and is refused with bit 5 = 1. -/
def Obligations.FlushSnoopAndPowerInterrupt : Prop :=
  ∀ (s : State), hasMsr s.cfg .r1000 = true →
    (s.msr.r1000.getLsbD 4 = true →
      ∃ t, envStep .flushSnoopSignal s = .next t ∧ (∀ pa, t.isStale pa = false) ∧ t.regs = s.regs ∧ t.pc = s.pc ∧
        t.eflags = s.eflags ∧ MsrsSame s t ∧ MemorySame s t ∧ SystemSame s t ∧ t.written = s.written) ∧
    (s.msr.r1000.getLsbD 5 = false → envStep .pwiPin s = .next s) ∧
    (s.msr.r1000.getLsbD 5 = true → envStep .pwiPin s = .refused .suspendNotModelled)

/-- HardwareReset (R240, R241): the three Booleans become false; each model-specific register becomes RESET_MSR(n), a
free value of its own where the configuration names none; each register of the core and each byte of memory and of hidden
memory becomes a free value of its own. The configuration (DEFAULT_SIZE and CPL among it), the clock state, the schedule
and the fetched and written marks stay: this model's choice, log entry 17. -/
def Obligations.HardwareResetDrawsEveryRegister : Prop :=
  ∀ (s : State), ∃ t n, envStep .hardwareReset s = .next t ∧ s.draws = n ∧
    t.msr1000Written = false ∧ t.nmiPending = false ∧ t.hwDfsRequest = false ∧
    (∀ i : Fin 8, t.reg (numbered i) = (Config.freeWord (n + i.val)).setWidth 32) ∧
    t.pc = (Config.freeWord (n + 8)).setWidth 32 ∧ t.eflags = (Config.freeWord (n + 9)).setWidth 32 ∧
    t.cr0 = (Config.freeWord (n + 10)).setWidth 32 ∧
    t.msr = ⟨s.cfg.resetMsr.array.getD (Config.freeWord (n + 11)), s.cfg.resetMsr.r83.getD (Config.freeWord (n + 12)),
      s.cfg.resetMsr.r1000.getD (Config.freeWord (n + 13)), s.cfg.resetMsr.r1001.getD (Config.freeWord (n + 14)),
      s.cfg.resetMsr.r1002.getD (Config.freeWord (n + 15)), s.cfg.resetMsr.r1004.getD (Config.freeWord (n + 16))⟩ ∧
    t.cfg = s.cfg ∧ t.clock = s.clock ∧ t.schedule = s.schedule ∧ t.fetched = s.fetched ∧ t.written = s.written ∧
    (∀ a, t.memByte a = Config.launchByte (n + 1) a) ∧
    (s.cfg.hiddenMemSupported = some true →
      ∀ a, t.hiddenByte a = .ok (some (Config.hiddenLaunchByte (n + 1) a))) ∧
    n + 16 < t.draws

/-- After reset the first-write latch, the pending NMI and the hardware frequency request are false (R79, R240). -/
def Obligations.ResetLeavesTheHiddenBooleansFalse : Prop :=
  State.reset.msr1000Written = false ∧ State.reset.nmiPending = false ∧ State.reset.hwDfsRequest = false

/-- On the environment's turn, step is the scheduled event in the state whose schedule has moved on (R18, R212). -/
def Obligations.StepRunsTheScheduledEvent : Prop :=
  ∀ (s : State) (e : Event) (rest : List Turn), s.schedule = .env e :: rest →
    step s = envStep e (s.setSchedule rest)
end

