-- ==== Sys2Proof/Laws/Bits.lean ====
section
/-! SUPPORT. What each bit-field operation does to a bit. -/

namespace Sys2Proof.Machine

/-- A merged value takes the masked bits from the new value, the others from the old one. -/
theorem getLsbD_merge (mask old new : Quad) (i : Nat) :
    (merge mask old new).getLsbD i = if mask.getLsbD i then new.getLsbD i else old.getLsbD i := by
  by_cases hi : i < 64
  · simp only [merge, BitVec.getLsbD_or, BitVec.getLsbD_and, BitVec.getLsbD_not, hi, decide_true, Bool.true_and]
    cases mask.getLsbD i <;> simp
  · simp [BitVec.getLsbD_of_ge _ i (Nat.le_of_not_lt hi)]

/-- Under bits the mask takes from the new value, a merged value is the new one, whatever the old one is. -/
theorem merge_and {mask k : Quad} (h : k &&& ~~~mask = 0) (old new : Quad) : merge mask old new &&& k = new &&& k := by
  refine BitVec.eq_of_getLsbD_eq fun i hi => ?_
  have hk := congrArg (fun v : Quad => v.getLsbD i) h
  simp only [BitVec.getLsbD_and, BitVec.getLsbD_not, hi, decide_true, Bool.true_and] at hk
  rw [BitVec.getLsbD_and, BitVec.getLsbD_and, getLsbD_merge]
  cases hm : mask.getLsbD i
  · rw [hm] at hk
    have h0 : k.getLsbD i = false := by simpa using hk
    rw [h0, Bool.and_false, Bool.and_false]
  · rfl

/-- The n low bits of a 32-bit value. -/
theorem getLsbD_lowMask (n i : Nat) (h : n ≤ 32) : (lowMask n).getLsbD i = decide (i < n) := by
  rw [lowMask, BitVec.getLsbD_ofNat, Nat.testBit_two_pow_sub_one]
  by_cases hi : i < n
  · simp [hi, Nat.lt_of_lt_of_le hi h]
  · simp [hi]

/-- A bit of a little-endian value is a bit of the byte it lies in (R80). -/
theorem getLsbD_littleEndian (bs : List Byte) (i : Nat) (h : bs.length ≤ 4) :
    (littleEndian bs).getLsbD i = (bs[i / 8]?.getD 0).getLsbD (i % 8) := by
  induction bs generalizing i with
  | nil => simp [littleEndian]
  | cons b rest ih =>
    simp only [littleEndian, BitVec.getLsbD_or, BitVec.getLsbD_shiftLeft, BitVec.getLsbD_setWidth]
    by_cases hi : i < 8
    · have h32 : i < 32 := by omega
      simp [hi, h32, Nat.div_eq_of_lt hi, Nat.mod_eq_of_lt hi]
    · obtain ⟨j, rfl⟩ : ∃ j, i = j + 8 := ⟨i - 8, by omega⟩
      have hb : b.getLsbD (j + 8) = false := BitVec.getLsbD_of_ge _ _ (by omega)
      have e : (j + 8) / 8 = j / 8 + 1 := by omega
      have hl : rest.length ≤ 3 := Nat.le_of_lt_succ (by simpa using h)
      rw [hb, e, List.getElem?_cons_succ, Nat.add_mod_right]
      simp only [Nat.add_sub_cancel, Bool.and_false, Bool.or_false, show ¬ j + 8 < 8 by omega, decide_false,
        Bool.not_false, Bool.and_true]
      rw [ih j (by omega)]
      by_cases hj : j + 8 < 32
      · simp [hj]
      · have : rest[j / 8]? = none := List.getElem?_eq_none (by omega)
        simp [hj, this]

/-- Writing the status flags changes the six flag bits and no other (R23). -/
theorem getLsbD_withStatusFlags (eflags fl : Word) (i : Nat) :
    (withStatusFlags eflags fl).getLsbD i = if statusFlagMask.getLsbD i then fl.getLsbD i else eflags.getLsbD i := by
  by_cases hi : i < 32
  · simp only [withStatusFlags, BitVec.getLsbD_or, BitVec.getLsbD_and, BitVec.getLsbD_not, hi, decide_true,
      Bool.true_and]
    cases statusFlagMask.getLsbD i <;> simp
  · simp [BitVec.getLsbD_of_ge _ i (Nat.le_of_not_lt hi)]

/-- The bits of the 16-bit mask and of its complement. -/
theorem getLsbD_lowHalf (i : Nat) : (0xFFFF : Word).getLsbD i = decide (i < 16) := by
  by_cases hi : i < 32
  · exact (by decide : ∀ i < 32, (0xFFFF : Word).getLsbD i = decide (i < 16)) i hi
  · rw [BitVec.getLsbD_of_ge _ i (Nat.le_of_not_lt hi), decide_eq_false (by omega)]

theorem getLsbD_highHalf (i : Nat) : (0xFFFF0000 : Word).getLsbD i = (decide (16 ≤ i) && decide (i < 32)) := by
  by_cases hi : i < 32
  · exact (by decide : ∀ i < 32, (0xFFFF0000 : Word).getLsbD i = (decide (16 ≤ i) && decide (i < 32))) i hi
  · rw [BitVec.getLsbD_of_ge _ i (Nat.le_of_not_lt hi), decide_eq_false hi, Bool.and_false]

/-- A W-bit write sets the low W bits and leaves the rest (R12, R21). -/
theorem getLsbD_mergeReg (w : OpSize) (old v : Word) (i : Nat) :
    (mergeReg w old v).getLsbD i = if i < opBits w then v.getLsbD i else old.getLsbD i := by
  cases w with
  | w16 =>
    simp only [mergeReg, BitVec.getLsbD_or, BitVec.getLsbD_and, getLsbD_lowHalf, getLsbD_highHalf]
    by_cases h : i < opBits .w16
    · have h16 : i < 16 := h
      rw [if_pos h, decide_eq_true h16, decide_eq_false (by omega)]
      simp
    · have h16 : ¬ i < 16 := h
      rw [if_neg h, decide_eq_false h16, decide_eq_true (by omega)]
      by_cases hi : i < 32
      · simp [hi]
      · simp [BitVec.getLsbD_of_ge _ i (Nat.le_of_not_lt hi)]
  | w32 =>
    by_cases h : i < opBits .w32
    · rw [if_pos h, mergeReg]
    · have h32 : ¬ i < 32 := h
      rw [if_neg h, BitVec.getLsbD_of_ge _ _ (by omega), BitVec.getLsbD_of_ge _ _ (by omega)]

/-- The low W bits of a value, as a number (AX or EAX, R163). -/
theorem toNat_narrow (w : OpSize) (v : Word) : (narrow w v).toNat = v.toNat % 2 ^ opBits w := by
  cases w
  · simp only [narrow, opBits, BitVec.toNat_and]
    exact Nat.and_two_pow_sub_one_eq_mod v.toNat 16
  · exact (Nat.mod_eq_of_lt v.isLt).symm

/-- A W-bit view has the register's bits below W. -/
theorem getLsbD_narrow (w : OpSize) (v : Word) (i : Nat) :
    (narrow w v).getLsbD i = if i < opBits w then v.getLsbD i else false := by
  cases w with
  | w16 =>
    simp only [narrow, BitVec.getLsbD_and, getLsbD_lowHalf]
    by_cases h : i < opBits .w16
    · rw [if_pos h, decide_eq_true (show i < 16 from h), Bool.and_true]
    · rw [if_neg h, decide_eq_false (show ¬ i < 16 from h), Bool.and_false]
  | w32 =>
    by_cases h : i < opBits .w32
    · rw [if_pos h, narrow]
    · rw [if_neg h]
      exact BitVec.getLsbD_of_ge v _ (Nat.le_of_not_lt h)

/-- CL as a number (R21). -/
theorem toNat_cl (s : State) : s.cl.toNat = (s.reg .ecx).toNat % 256 := by
  simp [State.cl]

/-- EDX:EAX bit by bit (R9). -/
theorem getLsbD_edxEax (s : State) (i : Nat) :
    (edxEax s).getLsbD i = if i < 32 then (s.reg .eax).getLsbD i else (s.reg .edx).getLsbD (i - 32) := by
  rw [edxEax, BitVec.getLsbD_append]

end Sys2Proof.Machine
end

