-- ==== Sys2Proof/Laws/Decode.lean ====
section
/-! SUPPORT. The parts of the encoding agree with the parts of the decoder: register numbers, byte fields, displacements
and prefixes; and what more bytes leave standing. -/

namespace Sys2Proof

@[simp] theorem Reg.ofBits_bits (r : Reg) : Reg.ofBits r.bits = r := by cases r <;> rfl
@[simp] theorem Base16.ofBits_bits (b : Base16) : Base16.ofBits b.bits = b := by cases b <;> rfl
@[simp] theorem Scale.ofBits_bits (s : Scale) : Scale.ofBits s.bits = s := by cases s <;> rfl
@[simp] theorem ModField.ofBits_bits (m : ModField) : ModField.ofBits m.bits = m := by cases m <;> rfl

theorem Reg.bits_ofBits : ∀ b : BitVec 3, (Reg.ofBits b).bits = b := by decide
theorem Base16.bits_ofBits : ∀ b : BitVec 3, (Base16.ofBits b).bits = b := by decide
theorem Scale.bits_ofBits : ∀ b : BitVec 2, (Scale.ofBits b).bits = b := by decide
theorem ModField.bits_ofBits : ∀ b : BitVec 2, (ModField.ofBits b).bits = b := by decide

/-- A well-formed index is not ESP, so its number is not the one that means no index (R118). -/
theorem indexOfBits_bits {i : Option Reg} (h : indexWellFormed i = true) : indexOfBits (indexBits i) = i := by
  cases i with
  | none => rfl
  | some r => cases r <;> first | rfl | cases h

theorem indexOfBits_wellFormed : ∀ b : BitVec 3, indexWellFormed (indexOfBits b) = true := by decide

@[simp] theorem topField_fieldsByte (t : BitVec 2) (m l : BitVec 3) : topField (fieldsByte t m l) = t := by
  revert t m l
  decide
@[simp] theorem midField_fieldsByte (t : BitVec 2) (m l : BitVec 3) : midField (fieldsByte t m l) = m := by
  revert t m l
  decide
@[simp] theorem lowField_fieldsByte (t : BitVec 2) (m l : BitVec 3) : lowField (fieldsByte t m l) = l := by
  revert t m l
  decide

@[simp] theorem takeByte_cons (b : Byte) (rest : List Byte) : takeByte (b :: rest) = some (b, rest) := rfl

/-- Two bytes low byte first give the field back (R122). -/
@[simp] theorem takeHalf_halfBytes (h : Half) (rest : List Byte) : takeHalf (halfBytes h ++ rest) = some (h, rest) := by
  show some _ = some _
  congr 2
  ext i hi
  simp only [BitVec.getElem_append, BitVec.getElem_extractLsb']
  split <;> simp_all [BitVec.getLsbD_eq_getElem]

/-- Four bytes low byte first give the field back (R122). -/
@[simp] theorem takeWord_wordBytes (w : Word) (rest : List Byte) : takeWord (wordBytes w ++ rest) = some (w, rest) := by
  show some _ = some _
  congr 2
  refine BitVec.eq_of_getLsbD_eq fun i hi => ?_
  simp only [BitVec.getLsbD_append, BitVec.getLsbD_extractLsb']
  by_cases h0 : i < 8
  · simp [h0]
  · by_cases h1 : i - 8 < 8
    · simp only [h0, h1, if_false, if_true, decide_true, Bool.true_and, show 8 + (i - 8) = i by omega]
    · by_cases h2 : i - 8 - 8 < 8
      · simp only [h0, h1, h2, if_false, if_true, decide_true, Bool.true_and, show 16 + (i - 8 - 8) = i by omega]
      · have h3 : i - 8 - 8 - 8 < 8 := by omega
        simp only [h0, h1, h2, h3, if_false, decide_true, Bool.true_and, show 24 + (i - 8 - 8 - 8) = i by omega]

theorem takeByte_eq_some {bs rest : List Byte} {b : Byte} : takeByte bs = some (b, rest) ↔ bs = b :: rest := by
  cases bs <;> simp [takeByte]

theorem takeHalf_eq_some {bs rest : List Byte} {h : Half} :
    takeHalf bs = some (h, rest) ↔ ∃ b0 b1, bs = b0 :: b1 :: rest ∧ h = b1 ++ b0 := by
  unfold takeHalf
  split
  · rename_i b0 b1 r
    simp only [Option.some.injEq, Prod.mk.injEq, List.cons.injEq]
    constructor
    · rintro ⟨rfl, rfl⟩
      exact ⟨b0, b1, ⟨rfl, rfl, rfl⟩, rfl⟩
    · rintro ⟨_, _, ⟨rfl, rfl, rfl⟩, rfl⟩
      exact ⟨rfl, rfl⟩
  · rename_i hn
    simp only [reduceCtorEq, false_iff]
    rintro ⟨b0, b1, rfl, -⟩
    exact hn _ _ _ rfl

theorem takeWord_eq_some {bs rest : List Byte} {w : Word} :
    takeWord bs = some (w, rest) ↔
      ∃ b0 b1 b2 b3, bs = b0 :: b1 :: b2 :: b3 :: rest ∧ w = (b3 ++ b2 ++ b1 ++ b0 : BitVec 32) := by
  unfold takeWord
  split
  · rename_i b0 b1 b2 b3 r
    simp only [Option.some.injEq, Prod.mk.injEq, List.cons.injEq]
    constructor
    · rintro ⟨rfl, rfl⟩
      exact ⟨b0, b1, b2, b3, ⟨rfl, rfl, rfl, rfl, rfl⟩, rfl⟩
    · rintro ⟨_, _, _, _, ⟨rfl, rfl, rfl, rfl, rfl⟩, rfl⟩
      exact ⟨rfl, rfl⟩
  · rename_i hn
    simp only [reduceCtorEq, false_iff]
    rintro ⟨b0, b1, b2, b3, rfl, -⟩
    exact hn _ _ _ _ _ rfl

/-- Each admitted prefix turns its own size over, once (R113, R114). -/
theorem decode_sizePrefixes (c : Config) (w a : OpSize) (rest : List Byte) :
    decode c (sizePrefixes c w a ++ 0x0F :: rest) =
      decodeTwoByte c (w != c.defaultSize) (a != c.defaultSize) rest := by
  unfold sizePrefixes decode
  have h0F : ∀ o p, decodeFrom c o p (0x0F :: rest) = decodeTwoByte c o p rest := fun o p => by
    simp [decodeFrom, forbiddenPrefixes, decodeOpcode]
  have h67 : ∀ o, decodeFrom c o false (0x67 :: 0x0F :: rest) = decodeTwoByte c o true rest := fun o => by
    rw [← h0F]
    simp [decodeFrom]
  by_cases hw : w = c.defaultSize <;> by_cases ha : a = c.defaultSize <;>
    simp only [bne_iff_ne.2, hw, ha, if_true, if_false, bne_self_eq_false, List.nil_append, List.cons_append, ne_eq,
      not_false_eq_true, h0F, h67]
  all_goals
    rw [decodeFrom, if_pos rfl, if_neg (by decide)]
    exact h0F _ _

theorem sizeWith_ne (c : Config) (w : OpSize) : sizeWith c (w != c.defaultSize) = w := by
  unfold sizeWith
  cases w <;> cases c.defaultSize <;> rfl

/-! ### More bytes -/

/-- An answer other than an instruction that more bytes leave standing: any but `truncated`. -/
def DecodeResult.Stands (more : List Byte) : DecodeResult → DecodeResult → Prop
  | .ok _ _, _ => True
  | .stop .truncated, _ => True
  | .stop r, x => x = .stop r
  | .invalidOpcode rest, x => x = .invalidOpcode (rest ++ more)

theorem decodeRmFormat_stands (c : Config) (o a : Bool) (mk : OpSize → OpSize → Reg → RmOperand → Instr)
    (bs more : List Byte) (x : DecodeResult) : (decodeRmFormat c o a mk bs).Stands more x := by
  unfold decodeRmFormat
  split
  · trivial
  · split <;> trivial

theorem decode0FA6_stands (c : Config) (o a : Bool) (bs more : List Byte) :
    (decode0FA6 c o a bs).Stands more (decode0FA6 c o a (bs ++ more)) := by
  unfold decode0FA6
  cases c.cpu <;> first | rfl | skip
  · dsimp only
    unfold decodeXbts
    split
    · rename_i h
      cases bs with
      | nil => simp [isMemoryModRm, takeByte] at h
      | cons b bs =>
        rw [if_pos (by exact h)]
        rfl
    · exact decodeRmFormat_stands _ _ _ _ _ _ _
  · exact decodeRmFormat_stands _ _ _ _ _ _ _

theorem decodeMsrOp_stands (c : Config) (o a : Bool) (i : Instr) (bs more : List Byte) :
    (decodeMsrOp c o a i bs).Stands more (decodeMsrOp c o a i (bs ++ more)) := by
  unfold decodeMsrOp
  split
  · rfl
  · split
    · trivial
    · rfl

theorem decodeMov_stands (c : Config) (o a : Bool) (r : Reg) (bs more : List Byte) :
    (decodeMov c o a r bs).Stands more (decodeMov c o a r (bs ++ more)) := by
  unfold decodeMov
  split
  · rfl
  · split
    · rfl
    · split <;> trivial

theorem decodeOpcode_stands (c : Config) (o a : Bool) (bs more : List Byte) :
    (decodeOpcode c o a bs).Stands more (decodeOpcode c o a (bs ++ more)) := by
  cases bs with
  | nil => trivial
  | cons b bs =>
    simp only [decodeOpcode, List.cons_append, takeByte_cons]
    split
    · cases bs with
      | nil => trivial
      | cons b bs =>
        simp only [decodeTwoByte, List.cons_append, takeByte_cons]
        split
        · exact decode0FA6_stands _ _ _ _ _
        · split
          · exact decodeMsrOp_stands _ _ _ _ _ _
          · split
            · exact decodeMsrOp_stands _ _ _ _ _ _
            · rfl
    · split
      · exact decodeMov_stands _ _ _ _ _ _
      · rfl

theorem decodeFrom_stands (c : Config) (o a : Bool) (bs more : List Byte) :
    (decodeFrom c o a bs).Stands more (decodeFrom c o a (bs ++ more)) := by
  induction bs generalizing o a with
  | nil => trivial
  | cons b bs ih =>
    simp only [decodeFrom, List.cons_append]
    split
    · split
      · rfl
      · exact ih _ _
    · split
      · split
        · rfl
        · exact ih _ _
      · split
        · rfl
        · exact decodeOpcode_stands c o a (b :: bs) more

/-- More bytes after an opcode the part lacks, or after a refusal other than for want of bytes, change nothing (R126). -/
theorem decode_stands (c : Config) (bs more : List Byte) : (decode c bs).Stands more (decode c (bs ++ more)) :=
  decodeFrom_stands c false false bs more

end Sys2Proof
end

