-- ==== Sys2Proof/Laws/State.lean ====
section
/-! SUPPORT. One lemma per field per update, each true by rfl, so that no proof unfolds a record update; and what the
register and model-specific register files hold after a write. -/

namespace Sys2Proof.Machine

variable (s : State)

/-! ### setRegs -/

@[simp] theorem State.setRegs_cfg (v : Regs) : (s.setRegs v).cfg = s.cfg := rfl
@[simp] theorem State.setRegs_regs (v : Regs) : (s.setRegs v).regs = v := rfl
@[simp] theorem State.setRegs_pc (v : Regs) : (s.setRegs v).pc = s.pc := rfl
@[simp] theorem State.setRegs_eflags (v : Regs) : (s.setRegs v).eflags = s.eflags := rfl
@[simp] theorem State.setRegs_cr0 (v : Regs) : (s.setRegs v).cr0 = s.cr0 := rfl
@[simp] theorem State.setRegs_msr (v : Regs) : (s.setRegs v).msr = s.msr := rfl
@[simp] theorem State.setRegs_msr1000Written (v : Regs) : (s.setRegs v).msr1000Written = s.msr1000Written := rfl
@[simp] theorem State.setRegs_nmiPending (v : Regs) : (s.setRegs v).nmiPending = s.nmiPending := rfl
@[simp] theorem State.setRegs_hwDfsRequest (v : Regs) : (s.setRegs v).hwDfsRequest = s.hwDfsRequest := rfl
@[simp] theorem State.setRegs_clock (v : Regs) : (s.setRegs v).clock = s.clock := rfl
@[simp] theorem State.setRegs_mem (v : Regs) : (s.setRegs v).mem = s.mem := rfl
@[simp] theorem State.setRegs_hidden (v : Regs) : (s.setRegs v).hidden = s.hidden := rfl
@[simp] theorem State.setRegs_staleBus (v : Regs) : (s.setRegs v).staleBus = s.staleBus := rfl
@[simp] theorem State.setRegs_staleRom (v : Regs) : (s.setRegs v).staleRom = s.staleRom := rfl
@[simp] theorem State.setRegs_parityRenewed (v : Regs) : (s.setRegs v).parityRenewed = s.parityRenewed := rfl
@[simp] theorem State.setRegs_fetched (v : Regs) : (s.setRegs v).fetched = s.fetched := rfl
@[simp] theorem State.setRegs_written (v : Regs) : (s.setRegs v).written = s.written := rfl
@[simp] theorem State.setRegs_schedule (v : Regs) : (s.setRegs v).schedule = s.schedule := rfl
@[simp] theorem State.setRegs_launch (v : Regs) : (s.setRegs v).launch = s.launch := rfl
@[simp] theorem State.setRegs_draws (v : Regs) : (s.setRegs v).draws = s.draws := rfl

/-! ### setPc -/

@[simp] theorem State.setPc_cfg (v : Word) : (s.setPc v).cfg = s.cfg := rfl
@[simp] theorem State.setPc_regs (v : Word) : (s.setPc v).regs = s.regs := rfl
@[simp] theorem State.setPc_pc (v : Word) : (s.setPc v).pc = v := rfl
@[simp] theorem State.setPc_eflags (v : Word) : (s.setPc v).eflags = s.eflags := rfl
@[simp] theorem State.setPc_cr0 (v : Word) : (s.setPc v).cr0 = s.cr0 := rfl
@[simp] theorem State.setPc_msr (v : Word) : (s.setPc v).msr = s.msr := rfl
@[simp] theorem State.setPc_msr1000Written (v : Word) : (s.setPc v).msr1000Written = s.msr1000Written := rfl
@[simp] theorem State.setPc_nmiPending (v : Word) : (s.setPc v).nmiPending = s.nmiPending := rfl
@[simp] theorem State.setPc_hwDfsRequest (v : Word) : (s.setPc v).hwDfsRequest = s.hwDfsRequest := rfl
@[simp] theorem State.setPc_clock (v : Word) : (s.setPc v).clock = s.clock := rfl
@[simp] theorem State.setPc_mem (v : Word) : (s.setPc v).mem = s.mem := rfl
@[simp] theorem State.setPc_hidden (v : Word) : (s.setPc v).hidden = s.hidden := rfl
@[simp] theorem State.setPc_staleBus (v : Word) : (s.setPc v).staleBus = s.staleBus := rfl
@[simp] theorem State.setPc_staleRom (v : Word) : (s.setPc v).staleRom = s.staleRom := rfl
@[simp] theorem State.setPc_parityRenewed (v : Word) : (s.setPc v).parityRenewed = s.parityRenewed := rfl
@[simp] theorem State.setPc_fetched (v : Word) : (s.setPc v).fetched = s.fetched := rfl
@[simp] theorem State.setPc_written (v : Word) : (s.setPc v).written = s.written := rfl
@[simp] theorem State.setPc_schedule (v : Word) : (s.setPc v).schedule = s.schedule := rfl
@[simp] theorem State.setPc_launch (v : Word) : (s.setPc v).launch = s.launch := rfl
@[simp] theorem State.setPc_draws (v : Word) : (s.setPc v).draws = s.draws := rfl

/-! ### setEflags -/

@[simp] theorem State.setEflags_cfg (v : Word) : (s.setEflags v).cfg = s.cfg := rfl
@[simp] theorem State.setEflags_regs (v : Word) : (s.setEflags v).regs = s.regs := rfl
@[simp] theorem State.setEflags_pc (v : Word) : (s.setEflags v).pc = s.pc := rfl
@[simp] theorem State.setEflags_eflags (v : Word) : (s.setEflags v).eflags = v := rfl
@[simp] theorem State.setEflags_cr0 (v : Word) : (s.setEflags v).cr0 = s.cr0 := rfl
@[simp] theorem State.setEflags_msr (v : Word) : (s.setEflags v).msr = s.msr := rfl
@[simp] theorem State.setEflags_msr1000Written (v : Word) : (s.setEflags v).msr1000Written = s.msr1000Written := rfl
@[simp] theorem State.setEflags_nmiPending (v : Word) : (s.setEflags v).nmiPending = s.nmiPending := rfl
@[simp] theorem State.setEflags_hwDfsRequest (v : Word) : (s.setEflags v).hwDfsRequest = s.hwDfsRequest := rfl
@[simp] theorem State.setEflags_clock (v : Word) : (s.setEflags v).clock = s.clock := rfl
@[simp] theorem State.setEflags_mem (v : Word) : (s.setEflags v).mem = s.mem := rfl
@[simp] theorem State.setEflags_hidden (v : Word) : (s.setEflags v).hidden = s.hidden := rfl
@[simp] theorem State.setEflags_staleBus (v : Word) : (s.setEflags v).staleBus = s.staleBus := rfl
@[simp] theorem State.setEflags_staleRom (v : Word) : (s.setEflags v).staleRom = s.staleRom := rfl
@[simp] theorem State.setEflags_parityRenewed (v : Word) : (s.setEflags v).parityRenewed = s.parityRenewed := rfl
@[simp] theorem State.setEflags_fetched (v : Word) : (s.setEflags v).fetched = s.fetched := rfl
@[simp] theorem State.setEflags_written (v : Word) : (s.setEflags v).written = s.written := rfl
@[simp] theorem State.setEflags_schedule (v : Word) : (s.setEflags v).schedule = s.schedule := rfl
@[simp] theorem State.setEflags_launch (v : Word) : (s.setEflags v).launch = s.launch := rfl
@[simp] theorem State.setEflags_draws (v : Word) : (s.setEflags v).draws = s.draws := rfl

/-! ### setCr0 -/

@[simp] theorem State.setCr0_cfg (v : Word) : (s.setCr0 v).cfg = s.cfg := rfl
@[simp] theorem State.setCr0_regs (v : Word) : (s.setCr0 v).regs = s.regs := rfl
@[simp] theorem State.setCr0_pc (v : Word) : (s.setCr0 v).pc = s.pc := rfl
@[simp] theorem State.setCr0_eflags (v : Word) : (s.setCr0 v).eflags = s.eflags := rfl
@[simp] theorem State.setCr0_cr0 (v : Word) : (s.setCr0 v).cr0 = v := rfl
@[simp] theorem State.setCr0_msr (v : Word) : (s.setCr0 v).msr = s.msr := rfl
@[simp] theorem State.setCr0_msr1000Written (v : Word) : (s.setCr0 v).msr1000Written = s.msr1000Written := rfl
@[simp] theorem State.setCr0_nmiPending (v : Word) : (s.setCr0 v).nmiPending = s.nmiPending := rfl
@[simp] theorem State.setCr0_hwDfsRequest (v : Word) : (s.setCr0 v).hwDfsRequest = s.hwDfsRequest := rfl
@[simp] theorem State.setCr0_clock (v : Word) : (s.setCr0 v).clock = s.clock := rfl
@[simp] theorem State.setCr0_mem (v : Word) : (s.setCr0 v).mem = s.mem := rfl
@[simp] theorem State.setCr0_hidden (v : Word) : (s.setCr0 v).hidden = s.hidden := rfl
@[simp] theorem State.setCr0_staleBus (v : Word) : (s.setCr0 v).staleBus = s.staleBus := rfl
@[simp] theorem State.setCr0_staleRom (v : Word) : (s.setCr0 v).staleRom = s.staleRom := rfl
@[simp] theorem State.setCr0_parityRenewed (v : Word) : (s.setCr0 v).parityRenewed = s.parityRenewed := rfl
@[simp] theorem State.setCr0_fetched (v : Word) : (s.setCr0 v).fetched = s.fetched := rfl
@[simp] theorem State.setCr0_written (v : Word) : (s.setCr0 v).written = s.written := rfl
@[simp] theorem State.setCr0_schedule (v : Word) : (s.setCr0 v).schedule = s.schedule := rfl
@[simp] theorem State.setCr0_launch (v : Word) : (s.setCr0 v).launch = s.launch := rfl
@[simp] theorem State.setCr0_draws (v : Word) : (s.setCr0 v).draws = s.draws := rfl

/-! ### setMsr -/

@[simp] theorem State.setMsr_cfg (v : MsrFile) : (s.setMsr v).cfg = s.cfg := rfl
@[simp] theorem State.setMsr_regs (v : MsrFile) : (s.setMsr v).regs = s.regs := rfl
@[simp] theorem State.setMsr_pc (v : MsrFile) : (s.setMsr v).pc = s.pc := rfl
@[simp] theorem State.setMsr_eflags (v : MsrFile) : (s.setMsr v).eflags = s.eflags := rfl
@[simp] theorem State.setMsr_cr0 (v : MsrFile) : (s.setMsr v).cr0 = s.cr0 := rfl
@[simp] theorem State.setMsr_msr (v : MsrFile) : (s.setMsr v).msr = v := rfl
@[simp] theorem State.setMsr_msr1000Written (v : MsrFile) : (s.setMsr v).msr1000Written = s.msr1000Written := rfl
@[simp] theorem State.setMsr_nmiPending (v : MsrFile) : (s.setMsr v).nmiPending = s.nmiPending := rfl
@[simp] theorem State.setMsr_hwDfsRequest (v : MsrFile) : (s.setMsr v).hwDfsRequest = s.hwDfsRequest := rfl
@[simp] theorem State.setMsr_clock (v : MsrFile) : (s.setMsr v).clock = s.clock := rfl
@[simp] theorem State.setMsr_mem (v : MsrFile) : (s.setMsr v).mem = s.mem := rfl
@[simp] theorem State.setMsr_hidden (v : MsrFile) : (s.setMsr v).hidden = s.hidden := rfl
@[simp] theorem State.setMsr_staleBus (v : MsrFile) : (s.setMsr v).staleBus = s.staleBus := rfl
@[simp] theorem State.setMsr_staleRom (v : MsrFile) : (s.setMsr v).staleRom = s.staleRom := rfl
@[simp] theorem State.setMsr_parityRenewed (v : MsrFile) : (s.setMsr v).parityRenewed = s.parityRenewed := rfl
@[simp] theorem State.setMsr_fetched (v : MsrFile) : (s.setMsr v).fetched = s.fetched := rfl
@[simp] theorem State.setMsr_written (v : MsrFile) : (s.setMsr v).written = s.written := rfl
@[simp] theorem State.setMsr_schedule (v : MsrFile) : (s.setMsr v).schedule = s.schedule := rfl
@[simp] theorem State.setMsr_launch (v : MsrFile) : (s.setMsr v).launch = s.launch := rfl
@[simp] theorem State.setMsr_draws (v : MsrFile) : (s.setMsr v).draws = s.draws := rfl

/-! ### setLatch -/

@[simp] theorem State.setLatch_cfg (v : Bool) : (s.setLatch v).cfg = s.cfg := rfl
@[simp] theorem State.setLatch_regs (v : Bool) : (s.setLatch v).regs = s.regs := rfl
@[simp] theorem State.setLatch_pc (v : Bool) : (s.setLatch v).pc = s.pc := rfl
@[simp] theorem State.setLatch_eflags (v : Bool) : (s.setLatch v).eflags = s.eflags := rfl
@[simp] theorem State.setLatch_cr0 (v : Bool) : (s.setLatch v).cr0 = s.cr0 := rfl
@[simp] theorem State.setLatch_msr (v : Bool) : (s.setLatch v).msr = s.msr := rfl
@[simp] theorem State.setLatch_msr1000Written (v : Bool) : (s.setLatch v).msr1000Written = v := rfl
@[simp] theorem State.setLatch_nmiPending (v : Bool) : (s.setLatch v).nmiPending = s.nmiPending := rfl
@[simp] theorem State.setLatch_hwDfsRequest (v : Bool) : (s.setLatch v).hwDfsRequest = s.hwDfsRequest := rfl
@[simp] theorem State.setLatch_clock (v : Bool) : (s.setLatch v).clock = s.clock := rfl
@[simp] theorem State.setLatch_mem (v : Bool) : (s.setLatch v).mem = s.mem := rfl
@[simp] theorem State.setLatch_hidden (v : Bool) : (s.setLatch v).hidden = s.hidden := rfl
@[simp] theorem State.setLatch_staleBus (v : Bool) : (s.setLatch v).staleBus = s.staleBus := rfl
@[simp] theorem State.setLatch_staleRom (v : Bool) : (s.setLatch v).staleRom = s.staleRom := rfl
@[simp] theorem State.setLatch_parityRenewed (v : Bool) : (s.setLatch v).parityRenewed = s.parityRenewed := rfl
@[simp] theorem State.setLatch_fetched (v : Bool) : (s.setLatch v).fetched = s.fetched := rfl
@[simp] theorem State.setLatch_written (v : Bool) : (s.setLatch v).written = s.written := rfl
@[simp] theorem State.setLatch_schedule (v : Bool) : (s.setLatch v).schedule = s.schedule := rfl
@[simp] theorem State.setLatch_launch (v : Bool) : (s.setLatch v).launch = s.launch := rfl
@[simp] theorem State.setLatch_draws (v : Bool) : (s.setLatch v).draws = s.draws := rfl

/-! ### setNmiPending -/

@[simp] theorem State.setNmiPending_cfg (v : Bool) : (s.setNmiPending v).cfg = s.cfg := rfl
@[simp] theorem State.setNmiPending_regs (v : Bool) : (s.setNmiPending v).regs = s.regs := rfl
@[simp] theorem State.setNmiPending_pc (v : Bool) : (s.setNmiPending v).pc = s.pc := rfl
@[simp] theorem State.setNmiPending_eflags (v : Bool) : (s.setNmiPending v).eflags = s.eflags := rfl
@[simp] theorem State.setNmiPending_cr0 (v : Bool) : (s.setNmiPending v).cr0 = s.cr0 := rfl
@[simp] theorem State.setNmiPending_msr (v : Bool) : (s.setNmiPending v).msr = s.msr := rfl
@[simp] theorem State.setNmiPending_msr1000Written (v : Bool) : (s.setNmiPending v).msr1000Written = s.msr1000Written := rfl
@[simp] theorem State.setNmiPending_nmiPending (v : Bool) : (s.setNmiPending v).nmiPending = v := rfl
@[simp] theorem State.setNmiPending_hwDfsRequest (v : Bool) : (s.setNmiPending v).hwDfsRequest = s.hwDfsRequest := rfl
@[simp] theorem State.setNmiPending_clock (v : Bool) : (s.setNmiPending v).clock = s.clock := rfl
@[simp] theorem State.setNmiPending_mem (v : Bool) : (s.setNmiPending v).mem = s.mem := rfl
@[simp] theorem State.setNmiPending_hidden (v : Bool) : (s.setNmiPending v).hidden = s.hidden := rfl
@[simp] theorem State.setNmiPending_staleBus (v : Bool) : (s.setNmiPending v).staleBus = s.staleBus := rfl
@[simp] theorem State.setNmiPending_staleRom (v : Bool) : (s.setNmiPending v).staleRom = s.staleRom := rfl
@[simp] theorem State.setNmiPending_parityRenewed (v : Bool) : (s.setNmiPending v).parityRenewed = s.parityRenewed := rfl
@[simp] theorem State.setNmiPending_fetched (v : Bool) : (s.setNmiPending v).fetched = s.fetched := rfl
@[simp] theorem State.setNmiPending_written (v : Bool) : (s.setNmiPending v).written = s.written := rfl
@[simp] theorem State.setNmiPending_schedule (v : Bool) : (s.setNmiPending v).schedule = s.schedule := rfl
@[simp] theorem State.setNmiPending_launch (v : Bool) : (s.setNmiPending v).launch = s.launch := rfl
@[simp] theorem State.setNmiPending_draws (v : Bool) : (s.setNmiPending v).draws = s.draws := rfl

/-! ### setHwDfsRequest -/

@[simp] theorem State.setHwDfsRequest_cfg (v : Bool) : (s.setHwDfsRequest v).cfg = s.cfg := rfl
@[simp] theorem State.setHwDfsRequest_regs (v : Bool) : (s.setHwDfsRequest v).regs = s.regs := rfl
@[simp] theorem State.setHwDfsRequest_pc (v : Bool) : (s.setHwDfsRequest v).pc = s.pc := rfl
@[simp] theorem State.setHwDfsRequest_eflags (v : Bool) : (s.setHwDfsRequest v).eflags = s.eflags := rfl
@[simp] theorem State.setHwDfsRequest_cr0 (v : Bool) : (s.setHwDfsRequest v).cr0 = s.cr0 := rfl
@[simp] theorem State.setHwDfsRequest_msr (v : Bool) : (s.setHwDfsRequest v).msr = s.msr := rfl
@[simp] theorem State.setHwDfsRequest_msr1000Written (v : Bool) : (s.setHwDfsRequest v).msr1000Written = s.msr1000Written := rfl
@[simp] theorem State.setHwDfsRequest_nmiPending (v : Bool) : (s.setHwDfsRequest v).nmiPending = s.nmiPending := rfl
@[simp] theorem State.setHwDfsRequest_hwDfsRequest (v : Bool) : (s.setHwDfsRequest v).hwDfsRequest = v := rfl
@[simp] theorem State.setHwDfsRequest_clock (v : Bool) : (s.setHwDfsRequest v).clock = s.clock := rfl
@[simp] theorem State.setHwDfsRequest_mem (v : Bool) : (s.setHwDfsRequest v).mem = s.mem := rfl
@[simp] theorem State.setHwDfsRequest_hidden (v : Bool) : (s.setHwDfsRequest v).hidden = s.hidden := rfl
@[simp] theorem State.setHwDfsRequest_staleBus (v : Bool) : (s.setHwDfsRequest v).staleBus = s.staleBus := rfl
@[simp] theorem State.setHwDfsRequest_staleRom (v : Bool) : (s.setHwDfsRequest v).staleRom = s.staleRom := rfl
@[simp] theorem State.setHwDfsRequest_parityRenewed (v : Bool) : (s.setHwDfsRequest v).parityRenewed = s.parityRenewed := rfl
@[simp] theorem State.setHwDfsRequest_fetched (v : Bool) : (s.setHwDfsRequest v).fetched = s.fetched := rfl
@[simp] theorem State.setHwDfsRequest_written (v : Bool) : (s.setHwDfsRequest v).written = s.written := rfl
@[simp] theorem State.setHwDfsRequest_schedule (v : Bool) : (s.setHwDfsRequest v).schedule = s.schedule := rfl
@[simp] theorem State.setHwDfsRequest_launch (v : Bool) : (s.setHwDfsRequest v).launch = s.launch := rfl
@[simp] theorem State.setHwDfsRequest_draws (v : Bool) : (s.setHwDfsRequest v).draws = s.draws := rfl

/-! ### setMem -/

@[simp] theorem State.setMem_cfg (v : Memory) : (s.setMem v).cfg = s.cfg := rfl
@[simp] theorem State.setMem_regs (v : Memory) : (s.setMem v).regs = s.regs := rfl
@[simp] theorem State.setMem_pc (v : Memory) : (s.setMem v).pc = s.pc := rfl
@[simp] theorem State.setMem_eflags (v : Memory) : (s.setMem v).eflags = s.eflags := rfl
@[simp] theorem State.setMem_cr0 (v : Memory) : (s.setMem v).cr0 = s.cr0 := rfl
@[simp] theorem State.setMem_msr (v : Memory) : (s.setMem v).msr = s.msr := rfl
@[simp] theorem State.setMem_msr1000Written (v : Memory) : (s.setMem v).msr1000Written = s.msr1000Written := rfl
@[simp] theorem State.setMem_nmiPending (v : Memory) : (s.setMem v).nmiPending = s.nmiPending := rfl
@[simp] theorem State.setMem_hwDfsRequest (v : Memory) : (s.setMem v).hwDfsRequest = s.hwDfsRequest := rfl
@[simp] theorem State.setMem_clock (v : Memory) : (s.setMem v).clock = s.clock := rfl
@[simp] theorem State.setMem_mem (v : Memory) : (s.setMem v).mem = v := rfl
@[simp] theorem State.setMem_hidden (v : Memory) : (s.setMem v).hidden = s.hidden := rfl
@[simp] theorem State.setMem_staleBus (v : Memory) : (s.setMem v).staleBus = s.staleBus := rfl
@[simp] theorem State.setMem_staleRom (v : Memory) : (s.setMem v).staleRom = s.staleRom := rfl
@[simp] theorem State.setMem_parityRenewed (v : Memory) : (s.setMem v).parityRenewed = s.parityRenewed := rfl
@[simp] theorem State.setMem_fetched (v : Memory) : (s.setMem v).fetched = s.fetched := rfl
@[simp] theorem State.setMem_written (v : Memory) : (s.setMem v).written = s.written := rfl
@[simp] theorem State.setMem_schedule (v : Memory) : (s.setMem v).schedule = s.schedule := rfl
@[simp] theorem State.setMem_launch (v : Memory) : (s.setMem v).launch = s.launch := rfl
@[simp] theorem State.setMem_draws (v : Memory) : (s.setMem v).draws = s.draws := rfl

/-! ### setStaleBus -/

@[simp] theorem State.setStaleBus_cfg (v : List Nat) : (s.setStaleBus v).cfg = s.cfg := rfl
@[simp] theorem State.setStaleBus_regs (v : List Nat) : (s.setStaleBus v).regs = s.regs := rfl
@[simp] theorem State.setStaleBus_pc (v : List Nat) : (s.setStaleBus v).pc = s.pc := rfl
@[simp] theorem State.setStaleBus_eflags (v : List Nat) : (s.setStaleBus v).eflags = s.eflags := rfl
@[simp] theorem State.setStaleBus_cr0 (v : List Nat) : (s.setStaleBus v).cr0 = s.cr0 := rfl
@[simp] theorem State.setStaleBus_msr (v : List Nat) : (s.setStaleBus v).msr = s.msr := rfl
@[simp] theorem State.setStaleBus_msr1000Written (v : List Nat) : (s.setStaleBus v).msr1000Written = s.msr1000Written := rfl
@[simp] theorem State.setStaleBus_nmiPending (v : List Nat) : (s.setStaleBus v).nmiPending = s.nmiPending := rfl
@[simp] theorem State.setStaleBus_hwDfsRequest (v : List Nat) : (s.setStaleBus v).hwDfsRequest = s.hwDfsRequest := rfl
@[simp] theorem State.setStaleBus_clock (v : List Nat) : (s.setStaleBus v).clock = s.clock := rfl
@[simp] theorem State.setStaleBus_mem (v : List Nat) : (s.setStaleBus v).mem = s.mem := rfl
@[simp] theorem State.setStaleBus_hidden (v : List Nat) : (s.setStaleBus v).hidden = s.hidden := rfl
@[simp] theorem State.setStaleBus_staleBus (v : List Nat) : (s.setStaleBus v).staleBus = v := rfl
@[simp] theorem State.setStaleBus_staleRom (v : List Nat) : (s.setStaleBus v).staleRom = s.staleRom := rfl
@[simp] theorem State.setStaleBus_parityRenewed (v : List Nat) : (s.setStaleBus v).parityRenewed = s.parityRenewed := rfl
@[simp] theorem State.setStaleBus_fetched (v : List Nat) : (s.setStaleBus v).fetched = s.fetched := rfl
@[simp] theorem State.setStaleBus_written (v : List Nat) : (s.setStaleBus v).written = s.written := rfl
@[simp] theorem State.setStaleBus_schedule (v : List Nat) : (s.setStaleBus v).schedule = s.schedule := rfl
@[simp] theorem State.setStaleBus_launch (v : List Nat) : (s.setStaleBus v).launch = s.launch := rfl
@[simp] theorem State.setStaleBus_draws (v : List Nat) : (s.setStaleBus v).draws = s.draws := rfl

/-! ### setStaleRom -/

@[simp] theorem State.setStaleRom_cfg (v : List Nat) : (s.setStaleRom v).cfg = s.cfg := rfl
@[simp] theorem State.setStaleRom_regs (v : List Nat) : (s.setStaleRom v).regs = s.regs := rfl
@[simp] theorem State.setStaleRom_pc (v : List Nat) : (s.setStaleRom v).pc = s.pc := rfl
@[simp] theorem State.setStaleRom_eflags (v : List Nat) : (s.setStaleRom v).eflags = s.eflags := rfl
@[simp] theorem State.setStaleRom_cr0 (v : List Nat) : (s.setStaleRom v).cr0 = s.cr0 := rfl
@[simp] theorem State.setStaleRom_msr (v : List Nat) : (s.setStaleRom v).msr = s.msr := rfl
@[simp] theorem State.setStaleRom_msr1000Written (v : List Nat) : (s.setStaleRom v).msr1000Written = s.msr1000Written := rfl
@[simp] theorem State.setStaleRom_nmiPending (v : List Nat) : (s.setStaleRom v).nmiPending = s.nmiPending := rfl
@[simp] theorem State.setStaleRom_hwDfsRequest (v : List Nat) : (s.setStaleRom v).hwDfsRequest = s.hwDfsRequest := rfl
@[simp] theorem State.setStaleRom_clock (v : List Nat) : (s.setStaleRom v).clock = s.clock := rfl
@[simp] theorem State.setStaleRom_mem (v : List Nat) : (s.setStaleRom v).mem = s.mem := rfl
@[simp] theorem State.setStaleRom_hidden (v : List Nat) : (s.setStaleRom v).hidden = s.hidden := rfl
@[simp] theorem State.setStaleRom_staleBus (v : List Nat) : (s.setStaleRom v).staleBus = s.staleBus := rfl
@[simp] theorem State.setStaleRom_staleRom (v : List Nat) : (s.setStaleRom v).staleRom = v := rfl
@[simp] theorem State.setStaleRom_parityRenewed (v : List Nat) : (s.setStaleRom v).parityRenewed = s.parityRenewed := rfl
@[simp] theorem State.setStaleRom_fetched (v : List Nat) : (s.setStaleRom v).fetched = s.fetched := rfl
@[simp] theorem State.setStaleRom_written (v : List Nat) : (s.setStaleRom v).written = s.written := rfl
@[simp] theorem State.setStaleRom_schedule (v : List Nat) : (s.setStaleRom v).schedule = s.schedule := rfl
@[simp] theorem State.setStaleRom_launch (v : List Nat) : (s.setStaleRom v).launch = s.launch := rfl
@[simp] theorem State.setStaleRom_draws (v : List Nat) : (s.setStaleRom v).draws = s.draws := rfl

/-! ### setParityRenewed -/

@[simp] theorem State.setParityRenewed_cfg (v : Option (List Nat)) : (s.setParityRenewed v).cfg = s.cfg := rfl
@[simp] theorem State.setParityRenewed_regs (v : Option (List Nat)) : (s.setParityRenewed v).regs = s.regs := rfl
@[simp] theorem State.setParityRenewed_pc (v : Option (List Nat)) : (s.setParityRenewed v).pc = s.pc := rfl
@[simp] theorem State.setParityRenewed_eflags (v : Option (List Nat)) : (s.setParityRenewed v).eflags = s.eflags := rfl
@[simp] theorem State.setParityRenewed_cr0 (v : Option (List Nat)) : (s.setParityRenewed v).cr0 = s.cr0 := rfl
@[simp] theorem State.setParityRenewed_msr (v : Option (List Nat)) : (s.setParityRenewed v).msr = s.msr := rfl
@[simp] theorem State.setParityRenewed_msr1000Written (v : Option (List Nat)) : (s.setParityRenewed v).msr1000Written = s.msr1000Written := rfl
@[simp] theorem State.setParityRenewed_nmiPending (v : Option (List Nat)) : (s.setParityRenewed v).nmiPending = s.nmiPending := rfl
@[simp] theorem State.setParityRenewed_hwDfsRequest (v : Option (List Nat)) : (s.setParityRenewed v).hwDfsRequest = s.hwDfsRequest := rfl
@[simp] theorem State.setParityRenewed_clock (v : Option (List Nat)) : (s.setParityRenewed v).clock = s.clock := rfl
@[simp] theorem State.setParityRenewed_mem (v : Option (List Nat)) : (s.setParityRenewed v).mem = s.mem := rfl
@[simp] theorem State.setParityRenewed_hidden (v : Option (List Nat)) : (s.setParityRenewed v).hidden = s.hidden := rfl
@[simp] theorem State.setParityRenewed_staleBus (v : Option (List Nat)) : (s.setParityRenewed v).staleBus = s.staleBus := rfl
@[simp] theorem State.setParityRenewed_staleRom (v : Option (List Nat)) : (s.setParityRenewed v).staleRom = s.staleRom := rfl
@[simp] theorem State.setParityRenewed_parityRenewed (v : Option (List Nat)) : (s.setParityRenewed v).parityRenewed = v := rfl
@[simp] theorem State.setParityRenewed_fetched (v : Option (List Nat)) : (s.setParityRenewed v).fetched = s.fetched := rfl
@[simp] theorem State.setParityRenewed_written (v : Option (List Nat)) : (s.setParityRenewed v).written = s.written := rfl
@[simp] theorem State.setParityRenewed_schedule (v : Option (List Nat)) : (s.setParityRenewed v).schedule = s.schedule := rfl
@[simp] theorem State.setParityRenewed_launch (v : Option (List Nat)) : (s.setParityRenewed v).launch = s.launch := rfl
@[simp] theorem State.setParityRenewed_draws (v : Option (List Nat)) : (s.setParityRenewed v).draws = s.draws := rfl

/-! ### setFetched -/

@[simp] theorem State.setFetched_cfg (v : List Nat) : (s.setFetched v).cfg = s.cfg := rfl
@[simp] theorem State.setFetched_regs (v : List Nat) : (s.setFetched v).regs = s.regs := rfl
@[simp] theorem State.setFetched_pc (v : List Nat) : (s.setFetched v).pc = s.pc := rfl
@[simp] theorem State.setFetched_eflags (v : List Nat) : (s.setFetched v).eflags = s.eflags := rfl
@[simp] theorem State.setFetched_cr0 (v : List Nat) : (s.setFetched v).cr0 = s.cr0 := rfl
@[simp] theorem State.setFetched_msr (v : List Nat) : (s.setFetched v).msr = s.msr := rfl
@[simp] theorem State.setFetched_msr1000Written (v : List Nat) : (s.setFetched v).msr1000Written = s.msr1000Written := rfl
@[simp] theorem State.setFetched_nmiPending (v : List Nat) : (s.setFetched v).nmiPending = s.nmiPending := rfl
@[simp] theorem State.setFetched_hwDfsRequest (v : List Nat) : (s.setFetched v).hwDfsRequest = s.hwDfsRequest := rfl
@[simp] theorem State.setFetched_clock (v : List Nat) : (s.setFetched v).clock = s.clock := rfl
@[simp] theorem State.setFetched_mem (v : List Nat) : (s.setFetched v).mem = s.mem := rfl
@[simp] theorem State.setFetched_hidden (v : List Nat) : (s.setFetched v).hidden = s.hidden := rfl
@[simp] theorem State.setFetched_staleBus (v : List Nat) : (s.setFetched v).staleBus = s.staleBus := rfl
@[simp] theorem State.setFetched_staleRom (v : List Nat) : (s.setFetched v).staleRom = s.staleRom := rfl
@[simp] theorem State.setFetched_parityRenewed (v : List Nat) : (s.setFetched v).parityRenewed = s.parityRenewed := rfl
@[simp] theorem State.setFetched_fetched (v : List Nat) : (s.setFetched v).fetched = v := rfl
@[simp] theorem State.setFetched_written (v : List Nat) : (s.setFetched v).written = s.written := rfl
@[simp] theorem State.setFetched_schedule (v : List Nat) : (s.setFetched v).schedule = s.schedule := rfl
@[simp] theorem State.setFetched_launch (v : List Nat) : (s.setFetched v).launch = s.launch := rfl
@[simp] theorem State.setFetched_draws (v : List Nat) : (s.setFetched v).draws = s.draws := rfl

/-! ### setWritten -/

@[simp] theorem State.setWritten_cfg (v : List Nat) : (s.setWritten v).cfg = s.cfg := rfl
@[simp] theorem State.setWritten_regs (v : List Nat) : (s.setWritten v).regs = s.regs := rfl
@[simp] theorem State.setWritten_pc (v : List Nat) : (s.setWritten v).pc = s.pc := rfl
@[simp] theorem State.setWritten_eflags (v : List Nat) : (s.setWritten v).eflags = s.eflags := rfl
@[simp] theorem State.setWritten_cr0 (v : List Nat) : (s.setWritten v).cr0 = s.cr0 := rfl
@[simp] theorem State.setWritten_msr (v : List Nat) : (s.setWritten v).msr = s.msr := rfl
@[simp] theorem State.setWritten_msr1000Written (v : List Nat) : (s.setWritten v).msr1000Written = s.msr1000Written := rfl
@[simp] theorem State.setWritten_nmiPending (v : List Nat) : (s.setWritten v).nmiPending = s.nmiPending := rfl
@[simp] theorem State.setWritten_hwDfsRequest (v : List Nat) : (s.setWritten v).hwDfsRequest = s.hwDfsRequest := rfl
@[simp] theorem State.setWritten_clock (v : List Nat) : (s.setWritten v).clock = s.clock := rfl
@[simp] theorem State.setWritten_mem (v : List Nat) : (s.setWritten v).mem = s.mem := rfl
@[simp] theorem State.setWritten_hidden (v : List Nat) : (s.setWritten v).hidden = s.hidden := rfl
@[simp] theorem State.setWritten_staleBus (v : List Nat) : (s.setWritten v).staleBus = s.staleBus := rfl
@[simp] theorem State.setWritten_staleRom (v : List Nat) : (s.setWritten v).staleRom = s.staleRom := rfl
@[simp] theorem State.setWritten_parityRenewed (v : List Nat) : (s.setWritten v).parityRenewed = s.parityRenewed := rfl
@[simp] theorem State.setWritten_fetched (v : List Nat) : (s.setWritten v).fetched = s.fetched := rfl
@[simp] theorem State.setWritten_written (v : List Nat) : (s.setWritten v).written = v := rfl
@[simp] theorem State.setWritten_schedule (v : List Nat) : (s.setWritten v).schedule = s.schedule := rfl
@[simp] theorem State.setWritten_launch (v : List Nat) : (s.setWritten v).launch = s.launch := rfl
@[simp] theorem State.setWritten_draws (v : List Nat) : (s.setWritten v).draws = s.draws := rfl

/-! ### setSchedule -/

@[simp] theorem State.setSchedule_cfg (v : List Turn) : (s.setSchedule v).cfg = s.cfg := rfl
@[simp] theorem State.setSchedule_regs (v : List Turn) : (s.setSchedule v).regs = s.regs := rfl
@[simp] theorem State.setSchedule_pc (v : List Turn) : (s.setSchedule v).pc = s.pc := rfl
@[simp] theorem State.setSchedule_eflags (v : List Turn) : (s.setSchedule v).eflags = s.eflags := rfl
@[simp] theorem State.setSchedule_cr0 (v : List Turn) : (s.setSchedule v).cr0 = s.cr0 := rfl
@[simp] theorem State.setSchedule_msr (v : List Turn) : (s.setSchedule v).msr = s.msr := rfl
@[simp] theorem State.setSchedule_msr1000Written (v : List Turn) : (s.setSchedule v).msr1000Written = s.msr1000Written := rfl
@[simp] theorem State.setSchedule_nmiPending (v : List Turn) : (s.setSchedule v).nmiPending = s.nmiPending := rfl
@[simp] theorem State.setSchedule_hwDfsRequest (v : List Turn) : (s.setSchedule v).hwDfsRequest = s.hwDfsRequest := rfl
@[simp] theorem State.setSchedule_clock (v : List Turn) : (s.setSchedule v).clock = s.clock := rfl
@[simp] theorem State.setSchedule_mem (v : List Turn) : (s.setSchedule v).mem = s.mem := rfl
@[simp] theorem State.setSchedule_hidden (v : List Turn) : (s.setSchedule v).hidden = s.hidden := rfl
@[simp] theorem State.setSchedule_staleBus (v : List Turn) : (s.setSchedule v).staleBus = s.staleBus := rfl
@[simp] theorem State.setSchedule_staleRom (v : List Turn) : (s.setSchedule v).staleRom = s.staleRom := rfl
@[simp] theorem State.setSchedule_parityRenewed (v : List Turn) : (s.setSchedule v).parityRenewed = s.parityRenewed := rfl
@[simp] theorem State.setSchedule_fetched (v : List Turn) : (s.setSchedule v).fetched = s.fetched := rfl
@[simp] theorem State.setSchedule_written (v : List Turn) : (s.setSchedule v).written = s.written := rfl
@[simp] theorem State.setSchedule_schedule (v : List Turn) : (s.setSchedule v).schedule = v := rfl
@[simp] theorem State.setSchedule_launch (v : List Turn) : (s.setSchedule v).launch = s.launch := rfl
@[simp] theorem State.setSchedule_draws (v : List Turn) : (s.setSchedule v).draws = s.draws := rfl

/-! ### State.tick -/

@[simp] theorem State.tick_cfg : (s.tick).cfg = s.cfg := rfl
@[simp] theorem State.tick_regs : (s.tick).regs = s.regs := rfl
@[simp] theorem State.tick_pc : (s.tick).pc = s.pc := rfl
@[simp] theorem State.tick_eflags : (s.tick).eflags = s.eflags := rfl
@[simp] theorem State.tick_cr0 : (s.tick).cr0 = s.cr0 := rfl
@[simp] theorem State.tick_msr : (s.tick).msr = s.msr := rfl
@[simp] theorem State.tick_msr1000Written : (s.tick).msr1000Written = s.msr1000Written := rfl
@[simp] theorem State.tick_nmiPending : (s.tick).nmiPending = s.nmiPending := rfl
@[simp] theorem State.tick_hwDfsRequest : (s.tick).hwDfsRequest = s.hwDfsRequest := rfl
@[simp] theorem State.tick_clock : (s.tick).clock = s.clock := rfl
@[simp] theorem State.tick_mem : (s.tick).mem = s.mem := rfl
@[simp] theorem State.tick_hidden : (s.tick).hidden = s.hidden := rfl
@[simp] theorem State.tick_staleBus : (s.tick).staleBus = s.staleBus := rfl
@[simp] theorem State.tick_staleRom : (s.tick).staleRom = s.staleRom := rfl
@[simp] theorem State.tick_parityRenewed : (s.tick).parityRenewed = s.parityRenewed := rfl
@[simp] theorem State.tick_fetched : (s.tick).fetched = s.fetched := rfl
@[simp] theorem State.tick_written : (s.tick).written = s.written := rfl
@[simp] theorem State.tick_schedule : (s.tick).schedule = s.schedule := rfl
@[simp] theorem State.tick_launch : (s.tick).launch = s.launch := rfl
@[simp] theorem State.tick_draws : (s.tick).draws = s.draws + 1 := rfl

/-! ### State.setReg -/

@[simp] theorem State.setReg_cfg (r : Reg) (v : Word) : (s.setReg r v).cfg = s.cfg := rfl
@[simp] theorem State.setReg_regs (r : Reg) (v : Word) : (s.setReg r v).regs = s.regs.set r v := rfl
@[simp] theorem State.setReg_pc (r : Reg) (v : Word) : (s.setReg r v).pc = s.pc := rfl
@[simp] theorem State.setReg_eflags (r : Reg) (v : Word) : (s.setReg r v).eflags = s.eflags := rfl
@[simp] theorem State.setReg_cr0 (r : Reg) (v : Word) : (s.setReg r v).cr0 = s.cr0 := rfl
@[simp] theorem State.setReg_msr (r : Reg) (v : Word) : (s.setReg r v).msr = s.msr := rfl
@[simp] theorem State.setReg_msr1000Written (r : Reg) (v : Word) : (s.setReg r v).msr1000Written = s.msr1000Written := rfl
@[simp] theorem State.setReg_nmiPending (r : Reg) (v : Word) : (s.setReg r v).nmiPending = s.nmiPending := rfl
@[simp] theorem State.setReg_hwDfsRequest (r : Reg) (v : Word) : (s.setReg r v).hwDfsRequest = s.hwDfsRequest := rfl
@[simp] theorem State.setReg_clock (r : Reg) (v : Word) : (s.setReg r v).clock = s.clock := rfl
@[simp] theorem State.setReg_mem (r : Reg) (v : Word) : (s.setReg r v).mem = s.mem := rfl
@[simp] theorem State.setReg_hidden (r : Reg) (v : Word) : (s.setReg r v).hidden = s.hidden := rfl
@[simp] theorem State.setReg_staleBus (r : Reg) (v : Word) : (s.setReg r v).staleBus = s.staleBus := rfl
@[simp] theorem State.setReg_staleRom (r : Reg) (v : Word) : (s.setReg r v).staleRom = s.staleRom := rfl
@[simp] theorem State.setReg_parityRenewed (r : Reg) (v : Word) : (s.setReg r v).parityRenewed = s.parityRenewed := rfl
@[simp] theorem State.setReg_fetched (r : Reg) (v : Word) : (s.setReg r v).fetched = s.fetched := rfl
@[simp] theorem State.setReg_written (r : Reg) (v : Word) : (s.setReg r v).written = s.written := rfl
@[simp] theorem State.setReg_schedule (r : Reg) (v : Word) : (s.setReg r v).schedule = s.schedule := rfl
@[simp] theorem State.setReg_launch (r : Reg) (v : Word) : (s.setReg r v).launch = s.launch := rfl
@[simp] theorem State.setReg_draws (r : Reg) (v : Word) : (s.setReg r v).draws = s.draws := rfl

/-! ### writeReg -/

@[simp] theorem writeReg_cfg (w : OpSize) (r : Reg) (v : Word) : (writeReg s w r v).cfg = s.cfg := rfl
@[simp] theorem writeReg_regs (w : OpSize) (r : Reg) (v : Word) : (writeReg s w r v).regs = s.regs.set r (mergeReg w (s.reg r) v) := rfl
@[simp] theorem writeReg_pc (w : OpSize) (r : Reg) (v : Word) : (writeReg s w r v).pc = s.pc := rfl
@[simp] theorem writeReg_eflags (w : OpSize) (r : Reg) (v : Word) : (writeReg s w r v).eflags = s.eflags := rfl
@[simp] theorem writeReg_cr0 (w : OpSize) (r : Reg) (v : Word) : (writeReg s w r v).cr0 = s.cr0 := rfl
@[simp] theorem writeReg_msr (w : OpSize) (r : Reg) (v : Word) : (writeReg s w r v).msr = s.msr := rfl
@[simp] theorem writeReg_msr1000Written (w : OpSize) (r : Reg) (v : Word) : (writeReg s w r v).msr1000Written = s.msr1000Written := rfl
@[simp] theorem writeReg_nmiPending (w : OpSize) (r : Reg) (v : Word) : (writeReg s w r v).nmiPending = s.nmiPending := rfl
@[simp] theorem writeReg_hwDfsRequest (w : OpSize) (r : Reg) (v : Word) : (writeReg s w r v).hwDfsRequest = s.hwDfsRequest := rfl
@[simp] theorem writeReg_clock (w : OpSize) (r : Reg) (v : Word) : (writeReg s w r v).clock = s.clock := rfl
@[simp] theorem writeReg_mem (w : OpSize) (r : Reg) (v : Word) : (writeReg s w r v).mem = s.mem := rfl
@[simp] theorem writeReg_hidden (w : OpSize) (r : Reg) (v : Word) : (writeReg s w r v).hidden = s.hidden := rfl
@[simp] theorem writeReg_staleBus (w : OpSize) (r : Reg) (v : Word) : (writeReg s w r v).staleBus = s.staleBus := rfl
@[simp] theorem writeReg_staleRom (w : OpSize) (r : Reg) (v : Word) : (writeReg s w r v).staleRom = s.staleRom := rfl
@[simp] theorem writeReg_parityRenewed (w : OpSize) (r : Reg) (v : Word) : (writeReg s w r v).parityRenewed = s.parityRenewed := rfl
@[simp] theorem writeReg_fetched (w : OpSize) (r : Reg) (v : Word) : (writeReg s w r v).fetched = s.fetched := rfl
@[simp] theorem writeReg_written (w : OpSize) (r : Reg) (v : Word) : (writeReg s w r v).written = s.written := rfl
@[simp] theorem writeReg_schedule (w : OpSize) (r : Reg) (v : Word) : (writeReg s w r v).schedule = s.schedule := rfl
@[simp] theorem writeReg_launch (w : OpSize) (r : Reg) (v : Word) : (writeReg s w r v).launch = s.launch := rfl
@[simp] theorem writeReg_draws (w : OpSize) (r : Reg) (v : Word) : (writeReg s w r v).draws = s.draws := rfl

/-! ### State.setStatusFlags -/

@[simp] theorem State.setStatusFlags_cfg (v : Word) : (s.setStatusFlags v).cfg = s.cfg := rfl
@[simp] theorem State.setStatusFlags_regs (v : Word) : (s.setStatusFlags v).regs = s.regs := rfl
@[simp] theorem State.setStatusFlags_pc (v : Word) : (s.setStatusFlags v).pc = s.pc := rfl
@[simp] theorem State.setStatusFlags_eflags (v : Word) : (s.setStatusFlags v).eflags = withStatusFlags s.eflags v := rfl
@[simp] theorem State.setStatusFlags_cr0 (v : Word) : (s.setStatusFlags v).cr0 = s.cr0 := rfl
@[simp] theorem State.setStatusFlags_msr (v : Word) : (s.setStatusFlags v).msr = s.msr := rfl
@[simp] theorem State.setStatusFlags_msr1000Written (v : Word) : (s.setStatusFlags v).msr1000Written = s.msr1000Written := rfl
@[simp] theorem State.setStatusFlags_nmiPending (v : Word) : (s.setStatusFlags v).nmiPending = s.nmiPending := rfl
@[simp] theorem State.setStatusFlags_hwDfsRequest (v : Word) : (s.setStatusFlags v).hwDfsRequest = s.hwDfsRequest := rfl
@[simp] theorem State.setStatusFlags_clock (v : Word) : (s.setStatusFlags v).clock = s.clock := rfl
@[simp] theorem State.setStatusFlags_mem (v : Word) : (s.setStatusFlags v).mem = s.mem := rfl
@[simp] theorem State.setStatusFlags_hidden (v : Word) : (s.setStatusFlags v).hidden = s.hidden := rfl
@[simp] theorem State.setStatusFlags_staleBus (v : Word) : (s.setStatusFlags v).staleBus = s.staleBus := rfl
@[simp] theorem State.setStatusFlags_staleRom (v : Word) : (s.setStatusFlags v).staleRom = s.staleRom := rfl
@[simp] theorem State.setStatusFlags_parityRenewed (v : Word) : (s.setStatusFlags v).parityRenewed = s.parityRenewed := rfl
@[simp] theorem State.setStatusFlags_fetched (v : Word) : (s.setStatusFlags v).fetched = s.fetched := rfl
@[simp] theorem State.setStatusFlags_written (v : Word) : (s.setStatusFlags v).written = s.written := rfl
@[simp] theorem State.setStatusFlags_schedule (v : Word) : (s.setStatusFlags v).schedule = s.schedule := rfl
@[simp] theorem State.setStatusFlags_launch (v : Word) : (s.setStatusFlags v).launch = s.launch := rfl
@[simp] theorem State.setStatusFlags_draws (v : Word) : (s.setStatusFlags v).draws = s.draws := rfl

/-! ### State.setMemByte -/

@[simp] theorem State.setMemByte_cfg (pa : Nat) (b : Byte) : (s.setMemByte pa b).cfg = s.cfg := rfl
@[simp] theorem State.setMemByte_regs (pa : Nat) (b : Byte) : (s.setMemByte pa b).regs = s.regs := rfl
@[simp] theorem State.setMemByte_pc (pa : Nat) (b : Byte) : (s.setMemByte pa b).pc = s.pc := rfl
@[simp] theorem State.setMemByte_eflags (pa : Nat) (b : Byte) : (s.setMemByte pa b).eflags = s.eflags := rfl
@[simp] theorem State.setMemByte_cr0 (pa : Nat) (b : Byte) : (s.setMemByte pa b).cr0 = s.cr0 := rfl
@[simp] theorem State.setMemByte_msr (pa : Nat) (b : Byte) : (s.setMemByte pa b).msr = s.msr := rfl
@[simp] theorem State.setMemByte_msr1000Written (pa : Nat) (b : Byte) : (s.setMemByte pa b).msr1000Written = s.msr1000Written := rfl
@[simp] theorem State.setMemByte_nmiPending (pa : Nat) (b : Byte) : (s.setMemByte pa b).nmiPending = s.nmiPending := rfl
@[simp] theorem State.setMemByte_hwDfsRequest (pa : Nat) (b : Byte) : (s.setMemByte pa b).hwDfsRequest = s.hwDfsRequest := rfl
@[simp] theorem State.setMemByte_clock (pa : Nat) (b : Byte) : (s.setMemByte pa b).clock = s.clock := rfl
@[simp] theorem State.setMemByte_mem (pa : Nat) (b : Byte) : (s.setMemByte pa b).mem = memSet s.mem pa b := rfl
@[simp] theorem State.setMemByte_hidden (pa : Nat) (b : Byte) : (s.setMemByte pa b).hidden = s.hidden := rfl
@[simp] theorem State.setMemByte_staleBus (pa : Nat) (b : Byte) : (s.setMemByte pa b).staleBus = s.staleBus := rfl
@[simp] theorem State.setMemByte_staleRom (pa : Nat) (b : Byte) : (s.setMemByte pa b).staleRom = s.staleRom := rfl
@[simp] theorem State.setMemByte_parityRenewed (pa : Nat) (b : Byte) : (s.setMemByte pa b).parityRenewed = s.parityRenewed := rfl
@[simp] theorem State.setMemByte_fetched (pa : Nat) (b : Byte) : (s.setMemByte pa b).fetched = s.fetched := rfl
@[simp] theorem State.setMemByte_written (pa : Nat) (b : Byte) : (s.setMemByte pa b).written = s.written := rfl
@[simp] theorem State.setMemByte_schedule (pa : Nat) (b : Byte) : (s.setMemByte pa b).schedule = s.schedule := rfl
@[simp] theorem State.setMemByte_launch (pa : Nat) (b : Byte) : (s.setMemByte pa b).launch = s.launch := rfl
@[simp] theorem State.setMemByte_draws (pa : Nat) (b : Byte) : (s.setMemByte pa b).draws = s.draws := rfl

/-! ### State.renewCopy -/

@[simp] theorem State.renewCopy_cfg (pa : Nat) : (s.renewCopy pa).cfg = s.cfg := rfl
@[simp] theorem State.renewCopy_regs (pa : Nat) : (s.renewCopy pa).regs = s.regs := rfl
@[simp] theorem State.renewCopy_pc (pa : Nat) : (s.renewCopy pa).pc = s.pc := rfl
@[simp] theorem State.renewCopy_eflags (pa : Nat) : (s.renewCopy pa).eflags = s.eflags := rfl
@[simp] theorem State.renewCopy_cr0 (pa : Nat) : (s.renewCopy pa).cr0 = s.cr0 := rfl
@[simp] theorem State.renewCopy_msr (pa : Nat) : (s.renewCopy pa).msr = s.msr := rfl
@[simp] theorem State.renewCopy_msr1000Written (pa : Nat) : (s.renewCopy pa).msr1000Written = s.msr1000Written := rfl
@[simp] theorem State.renewCopy_nmiPending (pa : Nat) : (s.renewCopy pa).nmiPending = s.nmiPending := rfl
@[simp] theorem State.renewCopy_hwDfsRequest (pa : Nat) : (s.renewCopy pa).hwDfsRequest = s.hwDfsRequest := rfl
@[simp] theorem State.renewCopy_clock (pa : Nat) : (s.renewCopy pa).clock = s.clock := rfl
@[simp] theorem State.renewCopy_mem (pa : Nat) : (s.renewCopy pa).mem = s.mem := rfl
@[simp] theorem State.renewCopy_hidden (pa : Nat) : (s.renewCopy pa).hidden = s.hidden := rfl
@[simp] theorem State.renewCopy_staleBus (pa : Nat) : (s.renewCopy pa).staleBus = s.staleBus := rfl
@[simp] theorem State.renewCopy_staleRom (pa : Nat) : (s.renewCopy pa).staleRom = s.staleRom := rfl
@[simp] theorem State.renewCopy_parityRenewed (pa : Nat) : (s.renewCopy pa).parityRenewed = s.parityRenewed.map (addrInsert pa) := rfl
@[simp] theorem State.renewCopy_fetched (pa : Nat) : (s.renewCopy pa).fetched = s.fetched := rfl
@[simp] theorem State.renewCopy_written (pa : Nat) : (s.renewCopy pa).written = s.written := rfl
@[simp] theorem State.renewCopy_schedule (pa : Nat) : (s.renewCopy pa).schedule = s.schedule := rfl
@[simp] theorem State.renewCopy_launch (pa : Nat) : (s.renewCopy pa).launch = s.launch := rfl
@[simp] theorem State.renewCopy_draws (pa : Nat) : (s.renewCopy pa).draws = s.draws := rfl

/-! ### State.flushCache -/

@[simp] theorem State.flushCache_cfg : (s.flushCache).cfg = s.cfg := rfl
@[simp] theorem State.flushCache_regs : (s.flushCache).regs = s.regs := rfl
@[simp] theorem State.flushCache_pc : (s.flushCache).pc = s.pc := rfl
@[simp] theorem State.flushCache_eflags : (s.flushCache).eflags = s.eflags := rfl
@[simp] theorem State.flushCache_cr0 : (s.flushCache).cr0 = s.cr0 := rfl
@[simp] theorem State.flushCache_msr : (s.flushCache).msr = s.msr := rfl
@[simp] theorem State.flushCache_msr1000Written : (s.flushCache).msr1000Written = s.msr1000Written := rfl
@[simp] theorem State.flushCache_nmiPending : (s.flushCache).nmiPending = s.nmiPending := rfl
@[simp] theorem State.flushCache_hwDfsRequest : (s.flushCache).hwDfsRequest = s.hwDfsRequest := rfl
@[simp] theorem State.flushCache_clock : (s.flushCache).clock = s.clock := rfl
@[simp] theorem State.flushCache_mem : (s.flushCache).mem = s.mem := rfl
@[simp] theorem State.flushCache_hidden : (s.flushCache).hidden = s.hidden := rfl
@[simp] theorem State.flushCache_staleBus : (s.flushCache).staleBus = [] := rfl
@[simp] theorem State.flushCache_staleRom : (s.flushCache).staleRom = [] := rfl
@[simp] theorem State.flushCache_parityRenewed : (s.flushCache).parityRenewed = none := rfl
@[simp] theorem State.flushCache_fetched : (s.flushCache).fetched = s.fetched := rfl
@[simp] theorem State.flushCache_written : (s.flushCache).written = s.written := rfl
@[simp] theorem State.flushCache_schedule : (s.flushCache).schedule = s.schedule := rfl
@[simp] theorem State.flushCache_launch : (s.flushCache).launch = s.launch := rfl
@[simp] theorem State.flushCache_draws : (s.flushCache).draws = s.draws := rfl

/-! ### State.noteFetched -/

@[simp] theorem State.noteFetched_cfg (pas : List Nat) : (s.noteFetched pas).cfg = s.cfg := rfl
@[simp] theorem State.noteFetched_regs (pas : List Nat) : (s.noteFetched pas).regs = s.regs := rfl
@[simp] theorem State.noteFetched_pc (pas : List Nat) : (s.noteFetched pas).pc = s.pc := rfl
@[simp] theorem State.noteFetched_eflags (pas : List Nat) : (s.noteFetched pas).eflags = s.eflags := rfl
@[simp] theorem State.noteFetched_cr0 (pas : List Nat) : (s.noteFetched pas).cr0 = s.cr0 := rfl
@[simp] theorem State.noteFetched_msr (pas : List Nat) : (s.noteFetched pas).msr = s.msr := rfl
@[simp] theorem State.noteFetched_msr1000Written (pas : List Nat) : (s.noteFetched pas).msr1000Written = s.msr1000Written := rfl
@[simp] theorem State.noteFetched_nmiPending (pas : List Nat) : (s.noteFetched pas).nmiPending = s.nmiPending := rfl
@[simp] theorem State.noteFetched_hwDfsRequest (pas : List Nat) : (s.noteFetched pas).hwDfsRequest = s.hwDfsRequest := rfl
@[simp] theorem State.noteFetched_clock (pas : List Nat) : (s.noteFetched pas).clock = s.clock := rfl
@[simp] theorem State.noteFetched_mem (pas : List Nat) : (s.noteFetched pas).mem = s.mem := rfl
@[simp] theorem State.noteFetched_hidden (pas : List Nat) : (s.noteFetched pas).hidden = s.hidden := rfl
@[simp] theorem State.noteFetched_staleBus (pas : List Nat) : (s.noteFetched pas).staleBus = s.staleBus := rfl
@[simp] theorem State.noteFetched_staleRom (pas : List Nat) : (s.noteFetched pas).staleRom = s.staleRom := rfl
@[simp] theorem State.noteFetched_parityRenewed (pas : List Nat) : (s.noteFetched pas).parityRenewed = s.parityRenewed := rfl
@[simp] theorem State.noteFetched_fetched (pas : List Nat) : (s.noteFetched pas).fetched = addrInsertAll pas s.fetched := rfl
@[simp] theorem State.noteFetched_written (pas : List Nat) : (s.noteFetched pas).written = s.written := rfl
@[simp] theorem State.noteFetched_schedule (pas : List Nat) : (s.noteFetched pas).schedule = s.schedule := rfl
@[simp] theorem State.noteFetched_launch (pas : List Nat) : (s.noteFetched pas).launch = s.launch := rfl
@[simp] theorem State.noteFetched_draws (pas : List Nat) : (s.noteFetched pas).draws = s.draws := rfl

/-! ### State.setR1000 -/

@[simp] theorem State.setR1000_cfg (v : Quad) : (s.setR1000 v).cfg = s.cfg := rfl
@[simp] theorem State.setR1000_regs (v : Quad) : (s.setR1000 v).regs = s.regs := rfl
@[simp] theorem State.setR1000_pc (v : Quad) : (s.setR1000 v).pc = s.pc := rfl
@[simp] theorem State.setR1000_eflags (v : Quad) : (s.setR1000 v).eflags = s.eflags := rfl
@[simp] theorem State.setR1000_cr0 (v : Quad) : (s.setR1000 v).cr0 = s.cr0 := rfl
@[simp] theorem State.setR1000_msr (v : Quad) : (s.setR1000 v).msr = s.msr.set .r1000 v := rfl
@[simp] theorem State.setR1000_msr1000Written (v : Quad) : (s.setR1000 v).msr1000Written = s.msr1000Written := rfl
@[simp] theorem State.setR1000_nmiPending (v : Quad) : (s.setR1000 v).nmiPending = s.nmiPending := rfl
@[simp] theorem State.setR1000_hwDfsRequest (v : Quad) : (s.setR1000 v).hwDfsRequest = s.hwDfsRequest := rfl
@[simp] theorem State.setR1000_clock (v : Quad) : (s.setR1000 v).clock = s.clock := rfl
@[simp] theorem State.setR1000_mem (v : Quad) : (s.setR1000 v).mem = s.mem := rfl
@[simp] theorem State.setR1000_hidden (v : Quad) : (s.setR1000 v).hidden = s.hidden := rfl
@[simp] theorem State.setR1000_staleBus (v : Quad) : (s.setR1000 v).staleBus = s.staleBus := rfl
@[simp] theorem State.setR1000_staleRom (v : Quad) : (s.setR1000 v).staleRom = s.staleRom := rfl
@[simp] theorem State.setR1000_parityRenewed (v : Quad) : (s.setR1000 v).parityRenewed = s.parityRenewed := rfl
@[simp] theorem State.setR1000_fetched (v : Quad) : (s.setR1000 v).fetched = s.fetched := rfl
@[simp] theorem State.setR1000_written (v : Quad) : (s.setR1000 v).written = s.written := rfl
@[simp] theorem State.setR1000_schedule (v : Quad) : (s.setR1000 v).schedule = s.schedule := rfl
@[simp] theorem State.setR1000_launch (v : Quad) : (s.setR1000 v).launch = s.launch := rfl
@[simp] theorem State.setR1000_draws (v : Quad) : (s.setR1000 v).draws = s.draws := rfl

/-! ### State.setR1002 -/

@[simp] theorem State.setR1002_cfg (v : Quad) : (s.setR1002 v).cfg = s.cfg := rfl
@[simp] theorem State.setR1002_regs (v : Quad) : (s.setR1002 v).regs = s.regs := rfl
@[simp] theorem State.setR1002_pc (v : Quad) : (s.setR1002 v).pc = s.pc := rfl
@[simp] theorem State.setR1002_eflags (v : Quad) : (s.setR1002 v).eflags = s.eflags := rfl
@[simp] theorem State.setR1002_cr0 (v : Quad) : (s.setR1002 v).cr0 = s.cr0 := rfl
@[simp] theorem State.setR1002_msr (v : Quad) : (s.setR1002 v).msr = s.msr.set .r1002 v := rfl
@[simp] theorem State.setR1002_msr1000Written (v : Quad) : (s.setR1002 v).msr1000Written = s.msr1000Written := rfl
@[simp] theorem State.setR1002_nmiPending (v : Quad) : (s.setR1002 v).nmiPending = s.nmiPending := rfl
@[simp] theorem State.setR1002_hwDfsRequest (v : Quad) : (s.setR1002 v).hwDfsRequest = s.hwDfsRequest := rfl
@[simp] theorem State.setR1002_clock (v : Quad) : (s.setR1002 v).clock = s.clock := rfl
@[simp] theorem State.setR1002_mem (v : Quad) : (s.setR1002 v).mem = s.mem := rfl
@[simp] theorem State.setR1002_hidden (v : Quad) : (s.setR1002 v).hidden = s.hidden := rfl
@[simp] theorem State.setR1002_staleBus (v : Quad) : (s.setR1002 v).staleBus = s.staleBus := rfl
@[simp] theorem State.setR1002_staleRom (v : Quad) : (s.setR1002 v).staleRom = s.staleRom := rfl
@[simp] theorem State.setR1002_parityRenewed (v : Quad) : (s.setR1002 v).parityRenewed = s.parityRenewed := rfl
@[simp] theorem State.setR1002_fetched (v : Quad) : (s.setR1002 v).fetched = s.fetched := rfl
@[simp] theorem State.setR1002_written (v : Quad) : (s.setR1002 v).written = s.written := rfl
@[simp] theorem State.setR1002_schedule (v : Quad) : (s.setR1002 v).schedule = s.schedule := rfl
@[simp] theorem State.setR1002_launch (v : Quad) : (s.setR1002 v).launch = s.launch := rfl
@[simp] theorem State.setR1002_draws (v : Quad) : (s.setR1002 v).draws = s.draws := rfl

/-! ### Files of registers -/

@[simp] theorem Regs.get_set_same (g : Regs) (r : Reg) (v : Word) : (g.set r v).get r = v := by
  cases r <;> rfl

theorem Regs.get_set_other (g : Regs) {r q : Reg} (h : q ≠ r) (v : Word) : (g.set r v).get q = g.get q := by
  cases r <;> cases q <;> first | rfl | exact absurd rfl h

@[simp] theorem State.reg_setReg_same (r : Reg) (v : Word) : (s.setReg r v).reg r = v := Regs.get_set_same _ _ _

theorem State.reg_setReg_other {r q : Reg} (h : q ≠ r) (v : Word) : (s.setReg r v).reg q = s.reg q :=
  Regs.get_set_other _ h _

/-- Registers are equal when every register reads the same. -/
theorem Regs.ext_get {g h : Regs} (e : ∀ r, g.get r = h.get r) : g = h := by
  cases g
  cases h
  simp only [Regs.mk.injEq]
  exact ⟨e .eax, e .ecx, e .edx, e .ebx, e .esp, e .ebp, e .esi, e .edi⟩

@[simp] theorem MsrFile.get_set_same (f : MsrFile) (m : MsrId) (v : Quad) : (f.set m v).get m = v := by
  cases m <;> rfl

theorem MsrFile.get_set_other (f : MsrFile) {m q : MsrId} (h : q ≠ m) (v : Quad) :
    (f.set m v).get q = f.get q := by
  cases m <;> cases q <;> first | rfl | exact absurd rfl h

end Sys2Proof.Machine
end

