-- ==== Sys2Proof/Laws/Memory.lean ====
section
/-! SUPPORT. The laws of memory as a sorted list of bytes and of the sorted address sets: read after write, and the
canonical form every operation keeps. -/

namespace Sys2Proof.Machine

/-! ### Memory -/

@[simp] theorem memGet_memSet_same (m : Memory) (a : Nat) (b : Byte) : memGet (memSet m a b) a = some b := by
  induction m with
  | nil => simp [memSet, memGet]
  | cons c rest ih =>
    simp only [memSet]
    split
    · simp [memGet]
    · split
      · simp [memGet]
      · rename_i h1 h2
        simp [memGet, Ne.symm h2, ih]

theorem memGet_memSet_other (m : Memory) {a x : Nat} (h : x ≠ a) (b : Byte) :
    memGet (memSet m a b) x = memGet m x := by
  induction m with
  | nil => simp [memSet, memGet, Ne.symm h]
  | cons c rest ih =>
    simp only [memSet]
    split
    · simp [memGet, Ne.symm h]
    · split
      · rename_i h1 h2
        subst h2
        simp [memGet, Ne.symm h]
      · simp only [memGet, ih]

/-- A cell of the written list is the new one or an old one. -/
theorem mem_memSet {m : Memory} {a : Nat} {b : Byte} {c : Host.Cell} (h : c ∈ memSet m a b) : c = (a, b) ∨ c ∈ m := by
  induction m with
  | nil => simpa [memSet] using h
  | cons d rest ih =>
    simp only [memSet] at h
    split at h
    · simpa using h
    · split at h
      · rcases List.mem_cons.1 h with h | h
        · exact .inl h
        · exact .inr (List.mem_cons_of_mem _ h)
      · rcases List.mem_cons.1 h with h | h
        · exact .inr (h ▸ List.mem_cons_self)
        · exact (ih h).imp id (List.mem_cons_of_mem _)

/-- A write keeps the canonical form. -/
theorem memSet_wf {m : Memory} (h : Memory.wf m = true) (a : Nat) (b : Byte) : Memory.wf (memSet m a b) = true := by
  simp only [Memory.wf, decide_eq_true_eq] at *
  induction m with
  | nil => simp [memSet]
  | cons c rest ih =>
    obtain ⟨hc, hr⟩ := List.pairwise_cons.1 h
    simp only [memSet]
    split
    · rename_i hlt
      refine List.pairwise_cons.2 ⟨fun d hd => ?_, h⟩
      rcases List.mem_cons.1 hd with rfl | hd
      · exact hlt
      · exact Nat.lt_trans hlt (hc d hd)
    · split
      · rename_i heq
        exact List.pairwise_cons.2 ⟨fun d hd => heq ▸ hc d hd, hr⟩
      · rename_i h1 h2
        refine List.pairwise_cons.2 ⟨fun d hd => ?_, ih hr⟩
        rcases mem_memSet hd with rfl | hd
        · show c.1 < a
          omega
        · exact hc d hd

theorem reset_memory_wf : Memory.wf State.reset.mem = true := rfl

@[simp] theorem memByte_setMemByte_same (s : State) (pa : Nat) (b : Byte) : (s.setMemByte pa b).memByte pa = b := by
  simp [State.memByte]

theorem memByte_setMemByte_other (s : State) {pa x : Nat} (h : x ≠ pa) (b : Byte) :
    (s.setMemByte pa b).memByte x = s.memByte x := by
  simp [State.memByte, memGet_memSet_other _ h]

/-- A byte of memory is a function of the list and of the launch. -/
theorem memByte_congr {s t : State} (hm : t.mem = s.mem) (hl : t.launch = s.launch) (a : Nat) :
    t.memByte a = s.memByte a := by
  simp [State.memByte, hm, hl]

/-! ### Address sets -/

theorem mem_addrInsert {a x : Nat} {l : List Nat} : x ∈ addrInsert a l ↔ x = a ∨ x ∈ l := by
  induction l with
  | nil => simp [addrInsert]
  | cons b rest ih =>
    simp only [addrInsert]
    split
    · simp
    · split
      · rename_i h
        simp [h]
      · simp only [List.mem_cons, ih]
        tauto

theorem addrInsert_wf {l : List Nat} (h : addrSetWf l = true) (a : Nat) : addrSetWf (addrInsert a l) = true := by
  simp only [addrSetWf, decide_eq_true_eq] at *
  induction l with
  | nil => simp [addrInsert]
  | cons b rest ih =>
    obtain ⟨hb, hr⟩ := List.pairwise_cons.1 h
    simp only [addrInsert]
    split
    · rename_i hlt
      refine List.pairwise_cons.2 ⟨fun d hd => ?_, h⟩
      rcases List.mem_cons.1 hd with rfl | hd
      · exact hlt
      · exact Nat.lt_trans hlt (hb d hd)
    · split
      · exact h
      · refine List.pairwise_cons.2 ⟨fun d hd => ?_, ih hr⟩
        rcases mem_addrInsert.1 hd with rfl | hd
        · omega
        · exact hb d hd

@[simp] theorem mem_addrErase {a x : Nat} {l : List Nat} : x ∈ addrErase a l ↔ x ∈ l ∧ x ≠ a := by
  simp [addrErase]

theorem addrErase_wf {l : List Nat} (h : addrSetWf l = true) (a : Nat) : addrSetWf (addrErase a l) = true := by
  simp only [addrSetWf, decide_eq_true_eq] at h
  exact decide_eq_true (h.filter _)

theorem mem_addrInsertAll {as : List Nat} {x : Nat} {l : List Nat} :
    x ∈ addrInsertAll as l ↔ x ∈ as ∨ x ∈ l := by
  induction as generalizing l with
  | nil => simp [addrInsertAll]
  | cons a rest ih =>
    show x ∈ addrInsertAll rest (addrInsert a l) ↔ _
    rw [ih, mem_addrInsert, List.mem_cons]
    tauto

theorem addrInsertAll_wf (as : List Nat) {l : List Nat} (h : addrSetWf l = true) :
    addrSetWf (addrInsertAll as l) = true := by
  induction as generalizing l with
  | nil => exact h
  | cons a rest ih => exact ih (addrInsert_wf h a)

end Sys2Proof.Machine
end

