-- ==== Sys2Proof/Laws/Ops.lean ====
section
/-! SUPPORT. One lemma per shared operation: everything it can do when it answers. -/

namespace Sys2Proof.Machine

open Host (Outcome)

/-! ### The end of an instruction and stops -/

/-- An instruction completes exactly where pc does not wrap, and then only pc changes. -/
theorem advance_next_iff {len : Nat} {s t : State} :
    advance len s = .next t ↔ pcWraps s len = false ∧ t = s.setPc (s.pc + BitVec.ofNat 32 len) := by
  unfold advance
  cases pcWraps s len <;> simp [eq_comm]

theorem advance_of_fits {len : Nat} {s : State} (h : pcWraps s len = false) :
    advance len s = .next (s.setPc (s.pc + BitVec.ofNat 32 len)) := advance_next_iff.2 ⟨h, rfl⟩

/-- A stop is no next state. -/
@[simp] theorem stopWith_ne_next (st : Stop) (s t : State) : stopWith st s ≠ .next t := by
  cases st <;> simp [stopWith, takeException]

/-- Whether pc wraps depends on pc and the mode only. -/
theorem pcWraps_congr {s t : State} (hp : t.pc = s.pc) (hc : t.cfg = s.cfg) (len : Nat) :
    pcWraps t len = pcWraps s len := by
  simp [pcWraps, hp, hc]

/-- pc does not wrap exactly where R22 does not refuse: `pc + len` is at most FFFFFFFFh, and in 16-bit mode the 16-bit
offset at most FFFFh. -/
theorem pcWraps_eq_false_iff {s : State} {len : Nat} :
    pcWraps s len = false ↔
      s.pc.toNat + len ≤ 0xFFFFFFFF ∧ (s.cfg.defaultSize = .w16 → s.pc.toNat % 0x10000 + len ≤ 0xFFFF) := by
  cases h : s.cfg.defaultSize <;> simp [pcWraps, h] <;> omega

/-- Without wrap, the new pc is the old one plus the length, as numbers (R22). -/
theorem toNat_advance_pc {s : State} {len : Nat} (h : pcWraps s len = false) :
    (s.pc + BitVec.ofNat 32 len).toNat = s.pc.toNat + len := by
  simp only [pcWraps, Bool.or_eq_false_iff, decide_eq_false_iff_not] at h
  rw [BitVec.toNat_add, BitVec.toNat_ofNat]
  omega

/-! ### Free values used -/

/-- The state after k free values have been used. -/
def State.ticks (s : State) (k : Nat) : State := { s with draws := s.draws + k }

@[simp] theorem State.ticks_zero (s : State) : s.ticks 0 = s := rfl
@[simp] theorem State.tick_ticks (s : State) (k : Nat) : s.tick.ticks k = s.ticks (k + 1) := by
  simp only [State.ticks, State.tick]
  congr 1
  omega
@[simp] theorem State.ticks_cfg (s : State) (k : Nat) : (s.ticks k).cfg = s.cfg := rfl
@[simp] theorem State.ticks_regs (s : State) (k : Nat) : (s.ticks k).regs = s.regs := rfl
@[simp] theorem State.ticks_pc (s : State) (k : Nat) : (s.ticks k).pc = s.pc := rfl
@[simp] theorem State.ticks_eflags (s : State) (k : Nat) : (s.ticks k).eflags = s.eflags := rfl
@[simp] theorem State.ticks_cr0 (s : State) (k : Nat) : (s.ticks k).cr0 = s.cr0 := rfl
@[simp] theorem State.ticks_msr (s : State) (k : Nat) : (s.ticks k).msr = s.msr := rfl
@[simp] theorem State.ticks_mem (s : State) (k : Nat) : (s.ticks k).mem = s.mem := rfl
@[simp] theorem State.ticks_launch (s : State) (k : Nat) : (s.ticks k).launch = s.launch := rfl
@[simp] theorem State.ticks_draws (s : State) (k : Nat) : (s.ticks k).draws = s.draws + k := rfl

/-! ### The address path -/

/-- A physical address comes from the one path of R84. -/
theorem physAddr_ok_iff {s : State} {lin : Word} {pa : Nat} :
    physAddr s lin = .ok pa ↔
      s.paging = false ∧ s.a20Open lin = false ∧ s.extA20Open lin = false ∧
        narrowPhys s.cfg (if s.a20Masked then clearBit20 lin else lin) = .ok pa := by
  unfold physAddr
  cases s.paging <;> cases s.a20Open lin <;> cases s.extA20Open lin <;> simp

/-- The address after the first of k + 1. -/
theorem addr_succ (lin : Word) (k : Nat) : lin + 1 + BitVec.ofNat 32 k = lin + BitVec.ofNat 32 (k + 1) := by
  rw [Nat.add_comm k 1, BitVec.ofNat_add, ← BitVec.add_assoc]
  rfl

/-- The address path depends on the configuration, CR0 and Register 1000h only. -/
theorem physAddr_congr {s t : State} (hc : t.cfg = s.cfg) (h0 : t.cr0 = s.cr0) (hm : t.msr = s.msr) (lin : Word) :
    physAddr t lin = physAddr s lin := by
  have e1 : t.paging = s.paging := by simp [State.paging, h0]
  have e2 : t.a20Open lin = s.a20Open lin := by simp [State.a20Open, hc, hm]
  have e3 : t.a20Masked = s.a20Masked := by simp [State.a20Masked, State.bit1000, hc, hm]
  have e4 : t.extA20Open lin = s.extA20Open lin := by simp [State.extA20Open, State.bit1000, hc, hm]
  unfold physAddr
  rw [e1, e2, e3, e4, hc]

/-- How many bits the physical addresses the path gives can have (R82): 24 while PHYS_ADDR_BITS is OPEN. -/
def physBits : Option PhysAddrBits → Nat
  | some .p24 => 24
  | some .p32 => 32
  | none => 24

theorem narrowPhys_lt {c : Config} {a : Word} {pa : Nat} (h : narrowPhys c a = .ok pa) :
    pa < 2 ^ physBits c.physAddrBits := by
  unfold narrowPhys at h
  split at h
  · rename_i p hp
    cases h
    rw [hp]
    cases p
    · exact Nat.mod_lt _ (by decide)
    · exact a.isLt
  · rename_i hp
    split at h
    · cases h
      rw [hp]
      assumption
    · cases h

/-- Whatever PHYS_ADDR_BITS is, the low 24 bits are the address's. -/
theorem narrowPhys_mod {c : Config} {a : Word} {pa : Nat} (h : narrowPhys c a = .ok pa) :
    pa % 2 ^ 24 = a.toNat % 2 ^ 24 := by
  unfold narrowPhys at h
  split at h
  · rename_i p hp
    cases h
    cases p
    · exact Nat.mod_mod _ _
    · rfl
  · split at h <;> cases h
    rfl

theorem physAddr_lt {s : State} {lin : Word} {pa : Nat} (h : physAddr s lin = .ok pa) :
    pa < 2 ^ physBits s.cfg.physAddrBits := by
  obtain ⟨-, -, -, h⟩ := physAddr_ok_iff.1 h
  exact narrowPhys_lt h

/-! ### Reading -/

theorem readByte_state (s : State) (pa : Nat) : (readByte s pa).2 = s ∨ (readByte s pa).2 = s.tick := by
  unfold readByte
  cases s.isStale pa <;> simp

/-- Staleness depends on the configuration, the model-specific registers, the two sets and the parity record. -/
theorem isStale_congr {s t : State} (hc : t.cfg = s.cfg) (hm : t.msr = s.msr) (hb : t.staleBus = s.staleBus)
    (hr : t.staleRom = s.staleRom) (hp : t.parityRenewed = s.parityRenewed) (pa : Nat) :
    t.isStale pa = s.isStale pa := by
  simp [State.isStale, State.forceExternalReads, State.bit1000, State.mayBeCached, State.cacheable, State.parityMayHit,
    hc, hm, hb, hr, hp]

/-- Only a byte whose copy is renewed leaves the bytes a parity error may have spoilt. -/
theorem parityMayHit_renew {s t : State} {pa : Nat} (h : t.parityRenewed = s.parityRenewed.map (addrInsert pa))
    (x : Nat) : t.parityMayHit x = (s.parityMayHit x && decide (x ≠ pa)) := by
  unfold State.parityMayHit
  rw [h]
  cases s.parityRenewed with
  | none => rfl
  | some l => simp [mem_addrInsert, Bool.and_comm]

theorem parityMayHit_congr {s t : State} (h : t.parityRenewed = s.parityRenewed) (x : Nat) :
    t.parityMayHit x = s.parityMayHit x := by
  unfold State.parityMayHit
  rw [h]

@[simp] theorem isStale_ticks (s : State) (k pa : Nat) : (s.ticks k).isStale pa = s.isStale pa :=
  isStale_congr (s := s) rfl rfl rfl rfl rfl pa

theorem readByte_fresh {s : State} {pa : Nat} (h : s.isStale pa = false) : readByte s pa = (s.memByte pa, s) := by
  simp [readByte, h]

/-- Reading bytes uses free values and changes nothing else; each byte read where no copy may be stale is memory's. -/
theorem readBytes_ok {n : Nat} {s s' : State} {lin : Word} {bs : List Byte} (h : readBytes n s lin = .ok (bs, s')) :
    bs.length = n ∧ (∃ k, s' = s.ticks k) ∧
      ∀ k, k < n → ∃ pa, physAddr s (lin + BitVec.ofNat 32 k) = .ok pa ∧
        (s.isStale pa = false → bs[k]? = some (s.memByte pa)) := by
  induction n generalizing s lin bs with
  | zero =>
    simp only [readBytes, Except.ok.injEq, Prod.mk.injEq] at h
    obtain ⟨rfl, rfl⟩ := h
    exact ⟨rfl, ⟨0, rfl⟩, fun k hk => absurd hk (Nat.not_lt_zero k)⟩
  | succ n ih =>
    simp only [readBytes] at h
    split at h
    · cases h
    · rename_i pa hpa
      split at h
      · cases h
      · rename_i bs' s'' hrec
        simp only [Except.ok.injEq, Prod.mk.injEq] at h
        obtain ⟨rfl, rfl⟩ := h
        obtain ⟨hlen, ⟨k, rfl⟩, hbytes⟩ := ih hrec
        obtain ⟨j, hj⟩ : ∃ j, (readByte s pa).2 = s.ticks j := by
          rcases readByte_state s pa with h | h
          · exact ⟨0, h⟩
          · exact ⟨1, h⟩
        rw [hj] at hbytes
        refine ⟨by simp [hlen], ⟨j + k, ?_⟩, fun i hi => ?_⟩
        · rw [hj]
          simp only [State.ticks]
          congr 1
          omega
        · cases i with
          | zero =>
            refine ⟨pa, by simpa using hpa, fun hst => ?_⟩
            simp [readByte_fresh hst]
          | succ i =>
            obtain ⟨pb, hpb, hb⟩ := hbytes i (by omega)
            refine ⟨pb, ?_, fun hst => ?_⟩
            · rw [← addr_succ, ← physAddr_congr (s := s) (t := s.ticks j) rfl rfl rfl]
              exact hpb
            · exact hb (by simpa using hst)

/-- Bytes can be read exactly where each has a physical address. -/
theorem readBytes_isOk {n : Nat} {s : State} {lin : Word}
    (h : ∀ k, k < n → ∃ pa, physAddr s (lin + BitVec.ofNat 32 k) = .ok pa) :
    ∃ bs s', readBytes n s lin = .ok (bs, s') := by
  induction n generalizing s lin with
  | zero => exact ⟨[], s, rfl⟩
  | succ n ih =>
    obtain ⟨pa, hpa⟩ := h 0 (by omega)
    rw [show lin + BitVec.ofNat 32 0 = lin by simp] at hpa
    obtain ⟨bs, s', hrec⟩ := ih (s := (readByte s pa).2) (lin := lin + 1) fun k hk => by
      obtain ⟨pb, hpb⟩ := h (k + 1) (by omega)
      refine ⟨pb, ?_⟩
      rw [addr_succ, physAddr_congr (s := s), hpb]
      all_goals rcases readByte_state s pa with h | h <;> simp [h]
    exact ⟨(readByte s pa).1 :: bs, s', by simp only [readBytes, hpa, hrec]⟩

/-! ### Writing -/

/-- What a write to one byte can change: memory at that byte, the staleness marks, the record of written bytes. -/
theorem writeByte_ok {s t : State} {pa : Nat} {b : Byte} (h : writeByte s pa b = .ok t) :
    pa ∉ s.fetched ∧
      t = { s with
              mem := t.mem, staleBus := t.staleBus, staleRom := t.staleRom, parityRenewed := t.parityRenewed
              written := addrInsert pa s.written } ∧
      (t.mem = s.mem ∨ t.mem = memSet s.mem pa b) ∧
      (t.staleBus = s.staleBus ∨ t.staleBus = addrErase pa s.staleBus) ∧
      (t.staleRom = s.staleRom ∨ t.staleRom = addrInsert pa s.staleRom) ∧
      (t.parityRenewed = s.parityRenewed ∨ t.parityRenewed = s.parityRenewed.map (addrInsert pa)) := by
  unfold writeByte at h
  split at h
  · cases h
  · rename_i hf
    cases h
    refine ⟨hf, ?_⟩
    unfold storeByte
    split
    · split
      · exact ⟨rfl, .inl rfl, .inl rfl, .inl rfl, .inl rfl⟩
      · exact ⟨rfl, .inl rfl, .inl rfl, .inr rfl, .inl rfl⟩
    · dsimp only
      split
      · exact ⟨rfl, .inr rfl, .inr rfl, .inr rfl, .inl rfl⟩
      · exact ⟨rfl, .inr rfl, .inr rfl, .inl rfl, .inr rfl⟩

/-- Writing bytes: only memory at the bytes' physical addresses, the staleness marks and the record of written bytes
change. -/
theorem writeBytes_ok {bs : List Byte} {s t : State} {lin : Word} (h : writeBytes bs s lin = .ok t) :
    t = { s with
            mem := t.mem, staleBus := t.staleBus, staleRom := t.staleRom, parityRenewed := t.parityRenewed
            written := t.written } ∧
      (∀ x, (∀ k, k < bs.length → physAddr s (lin + BitVec.ofNat 32 k) ≠ .ok x) → memGet t.mem x = memGet s.mem x) := by
  induction bs generalizing s lin with
  | nil =>
    simp only [writeBytes, Except.ok.injEq] at h
    subst h
    exact ⟨rfl, fun _ _ => rfl⟩
  | cons b bs ih =>
    simp only [writeBytes] at h
    split at h
    · cases h
    · rename_i pa hpa
      split at h
      · cases h
      · rename_i u hu
        obtain ⟨-, hu', hmem, -, -⟩ := writeByte_ok hu
        obtain ⟨ht, hx⟩ := ih h
        refine ⟨by rw [ht, hu'], fun x hne => ?_⟩
        rw [hx x fun k hk => ?_]
        · rcases hmem with e | e
          · rw [e]
          · rw [e, memGet_memSet_other]
            rintro rfl
            exact hne 0 (by simp) (by simpa using hpa)
        · have := hne (k + 1) (by simpa using hk)
          rw [physAddr_congr (s := s) (by rw [hu']) (by rw [hu']) (by rw [hu']), addr_succ]
          exact this

/-- What every write of one byte keeps, a write of several keeps. -/
theorem writeBytes_keeps {P : State → Prop}
    (hP : ∀ s t lin pa b, P s → physAddr s lin = .ok pa → writeByte s pa b = .ok t → P t)
    {bs : List Byte} {s t : State} {lin : Word} (hs : P s) (h : writeBytes bs s lin = .ok t) : P t := by
  induction bs generalizing s lin with
  | nil =>
    simp only [writeBytes, Except.ok.injEq] at h
    exact h ▸ hs
  | cons b bs ih =>
    simp only [writeBytes] at h
    split at h
    · cases h
    · rename_i pa hpa
      split at h
      · cases h
      · rename_i u hu
        exact ih (hP s u lin pa b hs hpa hu) h

/-! ### pc is not an input of a memory access -/

theorem readByte_setPc (s : State) (pa : Nat) (p : Word) :
    readByte (s.setPc p) pa = ((readByte s pa).1, (readByte s pa).2.setPc p) := by
  unfold readByte
  rw [isStale_congr (s := s) (t := s.setPc p) rfl rfl rfl rfl rfl]
  split <;> rfl

theorem readBytes_setPc (n : Nat) (s : State) (lin p : Word) :
    readBytes n (s.setPc p) lin = (readBytes n s lin).map fun q => (q.1, q.2.setPc p) := by
  induction n generalizing s lin with
  | zero => rfl
  | succ n ih =>
    simp only [readBytes, physAddr_congr (s := s) (t := s.setPc p) rfl rfl rfl, readByte_setPc, ih]
    cases physAddr s lin with
    | error r => rfl
    | ok pa =>
      dsimp only
      cases readBytes n (readByte s pa).2 (lin + 1) <;> rfl

theorem writeByte_setPc (s : State) (pa : Nat) (b : Byte) (p : Word) :
    writeByte (s.setPc p) pa b = (writeByte s pa b).map (·.setPc p) := by
  have h : storeByte (s.setPc p) pa b = (storeByte s pa b).setPc p := by
    unfold storeByte
    rw [show (s.setPc p).platformRomAt pa = s.platformRomAt pa from rfl, show (s.setPc p).romBit pa = s.romBit pa from rfl,
      show (s.setPc p).mayBeRomBit pa = s.mayBeRomBit pa from rfl]
    cases s.platformRomAt pa <;> cases s.romBit pa <;> cases s.mayBeRomBit pa <;> rfl
  unfold writeByte
  rw [h, State.setPc_fetched]
  by_cases hf : pa ∈ s.fetched
  · rw [if_pos hf, if_pos hf]
    rfl
  · rw [if_neg hf, if_neg hf]
    rfl

theorem writeBytes_setPc (bs : List Byte) (s : State) (lin p : Word) :
    writeBytes bs (s.setPc p) lin = (writeBytes bs s lin).map (·.setPc p) := by
  induction bs generalizing s lin with
  | nil => rfl
  | cons b bs ih =>
    simp only [writeBytes, physAddr_congr (s := s) (t := s.setPc p) rfl rfl rfl, writeByte_setPc]
    cases physAddr s lin with
    | error r => rfl
    | ok pa =>
      dsimp only
      cases writeByte s pa b with
      | error r => rfl
      | ok u => exact ih u (lin + 1)

end Sys2Proof.Machine
end

