-- ==== Sys2Proof/Laws/Fetch.lean ====
section
/-! SUPPORT. Fetching: the window holds the bytes that stand at pc, and what a fetch that gives an instruction did. -/

namespace Sys2Proof.Machine

/-- The window is at most n bytes long. -/
theorem fetchWindow_length (n : Nat) (s : State) (a : Nat) : (fetchWindow n s a).1.length ≤ n := by
  induction n generalizing a with
  | zero => exact Nat.le_refl 0
  | succ n ih =>
    simp only [fetchWindow]
    split
    · split
      · exact Nat.zero_le _
      · exact Nat.succ_le_succ (ih _)
    · exact Nat.zero_le _

/-- Every address of the window is a physical address, and its byte is memory's. -/
theorem mem_fetchWindow {n : Nat} {s : State} {a : Nat} {p : Nat × Byte} (h : p ∈ (fetchWindow n s a).1) :
    p.1 < 2 ^ physBits s.cfg.physAddrBits ∧ p.2 = s.memByte p.1 := by
  induction n generalizing a with
  | zero => simp [fetchWindow] at h
  | succ n ih =>
    simp only [fetchWindow] at h
    split at h
    · split at h
      · simp at h
      · rename_i pa hpa
        rcases List.mem_cons.1 h with rfl | h
        · exact ⟨physAddr_lt hpa, rfl⟩
        · exact ih h
    · simp at h

/-- Bytes that stand at pc, each at its physical address, begin the window. -/
theorem fetchWindow_holds {n : Nat} {s : State} {a : Nat} {pas : List Nat} {bs : List Byte}
    (hl : pas.length = bs.length) (hn : bs.length ≤ n) (ha : a + bs.length ≤ 2 ^ 32)
    (h : ∀ k pa b, pas[k]? = some pa → bs[k]? = some b →
      physAddr s (BitVec.ofNat 32 (a + k)) = .ok pa ∧ s.memByte pa = b) :
    ∃ more, (fetchWindow n s a).1 = pas.zip bs ++ more := by
  induction bs generalizing n a pas with
  | nil => exact ⟨(fetchWindow n s a).1, by simp⟩
  | cons b rest ih =>
    cases pas with
    | nil => simp at hl
    | cons pa pas =>
      cases n with
      | zero => simp at hn
      | succ n =>
        simp only [List.length_cons] at hl hn ha
        obtain ⟨h0, hb⟩ := h 0 pa b rfl rfl
        obtain ⟨more, hm⟩ := ih (n := n) (a := a + 1) (pas := pas) (by omega) (by omega) (by omega)
          (fun k pa' b' hk hk' => by
            have := h (k + 1) pa' b' (by simpa using hk) (by simpa using hk')
            rwa [Nat.add_comm k 1, ← Nat.add_assoc] at this)
        refine ⟨more, ?_⟩
        rw [Nat.add_zero] at h0
        simp only [fetchWindow, show a < 2 ^ 32 by omega, if_true, h0, hm, hb, List.zip_cons_cons, List.cons_append]

/-- Bytes that stand at pc up to the end of the address space are the whole window; the decoder that needs one more is
refused (R22). -/
theorem fetchWindow_end {n : Nat} {s : State} {a : Nat} {pas : List Nat} {bs : List Byte} (hl : pas.length = bs.length)
    (hn : bs.length ≤ n) (ha : a + bs.length = 2 ^ 32)
    (h : ∀ k pa b, pas[k]? = some pa → bs[k]? = some b →
      physAddr s (BitVec.ofNat 32 (a + k)) = .ok pa ∧ s.memByte pa = b) :
    fetchWindow n s a = (pas.zip bs, .pcWrap) := by
  induction bs generalizing n a pas with
  | nil =>
    have ha' : a = 2 ^ 32 := ha
    cases n <;> simp [fetchWindow, ha']
  | cons b rest ih =>
    cases pas with
    | nil => simp at hl
    | cons pa pas =>
      cases n with
      | zero => simp at hn
      | succ n =>
        simp only [List.length_cons] at hl hn ha
        obtain ⟨h0, hb⟩ := h 0 pa b rfl rfl
        have hrec := ih (n := n) (a := a + 1) (pas := pas) (by omega) (by omega) (by omega)
          (fun k pa' b' hk hk' => by
            have := h (k + 1) pa' b' (by simpa using hk) (by simpa using hk')
            rwa [Nat.add_comm k 1, ← Nat.add_assoc] at this)
        rw [Nat.add_zero] at h0
        simp only [fetchWindow, show a < 2 ^ 32 by omega, if_true, h0, hb, hrec, List.zip_cons_cons]

/-- A fetch that gives an instruction: it decoded from the window, none of its bytes was written in the run, and the
state remembers exactly those addresses as fetched (R96, R126). -/
theorem fetchInstr_run {s s' : State} {i : Instr} (h : fetchInstr s = .run i s') :
    ∃ rest, decode s.cfg ((fetchWindow maxInstrLength s s.pc.toNat).1.map Prod.snd) = .ok i rest ∧
      anyWritten s (fetchedAddrs (fetchWindow maxInstrLength s s.pc.toNat).1 rest) = false ∧
      s' = s.noteFetched (fetchedAddrs (fetchWindow maxInstrLength s s.pc.toNat).1 rest) := by
  unfold fetchInstr at h
  dsimp only at h
  split at h
  · cases h
  · split at h <;> cases h
  · rename_i rest hd
    split at h
    · cases h
    · rename_i hw
      cases h
      exact ⟨rest, hd, by simpa using hw, rfl⟩

/-- The addresses remembered are physical addresses. -/
theorem fetchedAddrs_lt {s : State} {n a : Nat} {rest : List Byte} {x : Nat}
    (h : x ∈ fetchedAddrs (fetchWindow n s a).1 rest) : x < 2 ^ physBits s.cfg.physAddrBits := by
  simp only [fetchedAddrs, List.mem_map] at h
  obtain ⟨p, hp, rfl⟩ := h
  exact (mem_fetchWindow (List.mem_of_mem_take hp)).1

end Sys2Proof.Machine
end

