-- ==== Sys2Proof/Laws/Msr.lean ====
section
/-! SUPPORT. RDMSR and WRMSR: when the shared checks pass, and everything the two instructions do when they answer. -/

namespace Sys2Proof.Machine

/-- A part with a register has the instructions that reach it (R25, R125). -/
theorem hasMsrs_of_present {c : Config} {m : MsrId} (h : msrPresence c m = .present) : c.cpu.hasMsrs = true := by
  revert h
  unfold msrPresence
  cases c.cpu <;> cases m <;> simp [Cpu.hasMsrs]

/-- The shared checks pass exactly at CPL 0 with ECX naming a present register (R141, R142). -/
theorem msrGate_ok_iff {s : State} {m : MsrId} :
    msrGate s = .ok m ↔
      s.cfg.cpl = 0 ∧ msrOfNumber s.cfg (s.reg .ecx) = some m ∧ msrPresence s.cfg m = .present := by
  unfold msrGate
  constructor
  · intro h
    split at h
    · cases h
    · split at h
      · cases h
      · rename_i hcpl
        split at h
        · cases h
        · rename_i m' hm
          split at h <;> cases h
          exact ⟨not_not.1 hcpl, hm, ‹_›⟩
  · rintro ⟨hcpl, hm, hp⟩
    simp [hasMsrs_of_present hp, hcpl, hm, hp]

/-- RDMSR answers exactly where the checks pass and pc does not wrap, with this state (R141). -/
theorem execRdmsr_next_iff {s t : State} :
    execRdmsr s = .next t ↔
      ∃ m, msrGate s = .ok m ∧ pcWraps s 2 = false ∧
        t = ((s.tick.setReg .edx ((readValue s m s.free).extractLsb' 32 32)).setReg .eax
          ((readValue s m s.free).extractLsb' 0 32)).setPc (s.pc + 2) := by
  unfold execRdmsr
  cases hg : msrGate s with
  | error st => simp
  | ok m =>
    simp only [advance_next_iff, instrLength, Except.ok.injEq, exists_eq_left']
    rfl

/-- WRMSR answers exactly where the checks pass, the value may be written and pc does not wrap (R142). -/
theorem execWrmsr_next_iff {s t : State} :
    execWrmsr s = .next t ↔
      ∃ m v, msrGate s = .ok m ∧ writeValue s m (edxEax s) s.free = .ok v ∧ pcWraps s 2 = false ∧
        t = (storeMsr s.tick m v).setPc (s.pc + 2) := by
  unfold execWrmsr
  cases hg : msrGate s with
  | error st => simp
  | ok m =>
    simp only [Except.ok.injEq, exists_eq_left', exists_and_left]
    cases hw : writeValue s m (edxEax s) s.free with
    | error r => simp
    | ok v =>
      have hpc : (storeMsr s.tick m v).pc = s.pc := by
        unfold storeMsr
        split <;> rfl
      have hcfg : (storeMsr s.tick m v).cfg = s.cfg := by
        unfold storeMsr
        split <;> rfl
      simp only [advance_next_iff, instrLength, pcWraps_congr hpc hcfg, hpc]
      constructor
      · rintro ⟨h1, rfl⟩
        exact ⟨v, rfl, h1, rfl⟩
      · rintro ⟨v', h1, h2, rfl⟩
        cases h1
        exact ⟨h2, rfl⟩

/-- Storing a model-specific register changes that register and, for 1000h, the latch (R37). -/
theorem storeMsr_eq (s : State) (m : MsrId) (v : Quad) :
    storeMsr s m v =
      { s with msr := s.msr.set m v, msr1000Written := if m = .r1000 then true else s.msr1000Written } := by
  unfold storeMsr
  split <;> rfl

/-- What RDMSR returns in a bit: the stored bit where the mask has 1, else the draw's (R144). -/
theorem getLsbD_readValue (s : State) (m : MsrId) (d : Quad) (i : Nat) :
    (readValue s m d).getLsbD i =
      if (readMask s.cfg s.hwDfsRequest s.msr.r1002 m).getLsbD i then (s.msr.get m).getLsbD i else d.getLsbD i :=
  getLsbD_merge _ _ _ _

/-- The two halves in EDX and EAX are the value's bits (R9). -/
theorem getLsbD_halves (v : Quad) (i : Nat) (h : i < 64) :
    (if i < 32 then (v.extractLsb' 0 32).getLsbD i else (v.extractLsb' 32 32).getLsbD (i - 32)) = v.getLsbD i := by
  by_cases hi : i < 32
  · simp [hi]
  · have : i - 32 < 32 := by omega
    simp only [hi, if_false, BitVec.getLsbD_extractLsb', this, decide_true, Bool.true_and]
    congr 1
    omega

/-- A WRMSR of 83h stores or refuses by the written value alone (R28, R32, R33). -/
theorem write83_ok_iff {old v n : Quad} :
    write83 old v = .ok n ↔
      v &&& ~~~0xEF = 0 ∧ (v.extractLsb' 1 3 = 0 ∨ v.extractLsb' 1 3 = 1 ∨ v.extractLsb' 1 3 = 4) ∧
        n = merge 0xEF old v := by
  unfold write83
  split
  · simp_all
  · split <;> simp_all [eq_comm]

/-- A bit of the new Register 1000h that is neither bit 11 nor bit 0 (R143). -/
theorem getLsbD_write1000 (cpu : Cpu) (latched : Bool) (old v d : Quad) {i : Nat} (h11 : i ≠ 11) (h0 : i ≠ 0) :
    (write1000 cpu latched old v d).getLsbD i =
      if (mask1000 cpu latched).getLsbD i then v.getLsbD i else old.getLsbD i := by
  have hb : (0x801 : Quad).getLsbD i = false := by
    by_cases hi : i < 64
    · exact (by decide : ∀ i < 64, i ≠ 11 → i ≠ 0 → (0x801 : Quad).getLsbD i = false) i hi h11 h0
    · exact BitVec.getLsbD_of_ge _ _ (Nat.le_of_not_lt hi)
  rw [write1000, getLsbD_merge, hb, if_neg (by decide), getLsbD_merge]

/-- Bits 11 and 0 of the new Register 1000h: 0 when written 0, the draw's when written 1 (R46, R57). -/
theorem getLsbD_write1000_status (cpu : Cpu) (latched : Bool) (old v d : Quad) {i : Nat} (h : i = 11 ∨ i = 0) :
    (write1000 cpu latched old v d).getLsbD i = (v.getLsbD i && d.getLsbD i) := by
  have hb : (0x801 : Quad).getLsbD i = true := by rcases h with rfl | rfl <;> decide
  rw [write1000, getLsbD_merge, hb, if_pos rfl, BitVec.getLsbD_and]

/-- Where bits 11 and 0 are written 0, nothing is drawn (R46, R57). -/
theorem write1000_of_zeros {v : Quad} (h : v &&& 0x801 = 0) (cpu : Cpu) (latched : Bool) (old d : Quad) :
    write1000 cpu latched old v d = write1000 cpu latched old v 0 := by
  refine BitVec.eq_of_getLsbD_eq fun i _ => ?_
  have hb := congrArg (fun v : Quad => v.getLsbD i) h
  simp only [BitVec.getLsbD_and] at hb
  simp only [write1000, getLsbD_merge, BitVec.getLsbD_and]
  cases hm : (0x801 : Quad).getLsbD i
  · rfl
  · rw [hm, Bool.and_true] at hb
    rw [show v.getLsbD i = false by simpa using hb, Bool.false_and, Bool.false_and]

/-- Once the latch is used up, no WRMSR changes bits 14 and 10 (R37). -/
theorem write1000_latched (cpu : Cpu) (old v d : Quad) {i : Nat} (h : i = 14 ∨ i = 10) :
    (write1000 cpu true old v d).getLsbD i = old.getLsbD i := by
  have hm : (mask1000 cpu true).getLsbD i = false := by rcases h with rfl | rfl <;> cases cpu <;> decide
  rw [getLsbD_write1000 _ _ _ _ _ (by omega) (by omega), hm, if_neg (by decide)]

/-- A WRMSR of 1002h stores or refuses by the written ClockMode alone (R69), and takes only bits 29, 27, 26-24. -/
theorem write1002_ok_iff {old v n : Quad} :
    write1002 old v = .ok n ↔
      (v.extractLsb' 24 3 = 0 ∨ v.extractLsb' 24 3 = 3 ∨ v.extractLsb' 24 3 = 4) ∧ n = merge 0x2F000000 old v := by
  unfold write1002
  split <;> simp_all [eq_comm]

end Sys2Proof.Machine
end

