-- ==== Sys2Proof/Laws/Store.lean ====
section
/-! SUPPORT. What a core write does to each byte: the byte written, its marks, and every other byte (R92, R93, R96). -/

namespace Sys2Proof.Machine

/-- What the two states hold of one byte is the same: its value, its marks. -/
structure SameByte (s t : State) (x : Nat) : Prop where
  mem : t.memByte x = s.memByte x
  bus : x ∈ t.staleBus ↔ x ∈ s.staleBus
  rom : x ∈ t.staleRom ↔ x ∈ s.staleRom
  parity : t.parityMayHit x = s.parityMayHit x
  written : x ∈ t.written ↔ x ∈ s.written

/-- Everything a core write of b does to the byte at pa (R92, R93, R96). -/
structure Stored (s t : State) (pa : Nat) (b : Byte) : Prop where
  written : pa ∈ t.written
  romMem : s.platformRomAt pa = true → t.memByte pa = s.memByte pa ∧ (pa ∈ t.staleBus ↔ pa ∈ s.staleBus)
  romKept : s.platformRomAt pa = true → s.romBit pa = true → (pa ∈ t.staleRom ↔ pa ∈ s.staleRom)
  ramMem : s.platformRomAt pa = false → t.memByte pa = b ∧ pa ∉ t.staleBus
  ramRom : s.platformRomAt pa = false → (pa ∈ t.staleRom ↔ s.mayBeRomBit pa = true ∨ pa ∈ s.staleRom)
  romParity : s.platformRomAt pa = true → t.parityMayHit pa = s.parityMayHit pa
  ramParity : s.platformRomAt pa = false → s.mayBeRomBit pa = false → t.parityMayHit pa = false

theorem SameByte.trans {s u t : State} {x : Nat} (h : SameByte s u x) (g : SameByte u t x) : SameByte s t x :=
  ⟨g.mem.trans h.mem, g.bus.trans h.bus, g.rom.trans h.rom, g.parity.trans h.parity, g.written.trans h.written⟩

/-- A write of one byte leaves every other byte alone. -/
theorem writeByte_other {s t : State} {pa x : Nat} {b : Byte} (h : writeByte s pa b = .ok t) (hx : x ≠ pa) :
    SameByte s t x := by
  obtain ⟨-, e, hm, hb, hr, hq⟩ := writeByte_ok h
  have hl : t.launch = s.launch := by rw [e]
  refine ⟨?_, ?_, ?_, ?_, ?_⟩
  · unfold State.memByte
    rw [hl]
    rcases hm with e | e <;> rw [e]
    rw [memGet_memSet_other _ hx]
  · rcases hb with e | e <;> rw [e]
    simp [mem_addrErase, hx]
  · rcases hr with e | e <;> rw [e]
    simp [mem_addrInsert, hx]
  · rcases hq with e | e
    · exact parityMayHit_congr e x
    · simp [parityMayHit_renew e, hx]
  · rw [e]
    simp [mem_addrInsert, hx]

/-- A write of several bytes leaves every other byte alone. -/
theorem writeBytes_other {bs : List Byte} {s t : State} {lin : Word} {x : Nat} (h : writeBytes bs s lin = .ok t)
    (hx : ∀ k, k < bs.length → physAddr s (lin + BitVec.ofNat 32 k) ≠ .ok x) : SameByte s t x := by
  induction bs generalizing s lin with
  | nil =>
    cases h
    exact ⟨rfl, .rfl, .rfl, rfl, .rfl⟩
  | cons b bs ih =>
    simp only [writeBytes] at h
    split at h
    · cases h
    · rename_i pa hpa
      split at h
      · cases h
      · rename_i u hu
        obtain ⟨-, e, -⟩ := writeByte_ok hu
        refine (writeByte_other hu ?_).trans (ih h fun k hk => ?_)
        · rintro rfl
          exact hx 0 (by simp) (by simpa using hpa)
        · rw [addr_succ, physAddr_congr (s := s) (by rw [e]) (by rw [e]) (by rw [e])]
          exact hx (k + 1) (by simpa using hk)

theorem writeByte_stored {s t : State} {pa : Nat} {b : Byte} (h : writeByte s pa b = .ok t) : Stored s t pa b := by
  unfold writeByte at h
  split at h
  · cases h
  · cases h
    unfold storeByte
    dsimp only
    refine ⟨by simp [mem_addrInsert], fun hp => ?_, fun hp hr => ?_, fun hp => ?_, fun hp => ?_, fun hp => ?_,
      fun hp hr => ?_⟩
    · rw [hp, if_pos rfl]
      split <;> exact ⟨rfl, .rfl⟩
    · rw [hp, if_pos rfl, hr, if_pos rfl]
      exact .rfl
    · rw [hp, if_neg (by decide)]
      split <;> exact ⟨memByte_setMemByte_same s pa b, by simp [mem_addrErase]⟩
    · rw [hp, if_neg (by decide)]
      split
      · rename_i hm
        simp [mem_addrInsert, hm]
      · rename_i hm
        simp [hm]
    · rw [hp, if_pos rfl]
      split <;> exact parityMayHit_congr rfl pa
    · rw [hp, hr, if_neg (by decide), if_neg (by decide), parityMayHit_renew (s := s) rfl]
      simp

/-- The n bytes from lin on have physical addresses of their own. -/
def Apart (s : State) (lin : Word) (n : Nat) : Prop :=
  ∀ j k pa, j < n → k < n → physAddr s (lin + BitVec.ofNat 32 j) = .ok pa →
    physAddr s (lin + BitVec.ofNat 32 k) = .ok pa → j = k

/-- Writing bytes at addresses of their own: each is stored as one write stores it, every other byte is left alone. -/
theorem writeBytes_stored {bs : List Byte} {s t : State} {lin : Word} (ha : Apart s lin bs.length)
    (h : writeBytes bs s lin = .ok t) :
    (∀ k b, bs[k]? = some b → ∃ pa, physAddr s (lin + BitVec.ofNat 32 k) = .ok pa ∧ Stored s t pa b) ∧
      ∀ x, (∀ k, k < bs.length → physAddr s (lin + BitVec.ofNat 32 k) ≠ .ok x) → SameByte s t x := by
  induction bs generalizing s lin with
  | nil =>
    cases h
    exact ⟨fun k b hk => by simp at hk, fun _ _ => ⟨rfl, .rfl, .rfl, rfl, .rfl⟩⟩
  | cons b bs ih =>
    simp only [writeBytes] at h
    split at h
    · cases h
    · rename_i pa hpa
      split at h
      · cases h
      · rename_i u hu
        obtain ⟨-, e, -⟩ := writeByte_ok hu
        have hc : u.cfg = s.cfg := by rw [e]
        have hm : u.msr = s.msr := by rw [e]
        have hp : ∀ k, physAddr u (lin + 1 + BitVec.ofNat 32 k) = physAddr s (lin + BitVec.ofNat 32 (k + 1)) :=
          fun k => by rw [addr_succ, physAddr_congr hc (by rw [e]) hm]
        have h0 : physAddr s (lin + BitVec.ofNat 32 0) = .ok pa := by simpa using hpa
        obtain ⟨ih1, ih2⟩ := ih (fun j k x hj hk h1 h2 => by
          rw [hp] at h1 h2
          have := ha (j + 1) (k + 1) x (by simpa using hj) (by simpa using hk) h1 h2
          omega) h
        have hpa_ne : ∀ k, k < bs.length → physAddr s (lin + BitVec.ofNat 32 (k + 1)) ≠ .ok pa := fun k hk hx => by
          have := ha 0 (k + 1) pa (by simp) (by simpa using hk) h0 hx
          omega
        refine ⟨fun k b' hk => ?_, fun x hx => ?_⟩
        · cases k with
          | zero =>
            simp at hk
            subst hk
            have g := writeByte_stored hu
            have q := ih2 pa fun k hk => by rw [hp]; exact hpa_ne k hk
            exact ⟨pa, h0, q.written.2 g.written, fun hr => ⟨q.mem.trans (g.romMem hr).1, q.bus.trans (g.romMem hr).2⟩,
              fun hr hr' => q.rom.trans (g.romKept hr hr'),
              fun hr => ⟨q.mem.trans (g.ramMem hr).1, fun hx => (g.ramMem hr).2 (q.bus.1 hx)⟩,
              fun hr => q.rom.trans (g.ramRom hr), fun hr => q.parity.trans (g.romParity hr),
              fun hr hr' => q.parity.trans (g.ramParity hr hr')⟩
          | succ k =>
            obtain ⟨x, g1, g⟩ := ih1 k b' (by simpa using hk)
            rw [hp] at g1
            have hk' : k < bs.length := by
              by_contra hh
              rw [List.getElem?_cons_succ, List.getElem?_eq_none (by omega)] at hk
              cases hk
            have hx : x ≠ pa := by
              rintro rfl
              exact hpa_ne k hk' g1
            have q := writeByte_other hu hx
            have r1 : u.platformRomAt x = s.platformRomAt x := by simp [State.platformRomAt, hc]
            have r2 : u.romBit x = s.romBit x := by simp [State.romBit, hc, hm]
            have r3 : u.mayBeRomBit x = s.mayBeRomBit x := by simp [State.mayBeRomBit, hc, hm]
            exact ⟨x, g1, g.written,
              fun hr => ⟨(g.romMem (r1.trans hr)).1.trans q.mem, (g.romMem (r1.trans hr)).2.trans q.bus⟩,
              fun hr hr' => (g.romKept (r1.trans hr) (r2.trans hr')).trans q.rom, fun hr => g.ramMem (r1.trans hr),
              fun hr => (g.ramRom (r1.trans hr)).trans (by rw [r3, q.rom]),
              fun hr => (g.romParity (r1.trans hr)).trans q.parity, fun hr hr' => g.ramParity (r1.trans hr) (r3.trans hr')⟩
        · have hx0 : x ≠ pa := by
            rintro rfl
            exact hx 0 (by simp) h0
          exact (writeByte_other hu hx0).trans (ih2 x fun k hk => by
            rw [hp]
            exact hx (k + 1) (by simpa using hk))

/-- Where every byte has a physical address, the write completes if none was fetched as code, and is refused if one was
(R96). -/
theorem writeBytes_isOk {bs : List Byte} {s : State} {lin : Word}
    (h : ∀ k, k < bs.length → ∃ pa, physAddr s (lin + BitVec.ofNat 32 k) = .ok pa) :
    ((∀ k pa, k < bs.length → physAddr s (lin + BitVec.ofNat 32 k) = .ok pa → pa ∉ s.fetched) →
        ∃ t, writeBytes bs s lin = .ok t) ∧
      ((∃ k pa, k < bs.length ∧ physAddr s (lin + BitVec.ofNat 32 k) = .ok pa ∧ pa ∈ s.fetched) →
        writeBytes bs s lin = .error .codeModified) := by
  induction bs generalizing s lin with
  | nil => exact ⟨fun _ => ⟨s, rfl⟩, fun ⟨k, _, hk, _⟩ => absurd hk (Nat.not_lt_zero k)⟩
  | cons b bs ih =>
    obtain ⟨pa, h0⟩ := h 0 (by simp)
    have hpa : physAddr s lin = .ok pa := by simpa using h0
    simp only [writeBytes, hpa]
    by_cases hf : pa ∈ s.fetched
    · have hw : writeByte s pa b = .error .codeModified := if_pos hf
      simp only [hw]
      exact ⟨fun g => absurd hf (g 0 pa (by simp) h0), fun _ => trivial⟩
    · obtain ⟨u, hw⟩ : ∃ u, writeByte s pa b = .ok u := ⟨_, if_neg hf⟩
      obtain ⟨-, e, -⟩ := writeByte_ok hw
      have hc : u.cfg = s.cfg := by rw [e]
      have h0' : u.cr0 = s.cr0 := by rw [e]
      have hm : u.msr = s.msr := by rw [e]
      have hp : ∀ k, physAddr u (lin + 1 + BitVec.ofNat 32 k) = physAddr s (lin + BitVec.ofNat 32 (k + 1)) :=
        fun k => by rw [addr_succ, physAddr_congr hc h0' hm]
      have hfe : u.fetched = s.fetched := by rw [e]
      obtain ⟨ih1, ih2⟩ := ih (s := u) (lin := lin + 1) fun k hk => by
        rw [hp]
        exact h (k + 1) (by simpa using hk)
      simp only [hw]
      refine ⟨fun g => ih1 fun k x hk hx => ?_, fun ⟨k, x, hk, hx, hx'⟩ => ih2 ?_⟩
      · rw [hp] at hx
        rw [hfe]
        exact g (k + 1) x (by simpa using hk) hx
      · cases k with
        | zero =>
          rw [h0] at hx
          cases hx
          exact absurd hx' hf
        | succ k => exact ⟨k, x, by simpa using hk, by rw [hp]; exact hx, by rw [hfe]; exact hx'⟩

end Sys2Proof.Machine
end

