-- ==== Sys2Proof/Laws/Operands.lean ====
section
/-! SUPPORT. Reading and writing the register-or-memory operand: one lemma each says everything it can do. -/

namespace Sys2Proof.Machine

theorem opBytes_eq (w : OpSize) : opBytes w = opBits w / 8 := by cases w <;> rfl

theorem opBits_le (w : OpSize) : opBits w ≤ 32 := by cases w <;> decide

theorem leBytes_length (n : Nat) (v : Word) : (leBytes n v).length = n := by
  induction n generalizing v with
  | zero => rfl
  | succ n ih => simp [leBytes, ih]

/-- Reading a register changes nothing and gives its W-bit view. -/
@[simp] theorem readPlace_reg (s : State) (w : OpSize) (r : Reg) :
    readPlace s w (.reg r) = .ok (readReg s w r, s) := rfl

/-- Reading an operand uses free values and changes nothing else. -/
theorem readPlace_state {s s' : State} {w : OpSize} {p : Place} {v : Word} (h : readPlace s w p = .ok (v, s')) :
    ∃ k, s' = s.ticks k := by
  cases p with
  | reg r =>
    simp only [readPlace, Except.ok.injEq, Prod.mk.injEq] at h
    exact ⟨0, h.2.symm⟩
  | mem ea =>
    simp only [readPlace, memRead] at h
    split at h
    · cases h
    · rename_i bs s'' hb
      simp only [Except.ok.injEq, Prod.mk.injEq] at h
      obtain ⟨-, rfl⟩ := h
      exact (readBytes_ok hb).2.1

/-- A bit of a memory operand is the bit of memory, where no copy of its byte may be stale (R80, R170 (j)). -/
theorem readPlace_mem_bit {s s' : State} {w : OpSize} {ea v : Word} (h : readPlace s w (.mem ea) = .ok (v, s'))
    {pa : Nat → Nat}
    (hpa : ∀ k, k < opBytes w → physAddr s (ea + BitVec.ofNat 32 k) = .ok (pa k) ∧ s.isStale (pa k) = false)
    {i : Nat} (hi : i < opBits w) : v.getLsbD i = (s.memByte (pa (i / 8))).getLsbD (i % 8) := by
  simp only [readPlace, memRead] at h
  split at h
  · cases h
  · rename_i bs s'' hb
    simp only [Except.ok.injEq, Prod.mk.injEq] at h
    obtain ⟨rfl, -⟩ := h
    obtain ⟨hlen, -, hbytes⟩ := readBytes_ok hb
    have h4 : bs.length ≤ 4 := by rw [hlen]; cases w <;> decide
    have hk : i / 8 < opBytes w := by rw [opBytes_eq]; cases w <;> simp only [opBits] at * <;> omega
    rw [getLsbD_littleEndian bs i h4]
    obtain ⟨q, hq, hv⟩ := hbytes (i / 8) hk
    obtain ⟨hp, hs⟩ := hpa (i / 8) hk
    rw [hp, Except.ok.injEq] at hq
    subst hq
    rw [hv hs]
    rfl

/-- An operand can be read where it is a register, or each of its bytes has a physical address. -/
theorem readPlace_isOk {s : State} {w : OpSize} {p : Place}
    (h : ∀ ea, p = .mem ea → ∀ k, k < opBytes w → ∃ pa, physAddr s (ea + BitVec.ofNat 32 k) = .ok pa) :
    ∃ v s', readPlace s w p = .ok (v, s') := by
  cases p with
  | reg r => exact ⟨_, _, rfl⟩
  | mem ea =>
    obtain ⟨bs, s', hb⟩ := readBytes_isOk (h ea rfl)
    exact ⟨littleEndian bs, s', by simp [readPlace, memRead, hb]⟩

/-- Writing an operand: a register write changes registers only, a memory write what `writeBytes_ok` says, and a byte
outside the operand not at all. -/
theorem writePlace_ok {s t : State} {w : OpSize} {p : Place} {v : Word} (h : writePlace s w p v = .ok t) :
    t = { s with
            regs := t.regs, mem := t.mem, staleBus := t.staleBus, staleRom := t.staleRom
            parityRenewed := t.parityRenewed, written := t.written } ∧
      (∀ r, p ≠ .reg r → t.reg r = s.reg r) ∧
      (∀ x, (∀ ea k, p = .mem ea → k < opBytes w → physAddr s (ea + BitVec.ofNat 32 k) ≠ .ok x) → SameByte s t x) ∧
      ∀ q, p = .reg q → t = s.setRegs t.regs := by
  cases p with
  | reg q =>
    simp only [writePlace, Except.ok.injEq] at h
    subst h
    exact ⟨rfl, fun r hr => State.reg_setReg_other s (fun e => hr (by rw [e])) _,
      fun _ _ => ⟨rfl, .rfl, .rfl, rfl, .rfl⟩, fun _ _ => rfl⟩
  | mem ea =>
    have h' : writeBytes (leBytes (opBytes w) v) s ea = .ok t := h
    obtain ⟨ht, -⟩ := writeBytes_ok h'
    refine ⟨by rw [ht], fun r _ => by rw [ht]; rfl, fun x hne => writeBytes_other h' fun k hk => ?_, fun q hq => ?_⟩
    · rw [leBytes_length] at hk
      exact hne ea k rfl hk
    · cases hq

/-- pc is not an input of an operand's read or write. -/
theorem readPlace_setPc (s : State) (w : OpSize) (q : Place) (p : Word) :
    readPlace (s.setPc p) w q = (readPlace s w q).map fun x => (x.1, x.2.setPc p) := by
  cases q with
  | reg r => rfl
  | mem ea =>
    simp only [readPlace, memRead, readBytes_setPc]
    cases readBytes (opBytes w) s ea <;> rfl

theorem writePlace_setPc (s : State) (w : OpSize) (q : Place) (v p : Word) :
    writePlace (s.setPc p) w q v = (writePlace s w q v).map (·.setPc p) := by
  cases q with
  | reg r => rfl
  | mem ea => exact writeBytes_setPc _ s ea p

end Sys2Proof.Machine
end

