-- ==== Sys2Proof/Laws/PerInstr.lean ====
section
/-! SUPPORT. The per-instruction family EncodeLength: the encoder writes as many bytes as rule R121 counts, between two
and the longest form's ten. -/

namespace Sys2Proof.Laws.EncodeLength

/-- An instruction's encoding has its length, under every configuration (R121). -/
def Statement (i : Instr) : Prop :=
  ∀ c : Config, (encode c i).length = instrLength c i ∧ 2 ≤ instrLength c i ∧ instrLength c i ≤ maxInstrLength

/-- SIB and displacement bytes of the second operand. -/
theorem tail_length (rm : RmOperand) : rm.tail.length = rm.tailLength ∧ rm.tailLength ≤ 5 := by
  rcases rm with _ | (⟨_, _ | _ | _⟩ | _) | (⟨_, _ | _ | _⟩ | _ | ⟨_, _, _, _ | _ | _⟩ | _) <;>
    exact ⟨rfl, by simp [RmOperand.tailLength, Disp16.length, Disp32.length]⟩

/-- Format RM, which XBTS and CMPXCHG share (R111). -/
theorem rmFormat (c : Config) (w a : OpSize) (reg : Reg) (rm : RmOperand) :
    (encodeRmFormat c w a reg rm).length = rmFormatLength c w a rm ∧ 2 ≤ rmFormatLength c w a rm ∧
      rmFormatLength c w a rm ≤ maxInstrLength := by
  obtain ⟨ht, hle⟩ := tail_length rm
  simp only [encodeRmFormat, sizePrefixes, rmFormatLength, maxInstrLength, List.length_append, List.length_cons, ht]
  by_cases hw : w = c.defaultSize <;> by_cases ha : a = c.defaultSize <;> simp [hw, ha] <;> omega

theorem xbts (w a : OpSize) (reg : Reg) (rm : RmOperand) : Statement (.xbts w a reg rm) := fun c => rmFormat c w a reg rm

theorem cmpxchg (f : RmForm) : Statement (.cmpxchg f) := fun c => rmFormat c f.w f.a f.reg f.rm

theorem rdmsr : Statement .rdmsr := fun _ => ⟨rfl, by simp [instrLength], by simp [instrLength, maxInstrLength]⟩

theorem wrmsr : Statement .wrmsr := fun _ => ⟨rfl, by simp [instrLength], by simp [instrLength, maxInstrLength]⟩

theorem movR32Imm32 (r : Reg) (imm : Word) : Statement (.movR32Imm32 r imm) := fun _ => ⟨rfl, by simp [instrLength], by simp [instrLength, maxInstrLength]⟩

end Sys2Proof.Laws.EncodeLength
end

