-- ==== Sys2Proof/Laws/Xbts.lean ====
section
/-! SUPPORT. XBTS: when its parts answer, and everything its effect can do. -/

namespace Sys2Proof.Machine

/-- XbtsGK answers exactly where the string lies inside the operand (R166), and never writes the second operand. -/
theorem xbtsGK_ok_iff {fill : HighFill} {w : OpSize} {mOld acc : Word} {cl : Byte} {d : Quad}
    {p : Option Word × Option Word} :
    xbtsGK fill w mOld acc cl d = .ok p ↔
      (narrow w acc).toNat + cl.toNat ≤ opBits w ∧
        p = (some (xbtsHigh fill cl.toNat d ||| (mOld >>> (narrow w acc).toNat &&& lowMask cl.toNat)), none) := by
  unfold xbtsGK
  split
  · simp
    omega
  · simp [eq_comm (a := p)]
    omega

/-- A bit of the string XbtsGK extracts (R166). -/
theorem getLsbD_xbtsGK_field (fill : HighFill) (d : Quad) (m : Word) (off len i : Nat) (hl : len ≤ 32) (hi : i < len) :
    (xbtsHigh fill len d ||| (m >>> off &&& lowMask len)).getLsbD i = m.getLsbD (off + i) := by
  have hh : (xbtsHigh fill len d).getLsbD i = false := by
    cases fill
    · simp only [xbtsHigh, BitVec.getLsbD_shiftLeft, hi, decide_true, Bool.not_true, Bool.and_false, Bool.false_and]
    · simp [xbtsHigh]
  rw [BitVec.getLsbD_or, hh, Bool.false_or, BitVec.getLsbD_and, getLsbD_lowMask _ _ hl, decide_eq_true hi, Bool.and_true,
    BitVec.getLsbD_ushiftRight]

/-- A bit above the string is 0 under XBTS_HIGH_FILL = zero (R166). -/
theorem getLsbD_xbtsGK_zero (d : Quad) (m : Word) (off len i : Nat) (hl : len ≤ 32) (hi : len ≤ i) :
    (xbtsHigh .zero len d ||| (m >>> off &&& lowMask len)).getLsbD i = false := by
  rw [BitVec.getLsbD_or, BitVec.getLsbD_and, getLsbD_lowMask _ _ hl, decide_eq_false (by omega), Bool.and_false,
    Bool.or_false]
  simp [xbtsHigh]

/-- Writing the second operand, if at all: as `writePlace_ok` says. -/
theorem writePlaceIf_ok {s t : State} {w : OpSize} {p : Place} {v : Option Word} (h : writePlaceIf s w p v = .ok t) :
    t = { s with
            regs := t.regs, mem := t.mem, staleBus := t.staleBus, staleRom := t.staleRom
            parityRenewed := t.parityRenewed, written := t.written } ∧
      (∀ r, p ≠ .reg r → t.reg r = s.reg r) ∧
      (∀ x, (∀ ea k, p = .mem ea → k < opBytes w → physAddr s (ea + BitVec.ofNat 32 k) ≠ .ok x) → SameByte s t x) ∧
      ∀ q, p = .reg q → t = s.setRegs t.regs := by
  cases v with
  | none =>
    simp only [writePlaceIf, Except.ok.injEq] at h
    subst h
    exact ⟨rfl, fun _ _ => rfl, fun _ _ => ⟨rfl, .rfl, .rfl, rfl, .rfl⟩, fun _ _ => rfl⟩
  | some v => exact writePlace_ok h

/-- Writing the first operand, if at all, changes one register. -/
theorem writeRegIf_eq (s : State) (w : OpSize) (r : Reg) (v : Option Word) :
    ∃ g, writeRegIf s w r v = s.setRegs g ∧ ∀ q, q ≠ r → g.get q = s.regs.get q := by
  cases v with
  | none => exact ⟨s.regs, rfl, fun _ _ => rfl⟩
  | some v => exact ⟨_, rfl, fun q hq => Regs.get_set_other _ hq _⟩

/-- Everything XBTS can change before pc moves on (R162): the two register operands, the bytes of the memory operand
with their marks, the six status flags, and the count of free values; with a register operand no memory and no mark. -/
theorem xbtsEffect_ok {s t : State} {w : OpSize} {reg : Reg} {rm : RmOperand} (h : xbtsEffect w reg rm s = .ok t) :
    ∃ n, s.draws < n ∧ t.draws = n + 1 ∧ t.eflags = withStatusFlags s.eflags ((Config.freeWord n).setWidth 32) ∧
      t = { s with
              regs := t.regs, eflags := t.eflags, mem := t.mem, staleBus := t.staleBus, staleRom := t.staleRom
              parityRenewed := t.parityRenewed, written := t.written, draws := t.draws } ∧
      (∀ r, r ≠ reg → rmPlace s rm ≠ .reg r → t.reg r = s.reg r) ∧
      (∀ x, (∀ ea k, rmPlace s rm = .mem ea → k < opBytes w → physAddr s (ea + BitVec.ofNat 32 k) ≠ .ok x) →
        SameByte s t x) ∧
      ∀ q, rmPlace s rm = .reg q → t = { s with regs := t.regs, eflags := t.eflags, draws := t.draws } := by
  unfold xbtsEffect at h
  split at h
  · cases h
  · rename_i mOld s1 hr
    obtain ⟨k, rfl⟩ := readPlace_state hr
    split at h
    · cases h
    · rename_i rNew mNew hf
      split at h
      · cases h
      · rename_i s2 hw
        obtain ⟨e2, hreg, hmem, hrm⟩ := writePlaceIf_ok hw
        obtain ⟨g, hg, hgo⟩ := writeRegIf_eq s2 w reg rNew
        rw [hg, Except.ok.injEq] at h
        subst h
        have hd : s2.draws = s.draws + k + 1 := by rw [e2]; rfl
        have he : s2.eflags = s.eflags := by rw [e2]; rfl
        refine ⟨s2.draws, by omega, rfl, ?_, ?_, fun r h1 h2 => ?_, fun x hx => ?_, fun q hq => ?_⟩
        · show withStatusFlags s2.eflags _ = _
          rw [he]
          rfl
        · rw [e2]
          rfl
        · show g.get r = s.regs.get r
          rw [hgo r h1]
          exact hreg r h2
        · exact ⟨(hmem x hx).mem, (hmem x hx).bus, (hmem x hx).rom, (hmem x hx).parity, (hmem x hx).written⟩
        · rw [hrm q hq]
          rfl

/-- pc is not an input of XBTS's effect. -/
theorem xbtsEffect_setPc (w : OpSize) (reg : Reg) (rm : RmOperand) (s : State) (p : Word) :
    xbtsEffect w reg rm (s.setPc p) = (xbtsEffect w reg rm s).map (·.setPc p) := by
  have hp : rmPlace (s.setPc p) rm = rmPlace s rm := by cases rm <;> rfl
  unfold xbtsEffect
  rw [hp, readPlace_setPc]
  cases readPlace s w (rmPlace s rm) with
  | error r => rfl
  | ok x =>
    obtain ⟨mOld, s1⟩ := x
    show (match xbtsFn s.cfg w (readReg s w reg) mOld (s.reg .eax) s.cl s1.free with
      | .error r => Except.error r
      | .ok (rNew, mNew) =>
        match writePlaceIf (s1.tick.setPc p) w (rmPlace s rm) mNew with
        | .error r => .error r
        | .ok s2 => .ok ((writeRegIf s2 w reg rNew).setStatusFlags (s2.free.setWidth 32)).tick) = _
    dsimp only
    cases xbtsFn s.cfg w (readReg s w reg) mOld (s.reg .eax) s.cl s1.free with
    | error r => rfl
    | ok q =>
      obtain ⟨rNew, mNew⟩ := q
      have hw : writePlaceIf (s1.tick.setPc p) w (rmPlace s rm) mNew =
          (writePlaceIf s1.tick w (rmPlace s rm) mNew).map (·.setPc p) := by
        cases mNew with
        | none => rfl
        | some v => exact writePlace_setPc s1.tick w _ v p
      dsimp only
      rw [hw]
      cases writePlaceIf s1.tick w (rmPlace s rm) mNew with
      | error r => rfl
      | ok s2 => cases rNew <;> rfl

/-- XBTS with a register operand under XbtsGK answers where the string lies inside the operand. -/
theorem xbtsEffect_gk_ok {s s1 : State} {w : OpSize} {reg : Reg} {rm : RmOperand} {mOld : Word}
    (hc : s.cfg.xbtsFn = .gk) (hr : readPlace s w (rmPlace s rm) = .ok (mOld, s1))
    (hfit : (narrow w (s.reg .eax)).toNat + s.cl.toNat ≤ opBits w) :
    xbtsEffect w reg rm s =
      .ok ((writeReg s1.tick w reg (xbtsHigh s.cfg.xbtsHighFill s.cl.toNat s1.free |||
        (mOld >>> (narrow w (s.reg .eax)).toNat &&& lowMask s.cl.toNat))).setStatusFlags
          (s1.tick.free.setWidth 32)).tick := by
  have hx : xbtsFn s.cfg w (readReg s w reg) mOld (s.reg .eax) s.cl s1.free =
      .ok (some (xbtsHigh s.cfg.xbtsHighFill s.cl.toNat s1.free |||
        (mOld >>> (narrow w (s.reg .eax)).toNat &&& lowMask s.cl.toNat)), none) := by
    unfold xbtsFn
    rw [hc]
    exact xbtsGK_ok_iff.2 ⟨hfit, rfl⟩
  unfold xbtsEffect
  rw [hr]
  simp only [hx, writePlaceIf, writeRegIf]

/-- XBTS answers only on the 80386 A step, with its effect and pc moved on (R162). -/
theorem execXbts_next_iff {s t : State} {w a : OpSize} {reg : Reg} {rm : RmOperand} :
    execXbts w a reg rm s = .next t ↔
      s.cfg.cpu = .i386A ∧ ∃ u, xbtsEffect w reg rm s = .ok u ∧
        pcWraps u (instrLength s.cfg (.xbts w a reg rm)) = false ∧
        t = u.setPc (u.pc + BitVec.ofNat 32 (instrLength s.cfg (.xbts w a reg rm))) := by
  unfold execXbts
  cases hc : s.cfg.cpu <;> simp only [takeException, reduceCtorEq, false_and, true_and]
  cases hx : xbtsEffect w reg rm s with
  | error r => simp
  | ok u => simp [advance_next_iff]

end Sys2Proof.Machine
end

