-- ==== Sys2Proof/Laws/Step.lean ====
section
/-! SUPPORT. Everything a step can do: which agent moved, which instruction ran or which event came, and what part of
the state it can have changed. -/

namespace Sys2Proof.Machine

/-- What an instruction that completes can change: registers, pc, flags, memory with its marks, the model-specific
registers with the latch, and the count of free values; and pc is the old one plus the instruction's length. -/
theorem exec_ok {i : Instr} {s t : State} (h : exec i s = .next t) :
    t = { s with
            regs := t.regs, pc := t.pc, eflags := t.eflags, mem := t.mem, staleBus := t.staleBus
            staleRom := t.staleRom, parityRenewed := t.parityRenewed, written := t.written, msr := t.msr
            msr1000Written := t.msr1000Written, draws := t.draws } ∧
      pcWraps s (instrLength s.cfg i) = false ∧ t.pc = s.pc + BitVec.ofNat 32 (instrLength s.cfg i) := by
  cases i with
  | xbts w a reg rm =>
    obtain ⟨-, u, hu, hp, rfl⟩ := execXbts_next_iff.1 h
    obtain ⟨n, -, -, -, he, -, -⟩ := xbtsEffect_ok hu
    have hpc : u.pc = s.pc := by rw [he]
    have hcfg : u.cfg = s.cfg := by rw [he]
    refine ⟨?_, by rwa [pcWraps_congr hpc hcfg] at hp, by rw [State.setPc_pc, hpc]⟩
    generalize u.pc + BitVec.ofNat 32 (instrLength s.cfg (.xbts w a reg rm)) = p
    have hm : u.msr = s.msr := by rw [he]
    have hl : u.msr1000Written = s.msr1000Written := by rw [he]
    rw [← hm, ← hl] at he
    exact congrArg (·.setPc p) he
  | cmpxchg f => cases h
  | rdmsr =>
    obtain ⟨m, -, hp, rfl⟩ := execRdmsr_next_iff.1 h
    exact ⟨rfl, hp, rfl⟩
  | wrmsr =>
    obtain ⟨m, v, -, -, hp, rfl⟩ := execWrmsr_next_iff.1 h
    refine ⟨?_, hp, ?_⟩ <;> rw [storeMsr_eq] <;> rfl
  | movR32Imm32 r imm =>
    obtain ⟨hp, rfl⟩ := advance_next_iff.1 h
    exact ⟨rfl, hp, rfl⟩

/-- An instruction that would complete at another pc is refused where pc would pass the end (R22). -/
theorem exec_of_wraps {i : Instr} {s u : State} {p : Word} (h : exec i (s.setPc p) = .next u)
    (hw : pcWraps s (instrLength s.cfg i) = true) : exec i s = .refused .pcWrap := by
  have hadv : ∀ t : State, t.pc = s.pc → t.cfg = s.cfg → advance (instrLength s.cfg i) t = .refused .pcWrap :=
    fun t hp hc => by rw [advance, pcWraps_congr hp hc, if_pos hw]
  cases i with
  | xbts w a reg rm =>
    obtain ⟨hc, v, hv, -⟩ := execXbts_next_iff.1 h
    rw [xbtsEffect_setPc] at hv
    cases hx : xbtsEffect w reg rm s with
    | error r => rw [hx] at hv; cases hv
    | ok x =>
      obtain ⟨n, -, -, -, he, -, -⟩ := xbtsEffect_ok hx
      have hc' : s.cfg.cpu = .i386A := hc
      simp only [exec, execXbts, hc', hx]
      exact hadv x (by rw [he]) (by rw [he])
  | cmpxchg f => cases h
  | rdmsr =>
    obtain ⟨m, hm, -⟩ := execRdmsr_next_iff.1 h
    have hm' : msrGate s = .ok m := hm
    simp only [exec, execRdmsr, hm']
    exact hadv _ rfl rfl
  | wrmsr =>
    obtain ⟨m, v, hm, hv, -⟩ := execWrmsr_next_iff.1 h
    have hm' : msrGate s = .ok m := hm
    have hv' : writeValue s m (edxEax s) s.free = .ok v := hv
    simp only [exec, execWrmsr, hm', hv']
    exact hadv _ (by rw [storeMsr_eq]; rfl) (by rw [storeMsr_eq]; rfl)
  | movR32Imm32 r imm => exact hadv _ rfl rfl

/-- Only WRMSR writes a model-specific register: the one ECX names (R140, R142). -/
theorem exec_msr {i : Instr} {s t : State} (h : exec i s = .next t) :
    (t.msr = s.msr ∧ t.msr1000Written = s.msr1000Written) ∨
      (i = .wrmsr ∧ ∃ m v, msrGate s = .ok m ∧ writeValue s m (edxEax s) s.free = .ok v ∧ t.msr = s.msr.set m v ∧
        t.msr1000Written = if m = .r1000 then true else s.msr1000Written) := by
  cases i with
  | xbts w a reg rm =>
    obtain ⟨-, u, hu, hp, rfl⟩ := execXbts_next_iff.1 h
    obtain ⟨n, -, -, -, he, -, -⟩ := xbtsEffect_ok hu
    refine .inl ⟨?_, ?_⟩
    · show u.msr = _
      rw [he]
    · show u.msr1000Written = _
      rw [he]
  | cmpxchg f => cases h
  | rdmsr =>
    obtain ⟨m, -, -, rfl⟩ := execRdmsr_next_iff.1 h
    exact .inl ⟨rfl, rfl⟩
  | wrmsr =>
    obtain ⟨m, v, hm, hv, -, rfl⟩ := execWrmsr_next_iff.1 h
    refine .inr ⟨rfl, m, v, hm, hv, ?_, ?_⟩ <;> rw [storeMsr_eq] <;> rfl
  | movR32Imm32 r imm =>
    obtain ⟨-, rfl⟩ := advance_next_iff.1 h
    exact .inl ⟨rfl, rfl⟩

/-- An event of the parts with Register 1000h answers as itself on them, and changes nothing on a part without it. -/
theorem onPartsWith1000_next {s t : State} {o : Host.Outcome State Fault Refusal} (h : onPartsWith1000 s o = .next t) :
    (hasMsr s.cfg .r1000 = true ∧ o = .next t) ∨ t = s := by
  unfold onPartsWith1000 at h
  split at h
  · rename_i hp
    exact .inl ⟨by rw [hasMsr, hp]; rfl, h⟩
  · exact .inr (by cases h; rfl)
  · cases h

theorem onPartsWith1000_of_present {s : State} (h : hasMsr s.cfg .r1000 = true) (o : Host.Outcome State Fault Refusal) :
    onPartsWith1000 s o = o := by
  unfold hasMsr at h
  unfold onPartsWith1000
  split <;> simp_all

/-- What a bus master's write does to the staleness marks: its byte's alone (R92). -/
theorem busWriteStale_ok (pa : Nat) (s : State) :
    let u := busWriteStale pa s
    u = { s with staleBus := u.staleBus, staleRom := u.staleRom, parityRenewed := u.parityRenewed } ∧
      (u.staleBus = s.staleBus ∨ u.staleBus = addrErase pa s.staleBus ∨ u.staleBus = addrInsert pa s.staleBus) ∧
      (u.staleRom = s.staleRom ∨ u.staleRom = addrErase pa s.staleRom) ∧
      (u.parityRenewed = s.parityRenewed ∨ u.parityRenewed = s.parityRenewed.map (addrInsert pa)) := by
  dsimp only
  unfold busWriteStale
  split
  · exact ⟨rfl, .inr (.inl rfl), .inr rfl, .inr rfl⟩
  · split
    · exact ⟨rfl, .inr (.inr rfl), .inl rfl, .inl rfl⟩
    · exact ⟨rfl, .inl rfl, .inl rfl, .inl rfl⟩

/-- The store of a bus master's write: memory at its byte, and nothing where the platform has ROM. -/
theorem busStore_ok (s : State) (pa : Nat) (v : Byte) :
    busStore s pa v = s ∨ busStore s pa v = s.setMem (memSet s.mem pa v) := by
  unfold busStore
  split
  · exact .inl rfl
  · exact .inr rfl

/-- Everything BusWrite can do (R216): refused on a fetched byte or where its physical address is not known, else the byte
stored where the platform has no ROM, the marks of stale bytes, and the byte remembered as written. -/
theorem eventBusWrite_next {s t : State} {a : Word} {v : Byte} (h : eventBusWrite a v s = .next t) :
    ∃ pa, narrowPhys s.cfg a = .ok pa ∧ pa ∉ s.fetched ∧
      t = { s with
              mem := t.mem, staleBus := t.staleBus, staleRom := t.staleRom, parityRenewed := t.parityRenewed
              written := addrInsert pa s.written } ∧
      (t.mem = s.mem ∨ t.mem = memSet s.mem pa v) ∧
      (t.staleBus = s.staleBus ∨ t.staleBus = addrErase pa s.staleBus ∨ t.staleBus = addrInsert pa s.staleBus) ∧
      (t.staleRom = s.staleRom ∨ t.staleRom = addrErase pa s.staleRom) ∧
      (t.parityRenewed = s.parityRenewed ∨ t.parityRenewed = s.parityRenewed.map (addrInsert pa)) := by
  unfold eventBusWrite at h
  split at h
  · cases h
  · rename_i pa hpa
    refine ⟨pa, hpa, ?_⟩
    unfold busWriteAt at h
    split at h
    · cases h
    rename_i hf
    cases h
    refine ⟨hf, ?_⟩
    obtain ⟨e, hb, hr, hq⟩ := busWriteStale_ok pa s
    generalize busWriteStale pa s = u at *
    have hm : u.mem = s.mem := by rw [e]
    rcases busStore_ok u pa v with h | h <;> rw [h]
    · rw [← hm] at e
      exact ⟨congrArg (fun x : State => x.setWritten (addrInsert pa s.written)) e, .inl hm, hb, hr, hq⟩
    · exact ⟨congrArg (fun x : State => (x.setMem (memSet u.mem pa v)).setWritten (addrInsert pa s.written)) e,
        .inr (congrArg (fun m => memSet m pa v) hm), hb, hr, hq⟩

/-- What an event other than a hardware reset can change; of Register 1000h bits 11, 7, 1 and 0 alone, of Register 1002h
bit 28 alone (R212 to R219). -/
theorem envStep_ok {e : Event} {s t : State} (h : envStep e s = .next t) (hr : e ≠ .hardwareReset) :
    t = { s with
            msr := { s.msr with r1000 := t.msr.r1000, r1002 := t.msr.r1002 }, nmiPending := t.nmiPending
            hwDfsRequest := t.hwDfsRequest, mem := t.mem, staleBus := t.staleBus, staleRom := t.staleRom
            parityRenewed := t.parityRenewed, written := t.written, draws := t.draws } ∧
      (∀ i, i ≠ 11 → i ≠ 7 → i ≠ 1 → i ≠ 0 → t.msr.r1000.getLsbD i = s.msr.r1000.getLsbD i) ∧
      ∀ i, i ≠ 28 → t.msr.r1002.getLsbD i = s.msr.r1002.getLsbD i := by
  have hbit : ∀ m : Quad, (∀ j < 64, j ≠ 11 → j ≠ 7 → j ≠ 1 → j ≠ 0 → m.getLsbD j = false) → ∀ i, i ≠ 11 → i ≠ 7 →
      i ≠ 1 → i ≠ 0 → m.getLsbD i = false := fun m hm i h11 h7 h1 h0 => by
    by_cases hi : i < 64
    · exact hm i hi h11 h7 h1 h0
    · exact BitVec.getLsbD_of_ge _ _ (Nat.le_of_not_lt hi)
  have h28 : ∀ i, i ≠ 28 → (0x10000000 : Quad).getLsbD i = false := fun i h => by
    by_cases hi : i < 64
    · exact (by decide : ∀ j < 64, j ≠ 28 → (0x10000000 : Quad).getLsbD j = false) i hi h
    · exact BitVec.getLsbD_of_ge _ _ (Nat.le_of_not_lt hi)
  cases e with
  | hardwareReset => exact absurd rfl hr
  | cacheParityError =>
    rcases onPartsWith1000_next h with ⟨-, h⟩ | rfl
    · cases h
      unfold eventCacheParityError
      split
      · refine ⟨rfl, fun i h11 h7 h1 h0 => ?_, fun _ _ => rfl⟩
        show (merge 0x83 s.msr.r1000 1).getLsbD i = _
        rw [getLsbD_merge, hbit 0x83 (by decide) i h11 h7 h1 h0, if_neg (by decide)]
      · refine ⟨rfl, fun i h11 h7 h1 h0 => ?_, fun _ _ => rfl⟩
        show (s.msr.r1000 ||| (s.free &&& 1)).getLsbD i = _
        rw [BitVec.getLsbD_or, BitVec.getLsbD_and, hbit 1 (by decide) i h11 h7 h1 h0, Bool.and_false, Bool.or_false]
    · exact ⟨rfl, fun _ _ _ _ _ => rfl, fun _ _ => rfl⟩
  | cacheReload =>
    rcases onPartsWith1000_next h with ⟨-, h⟩ | rfl
    · cases h
      unfold eventCacheReload
      split
      · refine ⟨rfl, fun i h11 h7 h1 h0 => ?_, fun _ _ => rfl⟩
        show (s.msr.r1000 ||| 0x800).getLsbD i = _
        rw [BitVec.getLsbD_or, hbit 0x800 (by decide) i h11 h7 h1 h0, Bool.or_false]
      · exact ⟨rfl, fun _ _ _ _ _ => rfl, fun _ _ => rfl⟩
    · exact ⟨rfl, fun _ _ _ _ _ => rfl, fun _ _ => rfl⟩
  | dfsHardwareRequest =>
    cases h
    unfold eventDfsHardwareRequest
    split <;> exact ⟨rfl, fun _ _ _ _ _ => rfl, fun _ _ => rfl⟩
  | dfsReadyRaise =>
    cases h
    unfold eventDfsReadyRaise
    split
    · refine ⟨rfl, fun _ _ _ _ _ => rfl, fun i hi => ?_⟩
      show (s.msr.r1002 ||| 0x10000000).getLsbD i = _
      rw [BitVec.getLsbD_or, h28 i hi, Bool.or_false]
    · exact ⟨rfl, fun _ _ _ _ _ => rfl, fun _ _ => rfl⟩
  | dfsRequestRemoved =>
    cases h
    unfold eventDfsRequestRemoved
    split <;> exact ⟨rfl, fun _ _ _ _ _ => rfl, fun _ _ => rfl⟩
  | busWrite a v =>
    obtain ⟨pa, -, -, e, -⟩ := eventBusWrite_next h
    have hm : t.msr = s.msr := by rw [e]
    rw [hm]
    refine ⟨?_, fun _ _ _ _ _ => rfl, fun _ _ => rfl⟩
    have hw : t.written = addrInsert pa s.written := by rw [e]
    have hn : t.nmiPending = s.nmiPending := by rw [e]
    have hd : t.hwDfsRequest = s.hwDfsRequest := by rw [e]
    have hk : t.draws = s.draws := by rw [e]
    rw [hw, hn, hd, hk]
    exact e
  | flushSnoopSignal =>
    rcases onPartsWith1000_next h with ⟨-, h⟩ | rfl
    · cases h
      unfold eventFlushSnoopSignal
      split <;> exact ⟨rfl, fun _ _ _ _ _ => rfl, fun _ _ => rfl⟩
    · exact ⟨rfl, fun _ _ _ _ _ => rfl, fun _ _ => rfl⟩
  | pwiPin =>
    rcases onPartsWith1000_next h with ⟨-, h⟩ | rfl
    · unfold eventPwiPin at h
      split at h <;> cases h
      exact ⟨rfl, fun _ _ _ _ _ => rfl, fun _ _ => rfl⟩
    · exact ⟨rfl, fun _ _ _ _ _ => rfl, fun _ _ => rfl⟩

/-- Everything a step that answers can have been: an instruction the core fetched and executed, or the scheduled
event of the environment (R18). -/
theorem step_cases {s t : State} (h : step s = .next t) :
    (∃ rest, (s.schedule = [] ∧ rest = [] ∨ s.schedule = .core :: rest) ∧ s.nmiPending = false ∧
      ∃ i s', fetchInstr (s.setSchedule rest) = .run i s' ∧ exec i s' = .next t) ∨
    ∃ e rest, s.schedule = .env e :: rest ∧ envStep e (s.setSchedule rest) = .next t := by
  have hcore : ∀ u : State, coreStep u = .next t →
      u.nmiPending = false ∧ ∃ i s', fetchInstr u = .run i s' ∧ exec i s' = .next t := by
    intro u hu
    unfold coreStep at hu
    split at hu
    · cases hu
    · rename_i hn
      split at hu
      · exact absurd hu (stopWith_ne_next _ _ _)
      · rename_i i s' hf
        exact ⟨by simpa using hn, i, s', hf, hu⟩
  unfold step at h
  split at h
  · rename_i hs
    refine .inl ⟨[], .inl ⟨hs, rfl⟩, ?_⟩
    have e : s.setSchedule [] = s := by rw [← hs]; rfl
    rw [e]
    exact hcore s h
  · rename_i rest hs
    exact .inl ⟨rest, .inr hs, hcore (s.setSchedule rest) h⟩
  · rename_i e rest hs
    exact .inr ⟨e, rest, hs, h⟩

/-- The core's turn, whichever way the schedule says it. -/
theorem step_core {s : State} {rest : List Turn}
    (h : s.schedule = [] ∧ rest = [] ∨ s.schedule = .core :: rest) : step s = coreStep (s.setSchedule rest) := by
  rcases h with ⟨h, rfl⟩ | h
  · have e : s.setSchedule [] = s := by rw [← h]; rfl
    simp only [step, h, e]
  · simp only [step, h]

end Sys2Proof.Machine
end

