-- ==== Sys2Proof/Tests/Slice0.lean ====
section
/-! SUPPORT. Tests whose expected results are the spec's: the ill-formed terms, words written out from the encodings
and the vectors of spec/95_test_vectors.md; and for every statement with hypotheses a state and operands that meet
them. -/

namespace Sys2Proof.Tests

open Sys2Proof Sys2Proof.Machine Sys2Proof.Claim Sys2Proof.Safety

/-! ### Small states -/

/-- A claim's configuration: the parameters R8 leaves OPEN are named. -/
def named : Config :=
  { Config.atReset with physAddrBits := some .p32, extA20Mask := some false, hiddenMemSupported := some false }

/-- The state after reset on a part. -/
def part (cpu : Cpu) : State := { State.reset with cfg := { named with cpu := cpu } }

/-- With values in EAX, ECX, EDX and EBX. -/
def withRegs (s : State) (eax ecx edx ebx : Word) : State :=
  { s with regs := { s.regs with eax := eax, ecx := ecx, edx := edx, ebx := ebx } }

/-- With a configuration. -/
def withCfg (s : State) (c : Config) : State := { s with cfg := c }

/-- With bytes from a physical address on. -/
def withBytes (s : State) (a : Nat) : List Byte → State
  | [] => s
  | b :: bs => withBytes (s.setMemByte a b) (a + 1) bs

/-- The 80386 A step with the bits above the string zero (V-XBTS: "read every rest draw as rest 0"). -/
def aStep : Config := { named with cpu := .i386A, xbtsHighFill := .zero }

/-- The same in 16-bit mode. -/
def aStep16 : Config := { aStep with defaultSize := .w16 }

/-- A property of the next state. -/
def nextIs (o : Host.Outcome State Fault Refusal) (p : State → Bool) : Bool :=
  match o with
  | .next t => p t
  | .fault _ => false
  | .refused _ => false

/-- The outcome is the fault. -/
def faultIs (o : Host.Outcome State Fault Refusal) (f : Fault) : Bool :=
  match o with
  | .next _ => false
  | .fault g => g == f
  | .refused _ => false

/-- The outcome is the refusal. -/
def refusalIs (o : Host.Outcome State Fault Refusal) (r : Refusal) : Bool :=
  match o with
  | .next _ => false
  | .fault _ => false
  | .refused q => q == r

/-! ### Ill-formed terms: one for each check of WellFormed -/

/-- BP without displacement is the direct form (R119). -/
theorem test_illFormed_bp : (Instr.xbts .w16 .w16 .eax (.mem16 (.based .bp .absent))).wellFormed = false := rfl
/-- ESP is never an index (R118), with a base and without. -/
theorem test_illFormed_espIndex :
    (Instr.xbts .w32 .w32 .eax (.mem32 (.sib .x1 (some .esp) .ebx .absent))).wellFormed = false ∧
      (Instr.xbts .w32 .w32 .eax (.mem32 (.sibNoBase .x1 (some .esp) 0))).wellFormed = false := ⟨rfl, rfl⟩
/-- ESP as a plain base announces a SIB byte (R118). -/
theorem test_illFormed_espBase :
    (Instr.xbts .w32 .w32 .eax (.mem32 (.based .esp (.d8 0)))).wellFormed = false := rfl
/-- EBP without displacement is the direct form (R118). -/
theorem test_illFormed_ebp : (Instr.xbts .w32 .w32 .eax (.mem32 (.based .ebp .absent))).wellFormed = false := rfl
/-- A SIB base of EBP without displacement is the form without base (R118). -/
theorem test_illFormed_sibEbp :
    (Instr.xbts .w32 .w32 .eax (.mem32 (.sib .x2 (some .ecx) .ebp .absent))).wellFormed = false := rfl
/-- The memory form is of the instruction's address size (R114). -/
theorem test_illFormed_addressSize :
    (Instr.xbts .w32 .w32 .eax (.mem16 (.direct 0))).wellFormed = false ∧
      (Instr.xbts .w32 .w16 .eax (.mem32 (.direct 0))).wellFormed = false := ⟨rfl, rfl⟩

/-! ### Decoding (V-DEC) -/

/-- V-DEC 1 to 4: operand sizes. -/
theorem test_decode_sizes :
    decode aStep [0x0F, 0xA6, 0xD3] = .ok (.xbts .w32 .w32 .edx (.reg .ebx)) [] ∧
    decode aStep [0x66, 0x0F, 0xA6, 0xD3] = .ok (.xbts .w16 .w32 .edx (.reg .ebx)) [] ∧
    decode aStep16 [0x0F, 0xA6, 0xD3] = .ok (.xbts .w16 .w16 .edx (.reg .ebx)) [] ∧
    decode aStep16 [0x66, 0x0F, 0xA6, 0xD3] = .ok (.xbts .w32 .w16 .edx (.reg .ebx)) [] := by decide
/-- V-DEC 5, 6, 7, 11: direct forms, 67h, a sign-extended displacement. -/
theorem test_decode_memory :
    decode aStep [0x0F, 0xA6, 0x15, 0x00, 0x10, 0x00, 0x00] =
      .ok (.xbts .w32 .w32 .edx (.mem32 (.direct 0x1000))) [] ∧
    decode aStep16 [0x0F, 0xA6, 0x16, 0x00, 0x10] = .ok (.xbts .w16 .w16 .edx (.mem16 (.direct 0x1000))) [] ∧
    decode aStep [0x67, 0x0F, 0xA6, 0x17] = .ok (.xbts .w32 .w16 .edx (.mem16 (.based .bx .absent))) [] ∧
    decode aStep [0x0F, 0xA6, 0x55, 0xFC] = .ok (.xbts .w32 .w32 .edx (.mem32 (.based .ebp (.d8 0xFC)))) [] := by decide
/-- V-DEC 8, 9, 10: SIB forms. -/
theorem test_decode_sib :
    decode aStep [0x0F, 0xA6, 0x54, 0x8B, 0x04] =
      .ok (.xbts .w32 .w32 .edx (.mem32 (.sib .x4 (some .ecx) .ebx (.d8 4)))) [] ∧
    decode aStep [0x0F, 0xA6, 0x94, 0x8B, 0x00, 0x01, 0x00, 0x00] =
      .ok (.xbts .w32 .w32 .edx (.mem32 (.sib .x4 (some .ecx) .ebx (.d32 0x100)))) [] ∧
    decode aStep [0x0F, 0xA6, 0x14, 0x25, 0x00, 0x20, 0x00, 0x00] =
      .ok (.xbts .w32 .w32 .edx (.mem32 (.sibNoBase .x1 none 0x2000))) [] := by decide
/-- V-DEC 12, 13: both prefixes, and the bytes of the next instruction. -/
theorem test_decode_longest :
    decode aStep16 [0x66, 0x67, 0x0F, 0xA6, 0x94, 0x8B, 0x00, 0x01, 0x00, 0x00] =
      .ok (.xbts .w32 .w32 .edx (.mem32 (.sib .x4 (some .ecx) .ebx (.d32 0x100)))) [] ∧
    decode aStep [0x66, 0x67, 0x0F, 0xA6, 0x94, 0x8B, 0x00, 0x01, 0x00, 0x00] =
      .ok (.xbts .w16 .w16 .edx (.mem16 (.based .si (.d16 0x8B)))) [0x01, 0x00, 0x00] := by decide
/-- V-DEC 14 to 18: RDMSR, WRMSR and the helper. -/
theorem test_decode_others :
    decode Config.atReset [0x0F, 0x32] = .ok .rdmsr [] ∧ decode Config.atReset [0x0F, 0x30] = .ok .wrmsr [] ∧
    decode Config.atReset [0x66, 0x0F, 0x30] = .stop .prefixNotAdmitted ∧
    decode Config.atReset [0xB9, 0x83, 0x00, 0x00, 0x00] = .ok (.movR32Imm32 .ecx 0x83) [] ∧
    decode aStep16 [0xB9, 0x83, 0x00, 0x00, 0x00] = .stop .unknownOpcode := by decide
/-- V-DEC 19 and 25: prefixes that are not admitted, and opcodes without a row. -/
theorem test_decode_refusals :
    decode aStep [0xF0, 0x0F, 0xA6, 0xD3] = .stop .prefixNotAdmitted ∧
    decode aStep [0x66, 0x66, 0x0F, 0xA6, 0xD3] = .stop .prefixNotAdmitted ∧
    decode aStep [0x2E, 0x0F, 0xA6, 0x15] = .stop .prefixNotAdmitted ∧
    decode aStep [0x0F, 0xA7, 0xD3] = .stop .unknownOpcode ∧ decode aStep [0x90] = .stop .unknownOpcode ∧
    decode aStep [0xF4] = .stop .unknownOpcode ∧ decode aStep [0x0F, 0xAA] = .stop .unknownOpcode ∧
    decode aStep [0xF1] = .stop .unknownOpcode := by decide
/-- V-DEC 20 to 24, 26, 27: the bytes on each part. -/
theorem test_decode_parts :
    decode (part .i486A).cfg [0x0F, 0xA6, 0xD3] = .ok (.cmpxchg ⟨.w32, .w32, .edx, .reg .ebx⟩) [] ∧
    (∀ p ∈ [Cpu.other, .i486B, .am5x86, .ibm386SLC, .ibm486SLC, .ibm486SLC2, .ibm486BL3],
      decode (part p).cfg [0x0F, 0xA6, 0xD3] = .invalidOpcode [0xD3]) ∧
    (∀ p ∈ [Cpu.i386A, .i486A, .i486B, .other], decode (part p).cfg [0x0F, 0x32] = .invalidOpcode []) ∧
    decode { aStep with admitMemOperands := false } [0x0F, 0xA6, 0x15, 0x00, 0x10, 0x00, 0x00] =
      .stop .memOperandNotAdmitted := by decide
/-- CMPXCHG is format RM (R111, R185): the bytes of V-DEC 9 and 13 on the first 80486, and a memory form which
ADMIT_MEM_OPERANDS, asked after NamedOnly, does not stop (R126). -/
theorem test_decode_cmpxchg :
    decode (part .i486A).cfg [0x0F, 0xA6, 0x94, 0x8B, 0x00, 0x01, 0x00, 0x00] =
      .ok (.cmpxchg ⟨.w32, .w32, .edx, .mem32 (.sib .x4 (some .ecx) .ebx (.d32 0x100))⟩) [] ∧
    decode (part .i486A).cfg [0x66, 0x67, 0x0F, 0xA6, 0x94, 0x8B, 0x00, 0x01, 0x00, 0x00] =
      .ok (.cmpxchg ⟨.w16, .w16, .edx, .mem16 (.based .si (.d16 0x8B))⟩) [0x01, 0x00, 0x00] ∧
    decode { (part .i486A).cfg with admitMemOperands := false } [0x0F, 0xA6, 0x15, 0x00, 0x10, 0x00, 0x00] =
      .ok (.cmpxchg ⟨.w32, .w32, .edx, .mem32 (.direct 0x1000)⟩) [] := by decide
/-- The encoder writes the bytes of V-DEC 12, 5, 14, 15, 17. -/
theorem test_encode :
    encode aStep16 (.xbts .w32 .w32 .edx (.mem32 (.sib .x4 (some .ecx) .ebx (.d32 0x100)))) =
      [0x66, 0x67, 0x0F, 0xA6, 0x94, 0x8B, 0x00, 0x01, 0x00, 0x00] ∧
    encode aStep (.xbts .w32 .w32 .edx (.mem32 (.direct 0x1000))) = [0x0F, 0xA6, 0x15, 0x00, 0x10, 0x00, 0x00] ∧
    encode aStep .rdmsr = [0x0F, 0x32] ∧ encode aStep .wrmsr = [0x0F, 0x30] ∧
    encode aStep (.movR32Imm32 .ecx 0x83) = [0xB9, 0x83, 0x00, 0x00, 0x00] := by decide
/-- The opcode table's numbers, first byte most significant (R127). -/
theorem test_table_words :
    decodeTableWord 16 0x0FA6 = some (.xbts .w32 .w32 .eax (.mem32 (.based .eax .absent))) ∧
    decodeTableWord 16 0x0F32 = some .rdmsr ∧ decodeTableWord 16 0x0F30 = some .wrmsr ∧
    decodeTableWord 8 0xB9 = some (.movR32Imm32 .ecx 0) := by decide

/-! ### One step of each instruction -/

/-- V-XBTS 1, 4, 5, 6, 8, 9, 10: register forms, a string that ends at bit 31, one that runs past it, the upper half
of a 16-bit destination, a source that is the destination, and the offset register as destination. -/
theorem test_xbts_registers :
    nextIs (exec (.xbts .w32 .w32 .edx (.reg .ebx)) (withRegs (withCfg State.reset aStep) 8 0x0C 0 0xDEADBEEF))
      (fun t => t.reg .edx == 0xDBE && t.pc == 3) ∧
    nextIs (exec (.xbts .w32 .w32 .edx (.reg .ebx)) (withRegs (withCfg State.reset aStep) 0x14 0x0C 0 0xDEADBEEF))
      (fun t => t.reg .edx == 0xDEA) ∧
    refusalIs (exec (.xbts .w32 .w32 .edx (.reg .ebx)) (withRegs (withCfg State.reset aStep) 0x15 0x0C 0 0xDEADBEEF))
      .xbtsOutOfOperand ∧
    refusalIs (exec (.xbts .w32 .w32 .edx (.reg .ebx)) (withRegs (withCfg State.reset aStep) 0x20 1 0 0xDEADBEEF))
      .xbtsOutOfOperand ∧
    nextIs (exec (.xbts .w16 .w32 .edx (.reg .ebx))
      (withRegs (withCfg State.reset aStep) 0xFFFF0004 8 0x11112222 0xDEADBEEF))
      (fun t => t.reg .edx == 0x111100EE && t.pc == 4) ∧
    nextIs (exec (.xbts .w32 .w32 .ebx (.reg .ebx)) (withRegs (withCfg State.reset aStep) 4 4 0 0xDEADBEEF))
      (fun t => t.reg .ebx == 0xE) ∧
    nextIs (exec (.xbts .w32 .w32 .eax (.reg .ebx)) (withRegs (withCfg State.reset aStep) 8 8 0 0xDEADBEEF))
      (fun t => t.reg .eax == 0xBE) := by decide
/-- V-XBTS 14 and 15: a scaled index, and a 16-bit address. -/
theorem test_xbts_memory :
    nextIs (exec (.xbts .w32 .w32 .edx (.mem32 (.sib .x4 (some .ecx) .ebx (.d8 4))))
      (withBytes (withRegs (withCfg State.reset aStep) 1 3 0 0x2000) 0x2010 [0x0A, 0, 0, 0]))
      (fun t => t.reg .edx == 5 && t.pc == 5 && t.mem.length == 4) ∧
    nextIs (exec (.xbts .w32 .w16 .edx (.mem16 (.based .bx .absent)))
      (withBytes (withRegs (withCfg State.reset aStep) 4 8 0 0x12343000) 0x3000 [0x78, 0x56, 0x34, 0x12]))
      (fun t => t.reg .edx == 0x67 && t.pc == 4) := by decide
/-- V-DEC 22: CMPXCHG is refused by name. -/
theorem test_cmpxchg : refusalIs (exec (.cmpxchg ⟨.w32, .w32, .edx, .reg .ebx⟩) (part .i486A)) (.namedOnly "CMPXCHG") := by decide
/-- The Am5x86 with 0C0h stored in Register 83h and its number in ECX. -/
def stored83 : State := { withRegs (part .am5x86) 0 0x83 0 0 with msr := { State.reset.msr with r83 := 0xC0 } }

/-- V-83 2: RDMSR after 0C0h was stored, whatever is drawn for the reserved bits. -/
theorem test_rdmsr_83 (t : State) (h : exec .rdmsr stored83 = .next t) :
    t.reg .eax &&& 0xEF = 0xC0 ∧ t.pc = 2 := by
  obtain ⟨m, hm, -, rfl⟩ := (execRdmsr_next_iff (s := stored83)).1 h
  cases (show msrGate stored83 = .ok .r83 by decide).symm.trans hm
  refine ⟨?_, rfl⟩
  have key : ∀ d : Quad, merge 0xEF d 0xC0 &&& 0xEF = 0xC0 := fun d => by
    rw [merge_and (by decide)]
    decide
  have low : ∀ v : Quad, v.extractLsb' 0 32 &&& (0xEF : Word) = (v &&& 0xEF).extractLsb' 0 32 := fun v => by
    rw [BitVec.extractLsb'_and]
    rfl
  exact (low _).trans (congrArg (fun v : Quad => v.extractLsb' 0 32) (key _))
/-- V-EXC 1, 3, 4 and V-1000 16: the checks in their order. -/
theorem test_rdmsr_checks :
    faultIs (exec .rdmsr (withCfg State.reset { aStep with cpl := 3 })) (.trapped .invalidOpcode) ∧
    faultIs (exec .rdmsr (withRegs (withCfg State.reset { (part .am5x86).cfg with cpl := 3 }) 0 0x83 0 0))
      (.trapped .generalProtection) ∧
    faultIs (exec .rdmsr (withRegs (part .am5x86) 0 0x80000083 0 0)) (.trapped .generalProtection) ∧
    refusalIs (exec .rdmsr (withRegs (part .ibm486BL3) 0 0x1001 0 0)) .msrPresenceOpen := by decide
/-- V-83 1, 3, 4, 5, 6, 7, 11: WRMSR of 83h and of the register of the fragment. -/
theorem test_wrmsr_83 :
    nextIs (exec .wrmsr (withRegs (part .am5x86) 0xC0 0x83 0 0)) (fun t => t.msr.r83 == 0xC0 && t.pc == 2) ∧
    nextIs (exec .wrmsr (withRegs (part .am5x86) 3 0x83 0 0))
      (fun t => debugControl t.msr.r83 == .branchTracing && dspc t.msr.r83 && !ddc t.msr.r83) ∧
    nextIs (exec .wrmsr (withRegs (part .am5x86) 8 0x83 0 0))
      (fun t => debugControl t.msr.r83 == .probeModeOnDebugTrap) ∧
    refusalIs (exec .wrmsr (withRegs (part .am5x86) 4 0x83 0 0)) .reservedEncodingWritten ∧
    refusalIs (exec .wrmsr (withRegs (part .am5x86) 0xE 0x83 0 0)) .reservedEncodingWritten ∧
    refusalIs (exec .wrmsr (withRegs (part .am5x86) 0x10 0x83 0 0)) .reservedBitsWritten ∧
    refusalIs (exec .wrmsr (withRegs (part .am5x86) 0x100 0x83 0 0)) .reservedBitsWritten ∧
    refusalIs (exec .wrmsr (withRegs (part .am5x86) 0 0x83 1 0)) .reservedBitsWritten ∧
    refusalIs (exec .wrmsr (withRegs (part .am5x86) 0 0x82 0 0)) .arrayRegisterWrite := by decide
/-- V-1000 1, 3, 4, 12, 13: the first-write latch and bits 18 to 15; V-1002 1, 4; V-1004 1, 3. The draw reaches bits
11 and 0 alone, which the masks leave out. -/
theorem test_wrmsr_ibm :
    (∀ d, write1000 .ibm486SLC false 0 0x4484 d &&& 0x7F6FF = 0x4484) ∧
    (∀ d, write1000 .ibm486SLC true 0x4484 0x80 d &&& 0x7F6FF = 0x4480) ∧
    (∀ d, write1000 .ibm486SLC true 0x80 0x4480 d &&& 0x7F6FF = 0x80) ∧
    (∀ d, write1000 .ibm386SLC false 0 0x78000 d &&& 0x78000 = 0) ∧
    (∀ d, write1000 .ibm486SLC false 0 0x78000 d &&& 0x78000 = 0x78000) ∧
    nextIs (exec .wrmsr (withRegs (part .ibm486SLC2) 0x03000000 0x1002 0 0))
      (fun t => clockMode t.msr.r1002 == .noDivide && t.msr.r1002 == 0x03000000) ∧
    refusalIs (exec .wrmsr (withRegs (part .ibm486SLC2) 0x01000000 0x1002 0 0)) .reservedEncodingWritten ∧
    nextIs (exec .wrmsr (withRegs (part .ibm486BL3) 0x00840000 0x1004 0 0))
      (fun t => hardwareLevel t.msr.r1004 == .dd0 && nopCycles t.msr.r1004 == 3) ∧
    nextIs (exec .wrmsr (withRegs (part .ibm486BL3) 0xFFFFFFFF 0x1004 0xFFFFFFFF 0))
      (fun t => t.msr.r1004 == 0xD40000) := by
  refine ⟨fun d => ?_, fun d => ?_, fun d => ?_, fun d => ?_, fun d => ?_, by decide⟩ <;>
    (rw [write1000_of_zeros (by decide)]; decide)
/-- P1's first instruction; ESP as destination (R190). -/
theorem test_mov :
    nextIs (exec (.movR32Imm32 .ecx 0x83) (part .am5x86)) (fun t => t.reg .ecx == 0x83 && t.pc == 5) ∧
    nextIs (exec (.movR32Imm32 .esp 0xFFFFFFFF) (part .i386A)) (fun t => t.reg .esp == 0xFFFFFFFF) := by decide

/-! ### Memory, the cacheability function, events, and the step -/

/-- V-MEM 1, 2, 3: byte order and alignment. -/
theorem test_memory_order :
    (memWrite State.reset 0x2000 4 0x12345678).toOption.map (fun t => t.mem) =
      some [(0x2000, 0x78), (0x2001, 0x56), (0x2002, 0x34), (0x2003, 0x12)] ∧
    (memRead (withBytes State.reset 0x2000 [0x78, 0x56, 0x34, 0x12, 0x9A]) 0x2002 2).toOption.map Prod.fst =
      some 0x1234 ∧
    (memRead (withBytes State.reset 0x2000 [0x78, 0x56, 0x34, 0x12, 0x9A]) 0x2001 4).toOption.map Prod.fst =
      some 0x9A123456 := by decide
/-- V-MEM 4, 5, 6, 8, 9: the address path. -/
theorem test_address_path :
    let s := { part .ibm486SLC with msr := { State.reset.msr with r1000 := 4 } }
    physAddr (part .ibm486SLC) 0x10FFEF = .ok 0x10FFEF ∧ physAddr s 0x10FFEF = .ok 0xFFEF ∧
    physAddr s 0x100000 = .ok 0 ∧ physAddr s 0x200000 = .ok 0x200000 ∧ physAddr s 0x300000 = .ok 0x200000 ∧
    physAddr s 0xFFFFF = .ok 0xFFFFF ∧
    physAddr (withCfg State.reset { aStep with extA20Mask := some true }) 0x100000 = .ok 0 ∧
    physAddr (withCfg State.reset { aStep with physAddrBits := some .p24 }) 0x1000010 = .ok 0x10 := by decide
/-- R8, R84 and the open parameters of 92_eei_decisions.md: an address an OPEN parameter decides is refused, another is
not; the internal mask leaves nothing to an OPEN external one. -/
theorem test_open_parameters :
    let s := { State.reset with msr := { State.reset.msr with r1000 := 4 } }
    physAddr State.reset 0xFFFFF = .ok 0xFFFFF ∧
    physAddr State.reset 0x100000 = .error (.parameterOpen .extA20Mask) ∧ physAddr s 0x100000 = .ok 0 ∧
    physAddr s 0xFFFFFF = .ok 0xEFFFFF ∧ physAddr s 0x1000000 = .error (.parameterOpen .physAddrBits) ∧
    refusalIs (envStep (.busWrite 0x1000000 7) State.reset) (.parameterOpen .physAddrBits) ∧
    nextIs (envStep (.busWrite 0xFFFFFF 7) State.reset) (fun t => t.written == [0xFFFFFF]) ∧
    State.reset.hiddenByte 0 = .error (.parameterOpen .hiddenMemSupported) ∧
    (part .ibm486SLC).hiddenByte 0 = .ok none := by decide
/-- V-1001 3 to 6 and 9: the cacheability function and IsRom. -/
theorem test_cacheability :
    regionCacheable 65536 0x480 0xF0C00003FF 0x9FFFF = true ∧ regionCacheable 65536 0x480 0xF0C00003FF 0xA0000 = false ∧
    regionCacheable 65536 0x480 0xF0C00003FF 0xFFFFFF = true ∧
    regionCacheable 65536 0x480 0xF0C00003FF 0x1000000 = false ∧
    regionCacheable 65536 0x480 0x0F00000000 0x1EFFFF = true ∧
    regionCacheable 65536 0x480 0x0F00000000 0x1F0000 = false ∧
    regionCacheable 65536 0x4C0 0x43FF 0xE0FFF = false ∧ regionCacheable 65536 0x4C0 0x43FF 0xE1000 = true ∧
    regionRom 0xF0C00003FF 0xE0000 = true ∧ regionRom 0xF0C00003FF 0xDFFFF = false ∧
    regionRom 0xF0C00003FF 0x100000 = false := by decide
/-- V-1000 8 and 10; V-EXC 5 and 6. -/
theorem test_events :
    nextIs (envStep .cacheParityError { part .ibm486SLC with msr := { State.reset.msr with r1000 := 0x82 } })
      (fun t => t.msr.r1000 == 1 && t.nmiPending) ∧
    nextIs (envStep .cacheReload { part .ibm486SLC with msr := { State.reset.msr with r1000 := 0x480 } })
      (fun t => t.msr.r1000 == 0xC80) ∧
    refusalIs (envStep .pwiPin { part .ibm486SLC with msr := { State.reset.msr with r1000 := 0x20 } })
      .suspendNotModelled ∧
    nextIs (envStep .pwiPin (part .ibm486SLC)) (fun t => t == part .ibm486SLC) := by decide
/-- R70, R151 (f): 1002h bit 28, raised by the hardware, survives a WRMSR that writes 0 there and ends the request, and
the end of the pin's request; R216 and R252: ROM on the platform ignores a bus write. -/
theorem test_bit28_and_rom :
    nextIs (exec .wrmsr { withRegs (part .ibm486SLC2) 0x03000000 0x1002 0 0 with
      msr := { State.reset.msr with r1002 := 0x1B000000 } }) (fun t => t.msr.r1002 == 0x13000000) ∧
    nextIs (envStep .dfsRequestRemoved { part .ibm486SLC2 with
      hwDfsRequest := true, msr := { State.reset.msr with r1002 := 0x10000000 } })
      (fun t => !t.hwDfsRequest && t.msr.r1002 == 0x10000000) ∧
    nextIs (envStep (.busWrite 0xF0000 7) (withCfg State.reset { Config.atReset with platformRom := 0x8000 }))
      (fun t => t.mem.isEmpty && t.written == [0xF0000]) := by decide
/-- U8, R8: on the 486BL3 the events of the parts with Register 1000h are refused while the cell is OPEN and act once a
claim fixes it; RESET_MSR(n) is what a hardware reset leaves where a claim names it. -/
theorem test_parameters :
    (∀ e ∈ eventsOf1000, refusalIs (envStep e (part .ibm486BL3)) .msrPresenceOpen = true) ∧
    nextIs (envStep .cacheReload (withCfg State.reset { (part .ibm486BL3).cfg with bl3Has1000 := some true }))
      (fun t => t.msr.r1000 == 0x800) ∧
    nextIs (envStep .cacheReload (withCfg State.reset { (part .ibm486SLC2).cfg with slc2Has1000 := some false }))
      (fun t => t.msr.r1000 == 0) ∧
    nextIs (envStep .hardwareReset (withCfg State.reset
      { Config.atReset with resetMsr := { Config.atReset.resetMsr with r1000 := some 0x400 } }))
      (fun t => t.msr.r1000 == 0x400) := by decide
/-- R40, R91, R93: 1000h bit 17 on an IBM486SLC, and a core write under a set ROM bit in RAM and in ROM. -/
theorem test_rom_writes :
    let s := { part .ibm486SLC with msr := { State.reset.msr with r1001 := 0x80000000 } }
    let rom := withCfg s { s.cfg with platformRom := 0x8000 }
    (memWrite s 0xF0000 1 7).toOption.map (fun t => (t.memByte 0xF0000, t.isStale 0xF0000, t.written)) =
      some (7, true, [0xF0000]) ∧
    (memWrite { s with msr := { s.msr with r1000 := 0x20000 } } 0xF0000 1 7).toOption.map
      (fun t => t.isStale 0xF0000) = some false ∧
    (memWrite rom 0xF0000 1 7).toOption.map (fun t => (t.mem, t.isStale 0xF0000)) = some ([], false) ∧
    memWrite { s with fetched := [0xF0001] } 0xF0000 2 7 = .error .codeModified := by decide
/-- Each row's word, placed where the step fetches, is what the step runs: XBTS and MOV complete, RDMSR and WRMSR name
register 0 (ECX after reset), which no part has, so R147's exception. -/
theorem test_step_table_words :
    nextIs (step (State.reset.withFetchWord 16 0x0FA6)) (fun t => t.pc == 3) ∧
    nextIs (step (State.reset.withFetchWord 8 0xB9)) (fun t => t.pc == 5) ∧
    faultIs (step (State.reset.withFetchWord 16 0x0F32)) (.trapped .generalProtection) ∧
    faultIs (step (State.reset.withFetchWord 16 0x0F30)) (.trapped .generalProtection) := by decide

/-! ### Witnesses: the hypotheses of each statement that has any are met, each clause at a boundary of its range -/

/-- A property that holds of the next state gives one. -/
theorem exists_of_nextIs {o : Host.Outcome State Fault Refusal} {p : State → Bool} (h : nextIs o p = true) :
    ∃ t, o = .next t ∧ p t = true := by
  cases o with
  | next t => exact ⟨t, rfl, h⟩
  | fault f => cases h
  | refused r => cases h

/-- The 80386 A step with the string of length `len` at `off`, and bytes at 2000h and at pc. -/
def extracting (off len : Word) : State :=
  withBytes (withRegs (withCfg State.reset aStep) off len 0 0x2000) 0x2000 [0xEF, 0xBE, 0xAD, 0xDE]

/-- A part with ECX naming a register. -/
def naming (cpu : Cpu) (n : Word) : State := withRegs (part cpu) 0 n 0 0

theorem witness_DecodeOfEncodeIsTheInstruction :
    (∀ i ∈ [Instr.xbts .w16 .w16 .edi (.mem16 (.based .bx (.d16 0xFFFF))), .xbts .w32 .w32 .eax (.reg .edi),
      .xbts .w32 .w32 .esp (.mem32 (.sib .x8 none .esp .absent)), .movR32Imm32 .edi 0xFFFFFFFF],
      i.wellFormed = true ∧ i.availableOn aStep = true) ∧
    ((Instr.cmpxchg ⟨.w16, .w32, .edi, .mem32 (.direct 0)⟩).wellFormed = true ∧
      (Instr.cmpxchg ⟨.w16, .w32, .edi, .mem32 (.direct 0)⟩).availableOn (part .i486A).cfg = true) ∧
    ∀ i ∈ [Instr.rdmsr, .wrmsr], i.wellFormed = true ∧ i.availableOn (part .am5x86).cfg = true := by decide

theorem witness_DecodedInstructionIsWellFormedAndHasItsLength :
    decode aStep16 [0x66, 0x67, 0x0F, 0xA6, 0x94, 0x8B, 0x00, 0x01, 0x00, 0x00, 0x90] =
      .ok (.xbts .w32 .w32 .edx (.mem32 (.sib .x4 (some .ecx) .ebx (.d32 0x100)))) [0x90] := by decide

theorem witness_DecoderReadsOnlyTheInstructionsBytes : decode Config.atReset [0x0F, 0x32, 0xFF] = .ok .rdmsr [0xFF] := by
  decide

theorem witness_PrefixesNotAdmittedAreRefused :
    (0xF0 : Byte) ∈ neverAdmitted ∧ (0x65 : Byte) ∈ neverAdmitted ∧ ((0x66 : Byte) = 0x66 ∨ (0x66 : Byte) = 0x67) ∧
    ((0x30 : Byte) = 0x30 ∨ (0x30 : Byte) = 0x32) ∧ 0xB8 ≤ (0xB8 : Byte).toNat ∧ (0xBF : Byte).toNat ≤ 0xBF := by decide

theorem witness_Opcode0FA6DependsOnTheProcessor :
    (part .i486B).cfg.cpu ∈ lacks0FA6 ∧ (part .i486A).cfg.cpu = .i486A ∧ aStep.cpu = .i386A ∧
    0xC0 ≤ (0xC0 : Byte).toNat ∧ (0xBF : Byte).toNat < 0xC0 ∧
    ({ aStep with admitMemOperands := false } : Config).admitMemOperands = false := by decide

theorem witness_MsrOpcodesExistOnlyWithMsrs :
    (part .other).cfg.cpu ∈ lacksMsrs ∧ (part .ibm486BL3).cfg.cpu ∉ lacksMsrs := by decide

theorem witness_UnknownOpcodesAreRefused :
    ((0xB7 : Byte) ∉ neverAdmitted ∧ (0xB7 : Byte) ≠ 0x66 ∧ (0xB7 : Byte) ≠ 0x67 ∧ (0xB7 : Byte) ≠ 0x0F ∧
      (0xB7 : Byte).toNat < 0xB8 ∧ 0xBF < (0xC0 : Byte).toNat) ∧
    ((0xA7 : Byte) ≠ 0xA6 ∧ (0x31 : Byte) ≠ 0x32 ∧ (0x31 : Byte) ≠ 0x30) ∧
    (0xB8 ≤ (0xBF : Byte).toNat ∧ (0xBF : Byte).toNat ≤ 0xBF ∧ aStep16.defaultSize = .w16) := by decide

theorem witness_SixteenBitAddressesFollowTheTable : (7 : Fin 8) ≠ 6 := by decide

theorem witness_ThirtyTwoBitAddressesFollowTheTable :
    (7 < 8 ∧ 7 ≠ 4 ∧ 7 ≠ 5) ∧ (3 : Nat) < 4 ∧ (4 : Nat) < 8 ∧ (5 : Nat) < 8 := by decide

/-- RDMSR in the last two bytes of the address space. -/
def atTheEnd : State := { withBytes (part .ibm486SLC) 0xFFFFFFFE [0x0F, 0x32] with pc := 0xFFFFFFFE }

theorem witness_StepRunsTheDecodedInstruction :
    CoreTurn atTheEnd [] ∧ atTheEnd.nmiPending = false ∧
      HoldsAtPc atTheEnd [0x0F, 0x32] [0xFFFFFFFE, 0xFFFFFFFF] .rdmsr := by
  refine ⟨.inl ⟨rfl, rfl⟩, rfl, by decide, rfl, by decide, fun k pa b hp hb => ?_⟩
  match k with
  | 0 =>
    cases hp
    cases hb
    decide
  | 1 =>
    cases hp
    cases hb
    decide
  | k + 2 => simp at hp

theorem witness_PendingNmiIsTakenBeforeTheFetch :
    CoreTurn { part .ibm486SLC with nmiPending := true, schedule := [.core, .env .cacheReload] } [.env .cacheReload] ∧
      ({ part .ibm486SLC with nmiPending := true } : State).nmiPending = true := ⟨.inr rfl, rfl⟩

/-- 0Fh A6h on the later 80486, 0Fh 30h and 0Fh 32h on the first, each in the last two bytes of the address space. -/
theorem witness_MissingOpcodeTraps :
    let s (cpu : Cpu) (b : Byte) := { withBytes (part cpu) 0xFFFFFFFE [0x0F, b] with pc := 0xFFFFFFFE }
    (∀ cpu b, CoreTurn (s cpu b) []) ∧
    ∀ x ∈ [(Cpu.i486B, (0xA6 : Byte)), (.i486A, 0x30), (.i486A, 0x32)],
      (s x.1 x.2).nmiPending = false ∧ (s x.1 x.2).pc.toNat + 2 ≤ 2 ^ 32 ∧
      physAddr (s x.1 x.2) (s x.1 x.2).pc = .ok 0xFFFFFFFE ∧
      physAddr (s x.1 x.2) ((s x.1 x.2).pc + 1) = .ok 0xFFFFFFFF ∧ (s x.1 x.2).memByte 0xFFFFFFFE = 0x0F ∧
      (((s x.1 x.2).cfg.cpu ∈ lacks0FA6 ∧ (s x.1 x.2).memByte 0xFFFFFFFF = 0xA6) ∨
        ((s x.1 x.2).cfg.cpu ∈ lacksMsrs ∧
          ((s x.1 x.2).memByte 0xFFFFFFFF = 0x30 ∨ (s x.1 x.2).memByte 0xFFFFFFFF = 0x32))) ∧
      0xFFFFFFFE ∉ (s x.1 x.2).written ∧ 0xFFFFFFFF ∉ (s x.1 x.2).written :=
  ⟨fun _ _ => .inl ⟨rfl, rfl⟩, by decide⟩

/-- RDMSR of Register 1000h there; and the first byte of an RDMSR in the last byte of the address space. -/
def readingAtTheEnd : State := withRegs atTheEnd 0 0x1000 0 0
def brokenOff : State := { withBytes (part .ibm486SLC) 0xFFFFFFFF [0x0F] with pc := 0xFFFFFFFF }

/-- A step that falls through; RDMSR in the last two bytes of the address space, which completes at pc 0; the first byte
of RDMSR in the last byte of the address space. -/
theorem witness_PcOnlyFallsThrough :
    (CoreTurn (State.reset.withFetchWord 8 0xB9) [] ∧ ∃ t, step (State.reset.withFetchWord 8 0xB9) = .next t) ∧
    (CoreTurn readingAtTheEnd [] ∧ readingAtTheEnd.nmiPending = false ∧
      HoldsAtPc readingAtTheEnd [0x0F, 0x32] [0xFFFFFFFE, 0xFFFFFFFF] .rdmsr ∧ ¬ FitsPc readingAtTheEnd 2 ∧
      ∃ u, exec .rdmsr (((readingAtTheEnd.setSchedule []).noteFetched [0xFFFFFFFE, 0xFFFFFFFF]).setPc 0) = .next u) ∧
    CoreTurn brokenOff [] ∧ brokenOff.nmiPending = false ∧ BrokenOffAtTheEnd brokenOff [0x0F] [0xFFFFFFFF] := by
  refine ⟨⟨.inl ⟨by decide, rfl⟩, ?_⟩, ⟨.inl ⟨rfl, rfl⟩, rfl, ?_, fun h => absurd h.1 (by decide), ?_⟩, .inl ⟨rfl, rfl⟩,
    rfl, ⟨[0x32], .rdmsr, by decide, by decide⟩, rfl, by decide, fun k pa b hp hb => ?_⟩
  · obtain ⟨t, ht, -⟩ := exists_of_nextIs test_step_table_words.2.1
    exact ⟨t, ht⟩
  · exact witness_StepRunsTheDecodedInstruction.2.2
  · obtain ⟨u, hu, -⟩ := exists_of_nextIs (o := exec .rdmsr
      (((readingAtTheEnd.setSchedule []).noteFetched [0xFFFFFFFE, 0xFFFFFFFF]).setPc 0))
      (p := fun _ => true) (by decide)
    exact ⟨u, hu⟩
  · match k with
    | 0 =>
      cases hp
      cases hb
      decide
    | k + 1 => simp at hp

/-- In 16-bit mode the offset ends at FFFFh: two bytes from FFFDh fit, from FFFEh they do not. -/
theorem witness_FitsPc16 :
    FitsPc { withCfg State.reset aStep16 with pc := 0x1FFFD } 2 ∧
      ¬ FitsPc { withCfg State.reset aStep16 with pc := 0x1FFFE } 2 := by
  unfold FitsPc
  decide

theorem witness_PagingRefusesTheFetch :
    let s := { part .i386A with cr0 := 0x80000000 }
    CoreTurn s [] ∧ s.nmiPending = false ∧ s.cr0.getLsbD 31 = true := ⟨.inl ⟨rfl, rfl⟩, rfl, by decide⟩

theorem witness_FetchOfWrittenCodeRefuses :
    let s := { atTheEnd with written := [0xFFFFFFFF] }
    CoreTurn s [] ∧ s.nmiPending = false ∧ decode s.cfg [0x0F, 0x32] = .ok .rdmsr [] ∧
      ([0xFFFFFFFE, 0xFFFFFFFF] : List Nat).length = ([0x0F, 0x32] : List Byte).length ∧ s.pc.toNat + 2 ≤ 2 ^ 32 ∧
      (∀ k pa b, ([0xFFFFFFFE, 0xFFFFFFFF] : List Nat)[k]? = some pa → ([0x0F, 0x32] : List Byte)[k]? = some b →
        physAddr s (s.pc + BitVec.ofNat 32 k) = .ok pa ∧ s.memByte pa = b) ∧
      0xFFFFFFFF ∈ ([0xFFFFFFFE, 0xFFFFFFFF] : List Nat) ∧ 0xFFFFFFFF ∈ s.written := by
  refine ⟨.inl ⟨rfl, rfl⟩, rfl, by decide, rfl, by decide, fun k pa b hp hb => ?_, by decide, by decide⟩
  match k with
  | 0 =>
    cases hp
    cases hb
    decide
  | 1 =>
    cases hp
    cases hb
    decide
  | k + 2 => simp at hp

theorem witness_XbtsRegisterFormExtractsTheField :
    (RunsGK (extracting 20 12) ∧ bitOffset .w32 (extracting 20 12) + bitCount (extracting 20 12) ≤ width .w32 ∧
      FitsPc (extracting 20 12) 3) ∧
    (RunsGK (extracting 0xFFFF0010 0) ∧
      bitOffset .w16 (extracting 0xFFFF0010 0) + bitCount (extracting 0xFFFF0010 0) ≤ width .w16 ∧
      FitsPc (extracting 0xFFFF0010 0) 4) ∧
    (extracting 20 12).cfg.xbtsHighFill = .zero ∧ State.reset.cfg.xbtsHighFill = .draw := by
  refine ⟨⟨⟨rfl, rfl⟩, by decide, ?_⟩, ⟨⟨rfl, rfl⟩, by decide, ?_⟩, rfl, rfl⟩ <;>
    (unfold FitsPc; decide)

/-- The operand's four bytes have physical addresses, which no register value decides. -/
theorem readable_extracting (off len : Word) : Readable (extracting off len) 0x2000 .w32 := by
  intro k hk
  have h4 : k < 4 := hk
  rw [physAddr_congr (s := withCfg State.reset aStep) (t := extracting off len) rfl rfl rfl]
  interval_cases k
  · exact ⟨0x2000, by decide⟩
  · exact ⟨0x2001, by decide⟩
  · exact ⟨0x2002, by decide⟩
  · exact ⟨0x2003, by decide⟩

theorem witness_XbtsMemoryFormExtractsTheField :
    RunsGK (extracting 20 12) ∧
      rmPlace (extracting 20 12) (.mem32 (.based .ebx .absent)) = .mem 0x2000 ∧ Readable (extracting 20 12) 0x2000 .w32 ∧
      bitOffset .w32 (extracting 20 12) + bitCount (extracting 20 12) ≤ width .w32 ∧ FitsPc (extracting 20 12) 3 ∧
      ∀ k, k < width .w32 / 8 → (extracting 20 12).isStale (0x2000 + k) = false := by
  refine ⟨⟨rfl, rfl⟩, rfl, readable_extracting _ _, by decide, ?_, fun _ _ => rfl⟩
  unfold FitsPc
  decide

theorem witness_XbtsPastTheOperandIsRefused :
    RunsGK (extracting 21 12) ∧ OperandReadable (extracting 21 12) .w32 (.mem32 (.based .ebx .absent)) ∧
      OperandReadable (extracting 21 12) .w32 (.reg .ebx) ∧
      width .w32 < bitOffset .w32 (extracting 21 12) + bitCount (extracting 21 12) := by
  refine ⟨⟨rfl, rfl⟩, ?_, ?_, by decide⟩ <;> intro ea h <;> cases h
  exact readable_extracting _ _

theorem witness_XbtsLiteralRefusesEveryInput :
    let s := withCfg State.reset { aStep with xbtsFn := .literal }
    s.cfg.cpu = .i386A ∧ s.cfg.xbtsFn = .literal ∧ OperandReadable s .w16 (.reg .esp) :=
  ⟨rfl, rfl, fun ea h => by cases h⟩

theorem witness_XbtsMemoryOperandWithPagingIsRefused :
    let s := { extracting 0 1 with cr0 := 0x80000000 }
    s.cfg.cpu = .i386A ∧ rmPlace s (.mem32 (.based .ebx .absent)) = .mem 0x2000 ∧ s.cr0.getLsbD 31 = true :=
  ⟨rfl, rfl, by decide⟩

theorem witness_XbtsExistsOnlyOnTheAStep :
    (part .other).cfg.cpu ∈ lacks0FA6 ∧ (part .ibm486BL3).cfg.cpu ∈ lacks0FA6 ∧ (part .i486A).cfg.cpu = .i486A := by decide

/-- An XBTS that answers. -/
theorem witness_XbtsLeavesTheStatusFlagsFree :
    ∃ t, exec (.xbts .w32 .w32 .edx (.reg .ebx)) (withRegs (withCfg State.reset aStep) 8 0x0C 0 0xDEADBEEF) = .next t := by
  obtain ⟨t, ht, -⟩ := exists_of_nextIs test_xbts_registers.1
  exact ⟨t, ht⟩

/-- A memory operand, and a register operand. -/
theorem witness_XbtsFrame :
    (∃ t, exec (.xbts .w32 .w32 .edx (.mem32 (.sib .x4 (some .ecx) .ebx (.d8 4))))
      (withBytes (withRegs (withCfg State.reset aStep) 1 3 0 0x2000) 0x2010 [0x0A, 0, 0, 0]) = .next t) ∧
    ((∃ t, exec (.xbts .w32 .w32 .edx (.reg .ebx)) (withRegs (withCfg State.reset aStep) 8 0x0C 0 0xDEADBEEF) = .next t) ∧
      rmPlace (withRegs (withCfg State.reset aStep) 8 0x0C 0 0xDEADBEEF) (.reg .ebx) = .reg .ebx) := by
  obtain ⟨t, ht, -⟩ := exists_of_nextIs test_xbts_memory.1
  obtain ⟨u, hu, -⟩ := exists_of_nextIs test_xbts_registers.1
  exact ⟨⟨t, ht⟩, ⟨u, hu⟩, rfl⟩

/-- The part, and bytes that are CMPXCHG on it and XBTS on the A step. -/
theorem witness_CmpxchgIsRefusedByName :
    (part .i486A).cfg.cpu = .i486A ∧
    decode (part .i486A).cfg [0x67, 0x0F, 0xA6, 0x17] = .ok (.cmpxchg ⟨.w32, .w16, .edx, .mem16 (.based .bx .absent)⟩) [] ∧
    decode { (part .i486A).cfg with cpu := .i386A, admitMemOperands := true } [0x67, 0x0F, 0xA6, 0x17] =
      .ok (.xbts .w32 .w16 .edx (.mem16 (.based .bx .absent))) [] := by decide

theorem witness_MovLoadsTheImmediate :
    let s := { part .i386A with pc := 0xFFFFFFFA }
    s.cfg.defaultSize = .w32 ∧ FitsPc s 5 ∧ (withCfg State.reset aStep16).cfg.defaultSize = .w16 ∧
      (0x65 : Byte) ∈ 0x66 :: 0x67 :: neverAdmitted := ⟨rfl, by unfold FitsPc; decide, rfl, by decide⟩

/-- Each register at its number, present and at CPL 0; and the last pc from which two bytes do not wrap. -/
theorem witness_selects :
    Selects (naming .am5x86 0x82) .array ∧ Selects (naming .am5x86 0x83) .r83 ∧
    Selects (naming .ibm486SLC 0x1000) .r1000 ∧ Selects (naming .ibm386SLC 0x1001) .r1001 ∧
    Selects (naming .ibm486SLC2 0x1002) .r1002 ∧ Selects (naming .ibm486BL3 0x1004) .r1004 ∧
    FitsPc { naming .am5x86 0x83 with pc := 0xFFFFFFFD } 2 := by
  unfold Selects FitsPc
  decide

theorem witness_RdmsrReturnsTheStoredFields :
    Selects (naming .ibm486SLC 0x1000) .r1000 ∧ FitsPc (naming .ibm486SLC 0x1000) 2 ∧
      fixedBit (naming .ibm486SLC 0x1000) .r1000 18 = true ∧ fixedBit (naming .ibm486SLC 0x1000) .r1000 0 = true :=
  ⟨witness_selects.2.2.1, by unfold FitsPc; decide, by decide, by decide⟩

theorem witness_RdmsrDrawsTheReservedBits :
    Selects (naming .am5x86 0x82) .array ∧ (∃ t, exec .rdmsr (naming .am5x86 0x82) = .next t) ∧
      fixedBit (naming .am5x86 0x82) .array 63 = false := by
  obtain ⟨t, ht, -⟩ := exists_of_nextIs (o := exec .rdmsr (naming .am5x86 0x82)) (p := fun _ => true) (by decide)
  exact ⟨witness_selects.1, ⟨t, ht⟩, rfl⟩

/-- Bit 4 of 83h differs and nothing else does. -/
theorem witness_RdmsrDoesNotRevealReservedBits :
    let s := naming .am5x86 0x83
    (∃ t, exec .rdmsr s = .next t) ∧ s.msr.set .r83 0x10 ≠ s.msr ∧
      ∀ m i, i < 64 → fixedBit s m i = true → ((s.msr.set .r83 0x10).get m).getLsbD i = (s.msr.get m).getLsbD i := by
  obtain ⟨t, ht, -⟩ := exists_of_nextIs (o := exec .rdmsr (naming .am5x86 0x83)) (p := fun _ => true) (by decide)
  refine ⟨⟨t, ht⟩, by decide, fun m i hi h => ?_⟩
  cases m with
  | r83 => exact (by decide : ∀ i < 64, fixedBit (naming .am5x86 0x83) .r83 i = true →
      (0x10 : Quad).getLsbD i = (0 : Quad).getLsbD i) i hi h
  | array => rfl
  | r1000 => rfl
  | r1001 => rfl
  | r1002 => rfl
  | r1004 => rfl

theorem witness_MsrAccessChecks :
    (part .i386A).cfg.cpu ∈ lacksMsrs ∧ (part .am5x86).cfg.cpu ∉ lacksMsrs ∧
    (withCfg State.reset { (part .am5x86).cfg with cpl := 1 }).cfg.cpl ≠ 0 ∧
    msrOfNumber (part .am5x86).cfg ((naming .am5x86 0x84).reg .ecx) = none ∧
    (msrOfNumber (part .am5x86).cfg ((naming .am5x86 0x1000).reg .ecx) = some .r1000 ∧
      msrPresence (part .am5x86).cfg .r1000 = .absent) ∧
    (msrOfNumber (part .ibm486BL3).cfg ((naming .ibm486BL3 0x1002).reg .ecx) = some .r1002 ∧
      msrPresence (part .ibm486BL3).cfg .r1002 = .isOpen) ∧
    (Config.atReset.arrayMsrIndex ∉ registerNumbers.map Prod.fst ∧
      ((0x1004 : Word), MsrId.r1004) ∈ registerNumbers ∧ (0x82 : Word) = Config.atReset.arrayMsrIndex ∧
      (0x1003 : Word) ≠ Config.atReset.arrayMsrIndex ∧ (0x1003 : Word) ∉ registerNumbers.map Prod.fst) ∧
    (((part .am5x86).cfg.cpu, MsrId.r83) ∈ presentCells ∧
      ((part .ibm486SLC2).cfg.cpu, MsrId.r1001, some true) ∈ markedD36 (part .ibm486SLC2).cfg ∧
      ((part .am5x86).cfg.cpu, MsrId.r1000) ∉ presentCells) := by decide

theorem witness_Wrmsr83StoresTheFields :
    let s := withRegs (part .am5x86) 0xE9 0x83 0 0
    Selects s .r83 ∧ FitsPc s 2 ∧ Writes83Zeros s ∧ written3to1 s = 4 := by
  refine ⟨by unfold Selects; decide, by unfold FitsPc; decide, ⟨rfl, fun i h => ?_⟩, by decide⟩
  show (0xE9 : Word).getLsbD i = false
  by_cases hi : i < 32
  · exact (by decide : ∀ i < 32, 8 ≤ i ∨ i = 4 → (0xE9 : Word).getLsbD i = false) i hi h
  · exact BitVec.getLsbD_of_ge _ _ (Nat.le_of_not_lt hi)

theorem witness_Wrmsr83RefusesReservedWrites :
    (Selects (withRegs (part .am5x86) 0 0x83 1 0) .r83 ∧ ¬ Writes83Zeros (withRegs (part .am5x86) 0 0x83 1 0)) ∧
    (Selects (withRegs (part .am5x86) 4 0x83 0 0) .r83 ∧ Writes83Zeros (withRegs (part .am5x86) 4 0x83 0 0) ∧
      written3to1 (withRegs (part .am5x86) 4 0x83 0 0) = 2) := by
  refine ⟨⟨by unfold Selects; decide, fun h => absurd h.1 (by decide)⟩, by unfold Selects; decide, ⟨rfl, fun i h => ?_⟩,
    by decide⟩
  show (4 : Word).getLsbD i = false
  by_cases hi : i < 32
  · exact (by decide : ∀ i < 32, 8 ≤ i ∨ i = 4 → (4 : Word).getLsbD i = false) i hi h
  · exact BitVec.getLsbD_of_ge _ _ (Nat.le_of_not_lt hi)

theorem witness_Wrmsr1000StoresTheFields :
    Selects (naming .ibm386SLC 0x1000) .r1000 ∧ FitsPc (naming .ibm386SLC 0x1000) 2 ∧
      controlBit .ibm386SLC .r1000 1 = true ∧ controlBit .ibm386SLC .r1000 15 = false ∧
      controlBit .ibm486SLC .r1000 18 = true := by
  unfold Selects FitsPc
  decide

theorem witness_Wrmsr1000WrittenOneLeavesAFreeStatusBit :
    let s := withRegs (part .ibm486SLC) 0x801 0x1000 0 0
    Selects s .r1000 ∧ (∃ t, exec .wrmsr s = .next t) ∧ (s.reg .eax).getLsbD 11 = true ∧
      (s.reg .eax).getLsbD 0 = true := by
  obtain ⟨t, ht, -⟩ := exists_of_nextIs (o := exec .wrmsr (withRegs (part .ibm486SLC) 0x801 0x1000 0 0))
    (p := fun _ => true) (by decide)
  exact ⟨by unfold Selects; decide, ⟨t, ht⟩, by decide, by decide⟩

theorem witness_Wrmsr1001StoresTheFields :
    Selects (naming .ibm386SLC 0x1001) .r1001 ∧ FitsPc (naming .ibm386SLC 0x1001) 2 := by
  unfold Selects FitsPc
  decide

theorem witness_Wrmsr1002StoresTheFields :
    (Selects (withRegs (part .ibm486SLC2) 0x04000000 0x1002 0 0) .r1002 ∧
      FitsPc (withRegs (part .ibm486SLC2) 0x04000000 0x1002 0 0) 2 ∧
      written26to24 (withRegs (part .ibm486SLC2) 0x04000000 0x1002 0 0) = 4 ∧
      (part .ibm486SLC2).msr.r1002.getLsbD 27 = false) ∧
    (Selects (withRegs (part .ibm486SLC2) 0x07000000 0x1002 0 0) .r1002 ∧
      written26to24 (withRegs (part .ibm486SLC2) 0x07000000 0x1002 0 0) = 7) := by
  unfold Selects FitsPc
  decide

theorem witness_Wrmsr1004StoresTheFields :
    Selects (naming .ibm486BL3 0x1004) .r1004 ∧ FitsPc (naming .ibm486BL3 0x1004) 2 := by
  unfold Selects FitsPc
  decide

theorem witness_WrmsrOfTheArrayRegisterIsRefused : Selects (naming .am5x86 0x82) .array := witness_selects.1

/-- WRMSR, then RDMSR in the state it leaves. -/
theorem witness_RdmsrReadsBackWhatWrmsrStored :
    Selects (withRegs (part .am5x86) 0xC0 0x83 0 0) .r83 ∧
      (∃ t u, exec .wrmsr (withRegs (part .am5x86) 0xC0 0x83 0 0) = .next t ∧ exec .rdmsr t = .next u) ∧
      controlBit .am5x86 .r83 7 = true := by
  obtain ⟨t, ht, h⟩ := exists_of_nextIs (o := exec .wrmsr (withRegs (part .am5x86) 0xC0 0x83 0 0))
    (p := fun t => nextIs (exec .rdmsr t) fun _ => true) (by decide)
  obtain ⟨u, hu, -⟩ := exists_of_nextIs h
  exact ⟨by unfold Selects; decide, ⟨t, u, ht, hu⟩, rfl⟩

/-- An event and then an instruction, with the latch used up. -/
theorem witness_LatchedBitsNeverChangeWithoutReset :
    let s := { (State.reset.withFetchWord 8 0xB9) with msr1000Written := true, schedule := [.env .cacheReload] }
    scheduled s .hardwareReset = false ∧ s.msr1000Written = true ∧ ∃ t, ReachesIn 2 s t := by
  refine ⟨by decide, rfl, ?_⟩
  obtain ⟨t, ht, -⟩ := exists_of_nextIs (o := Host.Core.run Sys2Proof.core 2
    { (State.reset.withFetchWord 8 0xB9) with msr1000Written := true, schedule := [.env .cacheReload] })
    (p := fun _ => true) (by decide)
  exact ⟨t, ht⟩

theorem witness_UnprivilegedCodeCannotReachTheMsrs :
    let s := withCfg (State.reset.withFetchWord 8 0xB9) { Config.atReset with cpl := 3 }
    CoreTurn s [] ∧ s.cfg.cpl ≠ 0 ∧ ∃ t, step s = .next t := by
  refine ⟨.inl ⟨by decide, rfl⟩, by decide, ?_⟩
  obtain ⟨t, ht, -⟩ := exists_of_nextIs
    (o := step (withCfg (State.reset.withFetchWord 8 0xB9) { Config.atReset with cpl := 3 })) (p := fun _ => true)
    (by decide)
  exact ⟨t, ht⟩

/-- WRMSR 1001h changes the register. -/
theorem witness_NoInstructionButWrmsrChangesTheMsrs :
    let s := withRegs (State.reset.withFetchWord 16 0x0F30) 0xC00003FF 0x1001 0 0
    CoreTurn s [] ∧ ∃ t, step s = .next t ∧ ¬ MsrsSame s t := by
  refine ⟨.inl ⟨by decide, rfl⟩, ?_⟩
  obtain ⟨t, ht, hp⟩ := exists_of_nextIs
    (o := step (withRegs (State.reset.withFetchWord 16 0x0F30) 0xC00003FF 0x1001 0 0))
    (p := fun t => t.msr.r1001 == 0xC00003FF) (by decide)
  refine ⟨t, ht, fun h => ?_⟩
  rw [h.1] at hp
  exact absurd hp (by decide)

theorem witness_StepsKeepCr0HiddenMemoryConfigurationAndClock :
    (∃ t, step (State.reset.withFetchWord 8 0xB9) = .next t) ∧
      (State.reset.withFetchWord 8 0xB9).schedule.head? ≠ some (.env .hardwareReset) :=
  ⟨witness_PcOnlyFallsThrough.1.2, by decide⟩

theorem witness_AddressPath :
    ({ part .i386A with cr0 := 0x80000000 } : State).cr0.getLsbD 31 = true ∧
    (part .ibm486SLC).cfg.extA20Mask = some false ∧ (part .ibm486SLC).cfg.physAddrBits = some .p32 ∧
    (part .ibm486SLC).cr0.getLsbD 31 = false ∧ msrPresence (part .ibm486SLC).cfg .r1000 ≠ .isOpen := by decide

/-- Each OPEN parameter; bit 20 clear, set and masked, set and not masked; addresses on both sides of 1000000h. -/
theorem witness_OpenParametersStopOnlyAddressesTheyDecide :
    let open1000 := { part .ibm486BL3 with msr := { State.reset.msr with r1000 := 4 } }
    let inside := { State.reset with msr := { State.reset.msr with r1000 := 4 } }
    State.reset.cfg.hiddenMemSupported = none ∧ State.reset.cr0.getLsbD 31 = false ∧
    ((0x100000 : Word).toNat / 2 ^ 20 % 2 = 1 ∧ (0xFFFFF : Word).toNat / 2 ^ 20 % 2 = 0) ∧
    (msrPresence open1000.cfg .r1000 = .isOpen ∧ open1000.msr.r1000.getLsbD 2 = true ∧
      open1000.cfg.extA20Mask = some false ∧ open1000.cfg.physAddrBits = some .p32) ∧
    (State.reset.msr.r1000.getLsbD 2 = false ∧ State.reset.cfg.extA20Mask = none ∧
      State.reset.cfg.physAddrBits = none) ∧
    (msrPresence inside.cfg .r1000 = .present ∧ inside.msr.r1000.getLsbD 2 = true ∧
      0xF00000 + 2 ^ 20 = (0x1000000 : Word).toNat ∧ 0xEFFFFF + 2 ^ 20 = (0xFFFFFF : Word).toNat) ∧
    ((0x1000000 : Word).toNat / 2 ^ 20 % 2 = 0 ∧ 2 ^ 24 ≤ (0x1000000 : Word).toNat) ∧
    (¬ (part .ibm486SLC).msr.r1000.getLsbD 2 = true ∧ (part .ibm486SLC).cfg.extA20Mask = some false) := by decide

theorem witness_MaskedA20WrapsAtOneMegabyte :
    let s := { part .ibm486SLC with msr := { State.reset.msr with r1000 := 4 } }
    s.a20Masked = true ∧ (0x1FFFFF : Word).toNat / 2 ^ 20 % 2 = 1 ∧ physAddr s 0x1FFFFF = .ok 0xFFFFF := by decide

/-- An IBM486SLC with the ROM bit of F0000h-FFFFFh set, the platform's ROM there or not. -/
def underRom (platformRom : BitVec 16) : State :=
  { withCfg State.reset { (part .ibm486SLC).cfg with platformRom := platformRom } with
    msr := { State.reset.msr with r1001 := 0x80000000 } }

/-- With the byte at 0 fetched as code. -/
def fetched0 : State := { part .i386A with fetched := [0] }

/-- A write that wraps at the top of the address space, each byte with an address; one refused on its second byte. -/
theorem witness_MemReadAfterMemWrite :
    (∀ k, k < 4 → ∃ pa, physAddr (part .i386A) (0xFFFFFFFE + BitVec.ofNat 32 k) = .ok pa ∧ pa ∉ (part .i386A).fetched) ∧
    (∃ t, memWrite (part .i386A) 0xFFFFFFFE 4 0x12345678 = .ok t) ∧
    (∀ k, k < 2 → ∃ pa, physAddr fetched0 (0xFFFFFFFF + BitVec.ofNat 32 k) = .ok pa) ∧
    physAddr fetched0 (0xFFFFFFFF + BitVec.ofNat 32 1) = .ok 0 ∧ 0 ∈ fetched0.fetched := by
  refine ⟨fun k hk => ?_, ?_, fun k hk => ?_, by decide⟩
  · interval_cases k
    · exact ⟨0xFFFFFFFE, by decide⟩
    · exact ⟨0xFFFFFFFF, by decide⟩
    · exact ⟨0, by decide⟩
    · exact ⟨1, by decide⟩
  · have h : (memWrite (part .i386A) 0xFFFFFFFE 4 0x12345678).isOk = true := by decide
    cases hw : memWrite (part .i386A) 0xFFFFFFFE 4 0x12345678 with
    | ok t => exact ⟨t, rfl⟩
    | error r =>
      rw [hw] at h
      cases h
  · interval_cases k
    · exact ⟨0xFFFFFFFF, by decide⟩
    · exact ⟨0, by decide⟩

/-- A byte written under a ROM bit that was cleared afterwards. -/
def staleByRom : State := { part .ibm486SLC with staleRom := [0xFFFFF] }

/-- R93: a later core write with the ROM bit clear leaves the byte stale while it may be cached; a flush ends that. -/
theorem test_rom_staleness_outlives_the_bit :
    (memWrite staleByRom 0xFFFFF 1 7).toOption.map (fun t => (t.memByte 0xFFFFF, t.isStale 0xFFFFF)) = some (7, true) ∧
    (memWrite staleByRom 0xFFFFF 1 7).toOption.map (fun t => t.flushCache.isStale 0xFFFFF) = some false := by decide

/-- The clauses of one byte: ROM on the platform under its ROM bit; RAM under a set ROM bit, cached or read past the
cache; RAM under no ROM bit, never written under one or stale by it. -/
theorem witness_MemReadAfterMemWrite_bytes :
    ((underRom 0x8000).platformRomAt 0xF0000 = true ∧ msrPresence (underRom 0x8000).cfg .r1001 = .present ∧
      UnderRomBit (underRom 0x8000) 0xF0000) ∧
    ((underRom 0).platformRomAt 0xFFFFF = false ∧ UnderRomBit (underRom 0) 0xFFFFF ∧
      (underRom 0).mayBeCached 0xFFFFF = true ∧ (underRom 0).forceExternalReads = false) ∧
    ({ underRom 0 with msr := { (underRom 0).msr with r1000 := 0x20000 } } : State).forceExternalReads = true ∧
    ((part .i386A).mayBeCached 0xFFFFF = false ∧ (part .i386A).platformRomAt 0xFFFFF = false) ∧
    (¬ UnderRomBit (underRom 0) 0xEFFFF ∧ 0xEFFFF ∉ (underRom 0).staleRom) ∧ ¬ UnderRomBit (underRom 0) 0x100000 ∧
    (¬ UnderRomBit staleByRom 0xFFFFF ∧ 0xFFFFF ∈ staleByRom.staleRom ∧ staleByRom.mayBeCached 0xFFFFF = true ∧
      staleByRom.forceExternalReads = false ∧ staleByRom.platformRomAt 0xFFFFF = false) := by
  unfold UnderRomBit
  decide

/-- An IBM486BL3 on which Register 1000h is present and 1001h OPEN, 1000h holding `v`. -/
def bl3With1000 (v : Quad) : State :=
  { withCfg State.reset { (part .ibm486BL3).cfg with bl3Has1000 := some true } with
    msr := { State.reset.msr with r1000 := v } }

/-- Bit 6 with both ends of its area, also with bit 10 = 0; both values of bit 10 and of bit 7; an address on each side of
100000h; and a part on which Register 1001h is OPEN. -/
theorem witness_CacheabilityFunction :
    (hasMsr (part .ibm486SLC).cfg .r1000 = true ∧ hasMsr (part .ibm486SLC).cfg .r1001 = true) ∧
    (hasMsr (bl3With1000 0x40).cfg .r1000 = true ∧ (bl3With1000 0x40).msr.r1000.getLsbD 6 = true ∧
      0xE0000 ≤ 0xE0FFF ∧ (bl3With1000 0x40).msr.r1000.getLsbD 10 = false ∧ ¬ (0xE0000 ≤ 0xDFFFF)) ∧
    ((0x400 : Quad).getLsbD 10 = true ∧ (0x400 : Quad).getLsbD 7 = false) ∧
    ((0x480 : Quad).getLsbD 10 = true ∧ (0x480 : Quad).getLsbD 7 = true ∧ 0xFFFFF < 0x100000 ∧ 0x100000 ≤ 0x100000) ∧
    (hasMsr (bl3With1000 0x4C0).cfg .r1001 = false ∧ (bl3With1000 0x4C0).msr.r1000.getLsbD 10 = true ∧
      (bl3With1000 0x4C0).msr.r1000.getLsbD 7 = true ∧ ¬ (0xE1000 ≤ 0xE0FFF)) := by decide

/-- R47, R51, R63 with Register 1001h OPEN: nothing cacheable with bit 10 = 1 and bit 7 = 0, nor in the area of bit 6 with
bit 10 = 0; not known just outside the area. R41: the stored bits 16 and 7 count where Register 1000h is OPEN. -/
theorem test_cache_control_without_1001 :
    ((bl3With1000 0x400).cacheable 0 = some false ∧ (bl3With1000 0x400).cacheable 0x100000 = some false) ∧
    ((bl3With1000 0x40).cacheable 0xE0000 = some false ∧ (bl3With1000 0x4C0).cacheable 0xE0FFF = some false) ∧
    ((bl3With1000 0x40).cacheable 0xDFFFF = none ∧ (bl3With1000 0x4C0).cacheable 0xE1000 = none) ∧
    ({ part .ibm486SLC2 with msr := { State.reset.msr with r1000 := 0x10080 } } : State).parityErrorCertain = true ∧
    (bl3With1000 0x10080).parityErrorCertain = false := by decide

/-- A step from a canonical state. -/
theorem witness_StepKeepsTheCanonicalForm :
    Canonical { State.reset with schedule := [.env (.busWrite 0xFFFFFF 1)] } ∧
      ∃ t, step { State.reset with schedule := [.env (.busWrite 0xFFFFFF 1)] } = .next t := by
  refine ⟨⟨rfl, rfl, rfl, rfl, rfl, rfl, rfl, ?_, ?_⟩, ?_⟩
  · intro a b h
    cases h
  · intro a h
    cases h
  obtain ⟨t, ht, -⟩ := exists_of_nextIs (o := step { State.reset with schedule := [.env (.busWrite 0xFFFFFF 1)] })
    (p := fun _ => true) (by decide)
  exact ⟨t, ht⟩

theorem witness_ReservedEncodingsAreNeverStored :
    EncodingsLegal (State.reset.withFetchWord 8 0xB9) ∧
      (State.reset.withFetchWord 8 0xB9).schedule.head? ≠ some (.env .hardwareReset) ∧
      ∃ t, step (State.reset.withFetchWord 8 0xB9) = .next t :=
  ⟨by unfold EncodingsLegal; decide, by decide, witness_PcOnlyFallsThrough.1.2⟩

/-- A fetched byte; a byte not fetched, with snooping, with forced reads, and with neither where it may be cached. -/
theorem witness_BusWriteAndTheNextRead :
    (State.reset.cfg.physAddrBits = none ∧ 2 ^ 24 ≤ (0x1000000 : Word).toNat ∧ BusPlace State.reset 0xFFFFFF 0xFFFFFF) ∧
    (BusPlace (part .ibm486SLC) 0xFFFFFFFF 0xFFFFFFFF ∧
      BusPlace (withCfg State.reset { aStep with physAddrBits := some .p24 }) 0xFFFFFFFF 0xFFFFFF) ∧
    0xFFFFFFFF ∈ ({ part .ibm486SLC with fetched := [0xFFFFFFFF] } : State).fetched ∧
    0xFFFFFFFF ∉ (part .ibm486SLC).fetched ∧
    ({ part .ibm486SLC with msr := { State.reset.msr with r1000 := 8 } } : State).bit1000 3 = true ∧
    ({ part .ibm486SLC with msr := { State.reset.msr with r1000 := 0x20000 } } : State).forceExternalReads = true ∧
    ((part .ibm486SLC).bit1000 3 = false ∧ (part .ibm486SLC).forceExternalReads = false ∧
      (part .ibm486SLC).mayBeCached 0xFFFFFFFF = true) ∧
    ((part .i386A).mayBeCached 0xFFFFFFFF = false ∧ 0xFFFFFFFF ∉ (part .i386A).staleBus) ∧
    ((underRom 0x8000).platformRomAt 0xF0000 = true ∧ (underRom 0x8000).platformRomAt 0xEFFFF = false) :=
  ⟨⟨rfl, by decide, rfl, by decide⟩, ⟨rfl, rfl⟩, by decide⟩

theorem witness_ParityErrorDisablesTheCacheAndRaisesNmi :
    hasMsr (part .ibm386SLC).cfg .r1000 = true ∧ (2 : Quad).getLsbD 1 = true := by decide

/-- A byte that may be cached with reads not forced, a byte that is not cacheable, and forced reads. -/
theorem witness_ParityErrorWithParityDisabledSetsTheFlagAndFreesCachedReads :
    (hasMsr (part .ibm386SLC).cfg .r1000 = true ∧ (part .ibm386SLC).msr.r1000.getLsbD 1 = false ∧
      (part .ibm386SLC).mayBeCached 0 = true ∧ (part .ibm386SLC).forceExternalReads = false) ∧
    (hasMsr (bl3With1000 0x400).cfg .r1000 = true ∧ (bl3With1000 0x400).msr.r1000.getLsbD 1 = false ∧
      (bl3With1000 0x400).mayBeCached 0 = false) ∧
    ({ part .ibm486SLC with msr := { State.reset.msr with r1000 := 0x20000 } } : State).forceExternalReads = true := by
  decide

/-- An IBM386SLC after a parity error with parity disabled. -/
def parityLost : State := { part .ibm386SLC with parityRenewed := some [] }

/-- R90: from the event on a read of a byte that may be cached is a draw; a core write of the byte, a snooped bus write
to it, and a flush end that, and another byte stays as it was. -/
theorem test_parity_error_without_parity_checking :
    (eventCacheParityError (part .ibm386SLC)).parityRenewed = some [] ∧
    ((part .ibm386SLC).isStale 5 = false ∧ parityLost.isStale 5 = true) ∧
    ((storeByte parityLost 5 1).isStale 5 = false ∧ (storeByte parityLost 5 1).isStale 6 = true) ∧
    ((busWriteStale 5 (parityLost.setR1000 8)).isStale 5 = false ∧
      (busWriteStale 5 (parityLost.setR1000 8)).isStale 6 = true) ∧
    parityLost.flushCache.isStale 5 = false := by decide

theorem witness_CacheReloadSetsTheStatusBit :
    hasMsr (part .ibm386SLC).cfg .r1000 = true ∧ (part .ibm386SLC).msr.r1000.getLsbD 10 = false ∧
      (0x480 : Quad).getLsbD 7 = true ∧ Event.pwiPin ∈ eventsOf1000 ∧
      msrPresence (part .ibm486BL3).cfg .r1000 = .isOpen ∧ msrPresence (part .am5x86).cfg .r1000 = .absent := by decide

theorem witness_FrequencyShiftHandshake :
    (part .ibm486SLC2).cfg.cpu = .ibm486SLC2 ∧ (0x20000000 : Quad).getLsbD 29 = true ∧
      (part .ibm486SLC2).msr.r1002.getLsbD 29 = false ∧ (part .ibm486SLC2).hwDfsRequest = false ∧
      (0x08000000 : Quad).getLsbD 27 = true := by decide

theorem witness_FlushSnoopAndPowerInterrupt :
    hasMsr (part .ibm486SLC).cfg .r1000 = true ∧ (0x10 : Quad).getLsbD 4 = true ∧ (0x10 : Quad).getLsbD 5 = false ∧
      (0x20 : Quad).getLsbD 5 = true := by decide

theorem witness_HardwareResetDrawsEveryRegister :
    ({ part .ibm486SLC with cfg := { named with hiddenMemSupported := some true } } : State).cfg.hiddenMemSupported =
      some true := rfl

theorem witness_StepRunsTheScheduledEvent :
    ({ State.reset with schedule := [.env .pwiPin, .core] } : State).schedule = .env .pwiPin :: [.core] := rfl

end Sys2Proof.Tests
end

section
/-! PROOF. The environment's events, and what every step keeps (O60, O58, O55, O43). -/

namespace Sys2Proof.Machine

open Sys2Proof.Claim

/-- Settles O60: the schedule's first turn selects the arm of `step`. -/
theorem stepRunsTheScheduledEvent : Obligations.StepRunsTheScheduledEvent := by
  intro s e rest h
  simp only [step, h]

/-- A hardware reset leaves each general register a free value of its own (R240). -/
theorem reg_eventHardwareReset (s : State) (i : Fin 8) :
    (eventHardwareReset s).reg (numbered i) = (s.freeAt i.val).setWidth 32 := by
  fin_cases i <;> rfl

/-- Settles O58: each clause is a field of the state the event answers with. -/
theorem hardwareResetDrawsEveryRegister : Obligations.HardwareResetDrawsEveryRegister := by
  intro s
  have hidden (h : s.cfg.hiddenMemSupported = some true) (a : Nat) :
      (eventHardwareReset s).hiddenByte a = .ok (some (Config.hiddenLaunchByte (s.draws + 1) a)) := by
    simp only [State.hiddenByte, eventHardwareReset, h, memGet, Option.getD_none]
  exact ⟨eventHardwareReset s, s.draws, rfl, rfl, rfl, rfl, rfl, reg_eventHardwareReset s, rfl, rfl, rfl, rfl, rfl, rfl,
    rfl, rfl, rfl, fun _ => rfl, hidden, Nat.lt_succ_self _⟩

/-- A part whose cell is OPEN refuses the events of the parts with Register 1000h. -/
theorem onPartsWith1000_of_open {s : State} (h : msrPresence s.cfg .r1000 = .isOpen)
    (o : Host.Outcome State Fault Refusal) : onPartsWith1000 s o = .refused .msrPresenceOpen := by
  simp only [onPartsWith1000, h]

theorem onPartsWith1000_of_absent {s : State} (h : msrPresence s.cfg .r1000 = .absent)
    (o : Host.Outcome State Fault Refusal) : onPartsWith1000 s o = .next s := by
  simp only [onPartsWith1000, h]

/-- Each event of the parts with Register 1000h asks for the register first. -/
theorem envStep_of_mem_eventsOf1000 {e : Event} (h : e ∈ eventsOf1000) (s : State) :
    ∃ o, envStep e s = onPartsWith1000 s o := by
  simp only [eventsOf1000, List.mem_cons, List.not_mem_nil, or_false] at h
  rcases h with rfl | rfl | rfl | rfl <;> exact ⟨_, rfl⟩

/-- Setting bit 11 changes no other bit. -/
theorem getLsbD_or_bit11 (v : Quad) (i : Nat) : (v ||| 0x800).getLsbD i = (v.getLsbD i || decide (11 = i)) := by
  rw [BitVec.getLsbD_or, show (0x800 : Quad) = BitVec.twoPow 64 11 from rfl, BitVec.getLsbD_twoPow]
  rfl

/-- Settles O55. Where the register is present the event sets bit 11 of the stored value; where it is not, the shared check
of the four events answers before any of them. -/
theorem cacheReloadSetsTheStatusBit : Obligations.CacheReloadSetsTheStatusBit := by
  intro s
  refine ⟨fun hp hb => ?_, fun e he => ?_⟩
  · have hen : s.cacheMayBeEnabled = true := by
      simpa [State.cacheMayBeEnabled] using hb
    have hstep : envStep .cacheReload s = .next (s.setR1000 (s.msr.r1000 ||| 0x800)) := by
      rw [envStep, onPartsWith1000_of_present hp, eventCacheReload, if_pos hen]
    refine ⟨_, hstep, ?_, fun i hi => ?_, fun q hq => MsrFile.get_set_other _ hq _, rfl⟩
    · exact (getLsbD_or_bit11 _ _).trans (by simp)
    · exact (getLsbD_or_bit11 _ _).trans (by simp [Ne.symm hi])
  · obtain ⟨o, ho⟩ := envStep_of_mem_eventsOf1000 he s
    rw [ho]
    exact ⟨fun h => onPartsWith1000_of_open h o, fun h => onPartsWith1000_of_absent h o⟩

/-- Settles O43: an instruction keeps what `exec_ok` leaves out, an event but the reset what `envStep_ok` does, and the
reset's own update leaves out the configuration and the clock state. -/
theorem stepsKeepCr0HiddenMemoryConfigurationAndClock :
    Obligations.StepsKeepCr0HiddenMemoryConfigurationAndClock := by
  intro s t h
  rcases step_cases h with ⟨rest, -, -, i, s', hf, hx⟩ | ⟨e, rest, hs, he⟩
  · obtain ⟨fetchRest, -, -, hs'⟩ := fetchInstr_run hf
    obtain ⟨ht, -⟩ := exec_ok hx
    rw [ht, hs']
    exact ⟨rfl, rfl, fun _ => ⟨rfl, rfl, rfl⟩⟩
  · by_cases hr : e = .hardwareReset
    · subst hr
      cases he
      exact ⟨rfl, rfl, fun hne => absurd (congrArg List.head? hs) hne⟩
    · obtain ⟨ht, -⟩ := envStep_ok he hr
      rw [ht]
      exact ⟨rfl, rfl, fun _ => ⟨rfl, rfl, rfl⟩⟩

end Sys2Proof.Machine
end

section
/-! PROOF. RDMSR and WRMSR bit by bit, by the classes of R143 and R144 (O29, O39). -/

namespace Sys2Proof.Machine

open Sys2Proof.Claim

theorem has486SlcBits_eq (c : Cpu) : has486SlcBits c = decide (c = .ibm486SLC ∨ c = .ibm486SLC2) := by
  cases c <;> rfl

/-- RDMSR takes from the register exactly the bits R144 fixes. -/
theorem getLsbD_readMask (s : State) (m : MsrId) {i : Nat} (hi : i < 64) :
    (readMask s.cfg s.hwDfsRequest s.msr.r1002 m).getLsbD i = fixedBit s m i := by
  cases m with
  | array => simp only [readMask, fixedBit, BitVec.ofNat_eq_ofNat, BitVec.getLsbD_zero]
  | r83 => exact (by decide : ∀ j < 64, (0xEF : Quad).getLsbD j = (decide (j ≤ 3) || decide (5 ≤ j ∧ j ≤ 7))) i hi
  | r1000 =>
    simp only [readMask, fixedBit, ← has486SlcBits_eq]
    exact (by decide : ∀ b : Bool, ∀ j < 64, (if b then (0x7FEFF : Quad) else 0x7EFF).getLsbD j =
      (decide (j ≤ 7) || decide (9 ≤ j ∧ j ≤ 14) || (decide (15 ≤ j ∧ j ≤ 18) && b))) _ i hi
  | r1001 => exact (by decide : ∀ j < 64, (0xFFFFFFFFFF : Quad).getLsbD j = decide (j ≤ 39)) i hi
  | r1002 =>
    exact (by decide : ∀ b : Bool, ∀ j < 64, (if b then (0x3F000000 : Quad) else 0x2F000000).getLsbD j =
      (decide (24 ≤ j ∧ j ≤ 27) || j == 29 || (j == 28 && b))) (dfsPending s.hwDfsRequest s.msr.r1002) i hi
  | r1004 =>
    exact (by decide : ∀ j < 64, (0xD40000 : Quad).getLsbD j = (j == 23 || j == 22 || j == 20 || j == 18)) i hi

/-- What RDMSR returns in a bit, by the class of the bit (R144). -/
theorem getLsbD_readValue_fixedBit (s : State) (m : MsrId) (d : Quad) {i : Nat} (hi : i < 64) :
    (readValue s m d).getLsbD i = if fixedBit s m i then (s.msr.get m).getLsbD i else d.getLsbD i := by
  rw [getLsbD_readValue, getLsbD_readMask s m hi]

/-- `f` holds every control and status bit of the model-specific registers as `s` does. -/
def AgreesOnFixedBits (s : State) (f : MsrFile) : Prop :=
  ∀ m i, i < 64 → fixedBit s m i = true → (f.get m).getLsbD i = (s.msr.get m).getLsbD i

/-- Which bits are fixed depends on one register bit, the frequency request of 1002h, which is itself a fixed bit. -/
theorem fixedBit_setMsr {s : State} {f : MsrFile} (h : AgreesOnFixedBits s f) (m : MsrId) (i : Nat) :
    fixedBit (s.setMsr f) m i = fixedBit s m i := by
  cases m with
  | r1002 =>
    have h27 : f.r1002.getLsbD 27 = s.msr.r1002.getLsbD 27 := h .r1002 27 (by decide) rfl
    simp only [fixedBit, State.setMsr_hwDfsRequest, State.setMsr_msr, h27]
  | _ => rfl

/-- RDMSR returns the same value where the fixed bits agree. -/
theorem readValue_setMsr {s : State} {f : MsrFile} (h : AgreesOnFixedBits s f) (m : MsrId) (d : Quad) :
    readValue (s.setMsr f) m d = readValue s m d := by
  refine BitVec.eq_of_getLsbD_eq fun i hi => ?_
  rw [getLsbD_readValue_fixedBit _ _ _ hi, getLsbD_readValue_fixedBit _ _ _ hi, fixedBit_setMsr h, State.setMsr_msr]
  cases hb : fixedBit s m i with
  | false => rfl
  | true => exact h m i hi hb

/-- Settles O29. The second run passes the same checks, reads the same value and so writes the same EDX and EAX. -/
theorem rdmsrDoesNotRevealReservedBits : Obligations.RdmsrDoesNotRevealReservedBits := by
  intro s t f h hx
  obtain ⟨m, hm, hp, rfl⟩ := execRdmsr_next_iff.1 hx
  refine execRdmsr_next_iff.2 ⟨m, hm, hp, ?_⟩
  rw [readValue_setMsr h]
  rfl

/-- Every bit of class RW is one RDMSR gives back. -/
theorem fixedBit_of_controlBit {s : State} {m : MsrId} {i : Nat} (h : controlBit s.cfg.cpu m i = true) :
    fixedBit s m i = true := by
  cases m with
  | r1000 =>
    simp only [controlBit, fixedBit, Bool.or_eq_true, Bool.and_eq_true, decide_eq_true_eq, beq_iff_eq] at *
    rcases h with h | ⟨h15, hcpu⟩
    · exact .inl (by omega)
    · exact .inr ⟨h15, hcpu⟩
  | r1002 =>
    simp only [controlBit, fixedBit, Bool.or_eq_true] at *
    exact .inl h
  | _ => exact h

theorem getLsbD_mask1000_of_controlBit {c : Cpu} {i : Nat} (latched : Bool) (hi : i < 64)
    (h : controlBit c .r1000 i = true) : (mask1000 c latched).getLsbD i = true := by
  simp only [controlBit, mask1000, ← has486SlcBits_eq] at *
  exact (by decide : ∀ b l : Bool, ∀ j < 64, (decide (1 ≤ j ∧ j ≤ 7) || j == 9 || j == 12 || j == 13 ||
    (decide (15 ≤ j ∧ j ≤ 18) && b)) = true →
      ((if b then (0x78000 : Quad) else 0) ||| (if l then 0 else 0x4400) ||| 0x32FE).getLsbD j = true) _ latched i hi h

/-- A WRMSR stores every bit of class RW as written, whatever the old value and the draw (R143). -/
theorem getLsbD_writeValue {s : State} {m : MsrId} {v d n : Quad} (h : writeValue s m v d = .ok n) {i : Nat}
    (hi : i < 64) (hc : controlBit s.cfg.cpu m i = true) : n.getLsbD i = v.getLsbD i := by
  have masked (mask old : Quad) (hm : mask.getLsbD i = true) : (merge mask old v).getLsbD i = v.getLsbD i := by
    rw [getLsbD_merge, if_pos hm]
  have fixed : (readMask s.cfg s.hwDfsRequest s.msr.r1002 m).getLsbD i = true := by
    rw [getLsbD_readMask s m hi, fixedBit_of_controlBit hc]
  cases m with
  | array => cases h
  | r83 =>
    obtain ⟨-, -, rfl⟩ := write83_ok_iff.1 h
    exact masked _ _ fixed
  | r1000 =>
    cases h
    have h11 : i ≠ 11 := by rintro rfl; simp [controlBit] at hc
    have h0 : i ≠ 0 := by rintro rfl; simp [controlBit] at hc
    rw [getLsbD_write1000 _ _ _ _ _ h11 h0, if_pos (getLsbD_mask1000_of_controlBit _ hi hc)]
  | r1001 =>
    cases h
    exact masked _ _ fixed
  | r1002 =>
    obtain ⟨-, rfl⟩ := write1002_ok_iff.1 h
    exact masked _ _ ((by decide : ∀ j < 64, (decide (24 ≤ j ∧ j ≤ 27) || j == 29) = true →
      (0x2F000000 : Quad).getLsbD j = true) i hi hc)
  | r1004 =>
    cases h
    exact masked _ _ fixed

/-- EDX:EAX as the claims write it (R9). -/
theorem edxEaxBit_eq (s : State) (i : Nat) : edxEaxBit s i = (edxEax s).getLsbD i := (getLsbD_edxEax s i).symm

/-- After RDMSR, EDX:EAX is the value read (R141). -/
theorem edxEaxBit_rdmsr {s t : State} {m : MsrId} (hm : msrGate s = .ok m) (h : exec .rdmsr s = .next t) {i : Nat}
    (hi : i < 64) : edxEaxBit t i = (readValue s m s.free).getLsbD i := by
  obtain ⟨m', hm', -, rfl⟩ := execRdmsr_next_iff.1 h
  obtain rfl : m = m' := Except.ok.inj (hm.symm.trans hm')
  exact getLsbD_halves _ i hi

/-- The checks RDMSR and WRMSR share look at the configuration and ECX only. -/
theorem msrGate_congr {s t : State} (hc : t.cfg = s.cfg) (hr : t.regs = s.regs) : msrGate t = msrGate s := by
  simp only [msrGate, State.reg, hc, hr]

@[simp] theorem storeMsr_cfg (s : State) (m : MsrId) (v : Quad) : (storeMsr s m v).cfg = s.cfg := by
  rw [storeMsr_eq]

@[simp] theorem storeMsr_regs (s : State) (m : MsrId) (v : Quad) : (storeMsr s m v).regs = s.regs := by
  rw [storeMsr_eq]

@[simp] theorem storeMsr_msr (s : State) (m : MsrId) (v : Quad) : (storeMsr s m v).msr = s.msr.set m v := by
  rw [storeMsr_eq]

/-- Settles O39. The RDMSR passes the WRMSR's checks, so it reads the register the WRMSR wrote; a control bit of it is
given back by the one and stored as written by the other. -/
theorem rdmsrReadsBackWhatWrmsrStored : Obligations.RdmsrReadsBackWhatWrmsrStored := by
  intro s t u m hsel hw hr i hi hc
  obtain ⟨m', v, hm, hv, -, ht⟩ := execWrmsr_next_iff.1 hw
  obtain rfl : m = m' := Except.ok.inj ((msrGate_ok_iff.2 hsel).symm.trans hm)
  have hcfg : t.cfg = s.cfg := by simp [ht]
  have hmt : msrGate t = .ok m := (msrGate_congr hcfg (by simp [ht])).trans hm
  have hfixed : fixedBit t m i = true := fixedBit_of_controlBit (hcfg ▸ hc)
  calc edxEaxBit u i
      = (readValue t m t.free).getLsbD i := edxEaxBit_rdmsr hmt hr hi
    _ = (t.msr.get m).getLsbD i := by rw [getLsbD_readValue_fixedBit _ _ _ hi, if_pos hfixed]
    _ = v.getLsbD i := by simp [ht]
    _ = (edxEax s).getLsbD i := getLsbD_writeValue hv hi hc
    _ = edxEaxBit s i := (edxEaxBit_eq s i).symm

end Sys2Proof.Machine
end

section
/-! PROOF. The address path where parameters are OPEN (O45). -/

namespace Sys2Proof.Machine

open Sys2Proof.Claim

/-- A bit of Register 1000h counts where the register is present and the stored bit is 1. -/
theorem bit1000_eq_true_iff (s : State) (i : Nat) :
    s.bit1000 i = true ↔ msrPresence s.cfg .r1000 = .present ∧ s.msr.r1000.getLsbD i = true := by
  simp only [State.bit1000, hasMsr, Bool.and_eq_true, beq_iff_eq]

/-- Clearing bit 20 takes 2^20 from an address that has the bit. -/
theorem toNat_clearBit20 (lin : Word) :
    (clearBit20 lin).toNat + (if lin.getLsbD 20 then 2 ^ 20 else 0) = lin.toNat := by
  have hbit : (lin &&& BitVec.twoPow 32 20).toNat = if lin.getLsbD 20 then 2 ^ 20 else 0 := by
    rw [BitVec.and_twoPow]
    split <;> rfl
  have hmask : (0xFFEFFFFF : Word) = ~~~BitVec.twoPow 32 20 := rfl
  have hdisj : clearBit20 lin &&& (lin &&& BitVec.twoPow 32 20) = 0#32 := by
    rw [clearBit20, hmask]
    ext i hi
    simp +contextual
  have hsplit : clearBit20 lin ||| (lin &&& BitVec.twoPow 32 20) = lin := by
    rw [clearBit20, hmask]
    ext i hi
    simp [← Bool.and_or_distrib_left]
  rw [← hbit, ← BitVec.toNat_add_of_and_eq_zero hdisj, BitVec.add_eq_or_of_and_eq_zero _ _ hdisj, hsplit]

theorem clearBit20_of_clear {lin : Word} (h : lin.getLsbD 20 = false) : clearBit20 lin = lin := by
  have := toNat_clearBit20 lin
  rw [h] at this
  exact BitVec.eq_of_toNat_eq this

/-- Bit 20 of an address as a number. -/
theorem getLsbD_20_eq (lin : Word) : lin.getLsbD 20 = decide (lin.toNat / 2 ^ 20 % 2 = 1) := by
  rw [← BitVec.testBit_toNat, Nat.testBit_eq_decide_div_mod_eq]

/-- Truncation to PHYS_ADDR_BITS as a remainder (R82). -/
theorem truncPhys_eq (p : PhysAddrBits) (a : Word) : truncPhys p a = a.toNat % 2 ^ addressBits (some p) := by
  cases p with
  | p24 => rfl
  | p32 => exact (Nat.mod_eq_of_lt a.isLt).symm

/-- Bit 20 of the address, as the statements write it. -/
def HasBit20 (lin : Word) : Prop := lin.toNat / 2 ^ 20 % 2 = 1

/-- Register 1000h is present and its bit 2 masks address line 20 (R55). -/
def InternalA20Mask (s : State) : Prop := msrPresence s.cfg .r1000 = .present ∧ s.msr.r1000.getLsbD 2 = true

/-- The stored bit 2 of Register 1000h is 1 while the presence of the register is OPEN. -/
def CellDecidesA20 (s : State) : Prop := msrPresence s.cfg .r1000 = .isOpen ∧ s.msr.r1000.getLsbD 2 = true

theorem not_internalA20Mask_of_cellDecides {s : State} (h : CellDecidesA20 s) : ¬ InternalA20Mask s := fun hi => by
  rw [InternalA20Mask, h.1] at hi
  cases hi.1

theorem a20Masked_iff (s : State) : s.a20Masked = true ↔ InternalA20Mask s ∨ s.cfg.extA20Mask = some true := by
  simp only [State.a20Masked, Bool.or_eq_true, bit1000_eq_true_iff, beq_iff_eq, InternalA20Mask]

theorem a20Open_iff (s : State) (lin : Word) :
    s.a20Open lin = true ↔ CellDecidesA20 s ∧ HasBit20 lin ∧ s.cfg.extA20Mask ≠ some true := by
  simp only [State.a20Open, getLsbD_20_eq, Bool.and_eq_true, beq_iff_eq, bne_iff_ne, decide_eq_true_eq, CellDecidesA20,
    HasBit20, and_assoc]

theorem extA20Open_iff (s : State) (lin : Word) :
    s.extA20Open lin = true ↔ s.cfg.extA20Mask = none ∧ HasBit20 lin ∧ ¬ InternalA20Mask s := by
  simp only [State.extA20Open, getLsbD_20_eq, Bool.and_eq_true, beq_iff_eq, decide_eq_true_eq, Bool.not_eq_true',
    ← Bool.not_eq_true, bit1000_eq_true_iff, InternalA20Mask, HasBit20, and_assoc]

section
variable {s : State} {lin : Word} (hpg : s.cr0.getLsbD 31 = false)
include hpg

/-- The cell of Register 1000h decides the address (log entry 18). -/
theorem physAddr_of_a20Open (h : s.a20Open lin = true) : physAddr s lin = .error .msrPresenceOpen := by
  simp only [physAddr, State.paging, hpg, h, if_true, Bool.false_eq_true, if_false]

/-- EXT_A20_MASK decides the address (log entry 18). -/
theorem physAddr_of_extA20Open (ho : s.a20Open lin = false) (h : s.extA20Open lin = true) :
    physAddr s lin = .error (.parameterOpen .extA20Mask) := by
  simp only [physAddr, State.paging, hpg, ho, h, if_true, Bool.false_eq_true, if_false]

/-- No OPEN value of A20 decides the address. -/
theorem physAddr_of_known (ho : s.a20Open lin = false) (h : s.extA20Open lin = false) :
    physAddr s lin = narrowPhys s.cfg (if s.a20Masked then clearBit20 lin else lin) := by
  simp only [physAddr, State.paging, hpg, ho, h, Bool.false_eq_true, if_false]

/-- Where line 20 is known to be masked, bit 20 is cleared. -/
theorem physAddr_of_masked (hm : InternalA20Mask s ∨ s.cfg.extA20Mask = some true) :
    physAddr s lin = narrowPhys s.cfg (clearBit20 lin) := by
  rw [physAddr_of_known hpg, if_pos ((a20Masked_iff s).2 hm)]
  · rw [← Bool.not_eq_true, a20Open_iff]
    rintro ⟨hcell, -, hext⟩
    exact hm.elim (not_internalA20Mask_of_cellDecides hcell) hext
  · rw [← Bool.not_eq_true, extA20Open_iff]
    rintro ⟨hnone, -, hint⟩
    exact hm.elim hint (fun h => nomatch hnone.symm.trans h)

/-- Where bit 20 is clear, the address goes the path as it is. -/
theorem physAddr_of_bit20_clear (hb : ¬ HasBit20 lin) : physAddr s lin = narrowPhys s.cfg lin := by
  rw [physAddr_of_known hpg, clearBit20_of_clear (by rw [getLsbD_20_eq]; exact decide_eq_false hb), ite_self]
  · rw [← Bool.not_eq_true, a20Open_iff]
    exact fun h => hb h.2.1
  · rw [← Bool.not_eq_true, extA20Open_iff]
    exact fun h => hb h.2.1

/-- Where line 20 is known not to be masked, the address goes the path as it is. -/
theorem physAddr_of_unmasked (hm : ¬ (InternalA20Mask s ∨ s.cfg.extA20Mask = some true)) (hc : ¬ CellDecidesA20 s)
    (hx : s.cfg.extA20Mask = some false) : physAddr s lin = narrowPhys s.cfg lin := by
  rw [physAddr_of_known hpg, if_neg (mt (a20Masked_iff s).1 hm)]
  · rw [← Bool.not_eq_true, a20Open_iff]
    exact fun h => hc h.1
  · rw [← Bool.not_eq_true, extA20Open_iff]
    exact fun h => nomatch hx.symm.trans h.1

end

/-- The part of `PhysAddr` behind the A20 masks, on an address as a number. -/
theorem narrowPhys_of_toNat {c : Config} {a : Word} {low : Nat} (h : a.toNat = low) :
    (c.physAddrBits = none →
      (low < 2 ^ 24 → narrowPhys c a = .ok low) ∧
      (2 ^ 24 ≤ low → narrowPhys c a = .error (.parameterOpen .physAddrBits))) ∧
    ∀ p, c.physAddrBits = some p → narrowPhys c a = .ok (low % 2 ^ addressBits (some p)) := by
  subst h
  refine ⟨fun hn => ⟨fun hl => ?_, fun hl => ?_⟩, fun p hp => ?_⟩
  · simp only [narrowPhys, hn, if_pos hl]
  · simp only [narrowPhys, hn, if_neg (Nat.not_lt.2 hl)]
  · simp only [narrowPhys, hp, truncPhys_eq]

/-- Settles O45. The first two clauses are the two refusals of the A20 masks; in the third the path comes to an address
whose number is `low`, and PHYS_ADDR_BITS decides what becomes of it. -/
theorem openParametersStopOnlyAddressesTheyDecide : Obligations.OpenParametersStopOnlyAddressesTheyDecide := by
  intro s lin
  refine ⟨fun h a => by simp only [State.hiddenByte, h], fun hpg => ?_⟩
  refine ⟨fun hb hm hc => ?_, fun hb hm hc hx => ?_, fun low hlow => ?_⟩
  · exact physAddr_of_a20Open hpg ((a20Open_iff s lin).2 ⟨hc, hb, fun h => hm (.inr h)⟩)
  · refine physAddr_of_extA20Open hpg ?_ ((extA20Open_iff s lin).2 ⟨hx, hb, fun h => hm (.inl h)⟩)
    exact Bool.eq_false_iff.2 fun h => hc ((a20Open_iff s lin).1 h).1
  · obtain ⟨a, ha, hpath⟩ : ∃ a, a.toNat = low ∧ physAddr s lin = narrowPhys s.cfg a := by
      rcases hlow with ⟨hb, hm, hl⟩ | ⟨hb, hl⟩ | ⟨-, hm, hc, hx, hl⟩
      · refine ⟨clearBit20 lin, ?_, physAddr_of_masked hpg hm⟩
        have h20 := toNat_clearBit20 lin
        rw [getLsbD_20_eq, if_pos (decide_eq_true hb)] at h20
        omega
      · exact ⟨lin, hl.symm, physAddr_of_bit20_clear hpg hb⟩
      · exact ⟨lin, hl.symm, physAddr_of_unmasked hpg hm hc hx⟩
    rw [hpath]
    exact narrowPhys_of_toNat ha

end Sys2Proof.Machine
end

section
/-! PROOF. MemWrite and the reads after it (O47). -/

namespace Sys2Proof.Machine

open Sys2Proof.Claim

/-! ### The bytes of a value (R80) -/

/-- The k-th of the n low bytes of a value. -/
theorem getElem?_leBytes (n : Nat) (v : Word) (k : Nat) :
    (leBytes n v)[k]? = if k < n then some ((v >>> (8 * k)).setWidth 8) else none := by
  induction n generalizing v k with
  | zero => rfl
  | succ n ih =>
    cases k with
    | zero => simp [leBytes]
    | succ k =>
      rw [leBytes, List.getElem?_cons_succ, ih, ← BitVec.shiftRight_add, show 8 + 8 * k = 8 * (k + 1) by omega]
      simp only [Nat.add_lt_add_iff_right]

/-- The n low bytes as one value are the value modulo 2^(8n). -/
theorem littleEndian_leBytes {n : Nat} (hn : n ≤ 4) (v : Word) :
    littleEndian (leBytes n v) = BitVec.ofNat 32 (v.toNat % 2 ^ (8 * n)) := by
  refine BitVec.eq_of_getLsbD_eq fun i hi => ?_
  rw [getLsbD_littleEndian _ _ (by rw [leBytes_length]; exact hn), getElem?_leBytes, BitVec.getLsbD_ofNat,
    decide_eq_true hi, Bool.true_and, Nat.testBit_mod_two_pow, BitVec.testBit_toNat]
  by_cases h : i / 8 < n
  · rw [if_pos h, decide_eq_true (show i < 8 * n by omega), Bool.true_and, Option.getD_some, BitVec.getLsbD_setWidth,
      decide_eq_true (Nat.mod_lt i (by decide)), Bool.true_and, BitVec.getLsbD_ushiftRight, Nat.div_add_mod]
  · rw [if_neg h, decide_eq_false (show ¬ i < 8 * n by omega), Bool.false_and, Option.getD_none, BitVec.ofNat_eq_ofNat,
      BitVec.getLsbD_zero]

/-! ### Bytes of one access lie apart -/

/-- The path keeps the low 20 bits of an address, whatever A20 and PHYS_ADDR_BITS are. -/
theorem physAddr_mod {s : State} {lin : Word} {pa : Nat} (h : physAddr s lin = .ok pa) :
    pa % 2 ^ 20 = lin.toNat % 2 ^ 20 := by
  obtain ⟨-, -, -, h⟩ := physAddr_ok_iff.1 h
  have h24 := narrowPhys_mod h
  have hclear : (clearBit20 lin).toNat % 2 ^ 20 = lin.toNat % 2 ^ 20 := by
    have h20 := toNat_clearBit20 lin
    split at h20 <;> omega
  split at h24 <;> omega

/-- At most 2^20 bytes in a row have physical addresses of their own. -/
theorem apart_of_le (s : State) (lin : Word) {n : Nat} (hn : n ≤ 2 ^ 20) : Apart s lin n := by
  intro j k pa hj hk h1 h2
  have h := (physAddr_mod h1).symm.trans (physAddr_mod h2)
  simp only [BitVec.toNat_add, BitVec.toNat_ofNat] at h
  omega

/-! ### Reading fresh bytes -/

/-- Bytes each of which a read gives without a free value are what MemRead gives. -/
theorem readBytes_of_readByte {bs : List Byte} {s : State} {lin : Word}
    (h : ∀ k b, bs[k]? = some b → ∃ pa, physAddr s (lin + BitVec.ofNat 32 k) = .ok pa ∧ readByte s pa = (b, s)) :
    readBytes bs.length s lin = .ok (bs, s) := by
  induction bs generalizing lin with
  | nil => rfl
  | cons b bs ih =>
    obtain ⟨pa, hpa, hb⟩ := h 0 b rfl
    rw [show lin + BitVec.ofNat 32 0 = lin by simp] at hpa
    have hrest : readBytes bs.length s (lin + 1) = .ok (bs, s) := ih fun k b' hk => by
      rw [addr_succ]
      exact h (k + 1) b' hk
    simp only [List.length_cons, readBytes, hpa, hb, hrest]

/-! ### What decides whether a read is stale -/

section
variable {s t : State} (hc : t.cfg = s.cfg) (hm : t.msr = s.msr)
include hc hm

theorem mayBeCached_congr (pa : Nat) : t.mayBeCached pa = s.mayBeCached pa := by
  simp only [State.mayBeCached, State.cacheable, hc, hm]

theorem forceExternalReads_congr : t.forceExternalReads = s.forceExternalReads := by
  simp only [State.forceExternalReads, State.bit1000, hc, hm]

/-- The staleness of one byte depends on the registers and on the marks of that byte alone. -/
theorem isStale_of_marks {pa : Nat} (hb : pa ∈ t.staleBus ↔ pa ∈ s.staleBus) (hr : pa ∈ t.staleRom ↔ pa ∈ s.staleRom)
    (hp : t.parityMayHit pa = s.parityMayHit pa) : t.isStale pa = s.isStale pa := by
  simp only [State.isStale, forceExternalReads_congr hc hm, mayBeCached_congr hc hm, hb, hr, hp]

end

theorem readByte_of_stale {s : State} {pa : Nat} (h : s.isStale pa = true) :
    readByte s pa = ((Config.freeWord s.draws).setWidth 8, s.tick) := by
  simp only [readByte, h, if_true]
  rfl

theorem isStale_of_staleRom {s : State} {pa : Nat} (hr : pa ∈ s.staleRom) (hc : s.mayBeCached pa = true)
    (hf : s.forceExternalReads = false) : s.isStale pa = true := by
  simp [State.isStale, hr, hc, hf]

/-- A byte that is not stale by a bus master's write is read from memory where it cannot be cached, or reads are forced
to memory (R91). -/
theorem isStale_eq_false_of_uncached {s : State} {pa : Nat} (hb : pa ∉ s.staleBus)
    (h : s.mayBeCached pa = false ∨ s.forceExternalReads = true) : s.isStale pa = false := by
  rcases h with h | h <;> simp [State.isStale, hb, h]

theorem isStale_eq_false_of_unmarked {s : State} {pa : Nat} (hb : pa ∉ s.staleBus) (hr : pa ∉ s.staleRom)
    (hp : s.parityMayHit pa = false) : s.isStale pa = false := by
  simp [State.isStale, hb, hr, hp]

/-- The ROM bit of the statements is the one a write looks at. -/
theorem mayBeRomBit_eq_true_iff (s : State) (pa : Nat) : s.mayBeRomBit pa = true ↔ UnderRomBit s pa := by
  simp only [State.mayBeRomBit, regionRom, UnderRomBit, Bool.and_eq_true, bne_iff_ne, decide_eq_true_eq]

theorem romBit_of_underRomBit {s : State} {pa : Nat} (hp : msrPresence s.cfg .r1001 = .present)
    (h : UnderRomBit s pa) : s.romBit pa = true := by
  obtain ⟨-, hlt, hbit⟩ := h
  simp only [State.romBit, hasMsr, hp, regionRom, hlt, hbit, beq_self_eq_true, decide_true, Bool.and_self]

/-! ### The written byte -/

section
variable {s t : State} {pa : Nat} {b : Byte} (hs : Stored s t pa b)
include hs

/-- A written byte of RAM whose copy is not stale is read back. -/
theorem Stored.readByte_ram (hram : s.platformRomAt pa = false) (h : t.isStale pa = false) : readByte t pa = (b, t) := by
  rw [readByte_fresh h, (hs.ramMem hram).1]

/-- RAM under no ROM bit and not stale by one is read back (R92), a parity error before the write included (log entry 33). -/
theorem Stored.readByte_unmarked (hram : s.platformRomAt pa = false) (hu : ¬ UnderRomBit s pa) (hr : pa ∉ s.staleRom) :
    readByte t pa = (b, t) := by
  have hbit : s.mayBeRomBit pa = false := Bool.eq_false_iff.2 (mt (mayBeRomBit_eq_true_iff s pa).1 hu)
  refine hs.readByte_ram hram (isStale_eq_false_of_unmarked (hs.ramMem hram).2 (fun h => ?_) (hs.ramParity hram hbit))
  exact ((hs.ramRom hram).1 h).elim (fun h => hu ((mayBeRomBit_eq_true_iff s pa).1 h)) hr

/-- What a write of RAM under a ROM bit marks, and no core write ends (R93; log entry 30). -/
theorem Stored.mem_staleRom (hram : s.platformRomAt pa = false) (h : UnderRomBit s pa ∨ pa ∈ s.staleRom) :
    pa ∈ t.staleRom :=
  (hs.ramRom hram).2 (h.imp_left (mayBeRomBit_eq_true_iff s pa).2)

end

/-! ### MemWrite -/

/-- Everything a MemWrite that completes does: the configuration, CR0 and the registers stay; each byte is stored at the
physical address of its own linear address; every other byte is left alone. -/
theorem memWrite_ok {s t : State} {lin v : Word} {n : Nat} (hn : n ≤ 4) (h : memWrite s lin n v = .ok t) :
    (t.cfg = s.cfg ∧ t.cr0 = s.cr0 ∧ t.msr = s.msr) ∧
      (∀ k, k < n → ∃ pa, physAddr s (lin + BitVec.ofNat 32 k) = .ok pa ∧ Stored s t pa ((v >>> (8 * k)).setWidth 8)) ∧
      ∀ x, (∀ k, k < n → physAddr s (lin + BitVec.ofNat 32 k) ≠ .ok x) → SameByte s t x := by
  have hlen := leBytes_length n v
  obtain ⟨hkept, -⟩ := writeBytes_ok h
  obtain ⟨hstored, hother⟩ := writeBytes_stored (apart_of_le s lin (by omega)) h
  refine ⟨by rw [hkept]; exact ⟨rfl, rfl, rfl⟩, fun k hk => hstored k _ ?_, fun x hx => hother x ?_⟩
  · rw [getElem?_leBytes, if_pos hk]
  · rw [hlen]
    exact hx

/-- MemRead gives back the value a MemWrite stored where each of its bytes is read back. -/
theorem memRead_of_readByte {t : State} {lin v : Word} {n : Nat} (hn : n ≤ 4)
    (h : ∀ k, k < n → ∃ pa, physAddr t (lin + BitVec.ofNat 32 k) = .ok pa ∧
      readByte t pa = ((v >>> (8 * k)).setWidth 8, t)) :
    memRead t lin n = .ok (BitVec.ofNat 32 (v.toNat % 2 ^ (8 * n)), t) := by
  have hread : readBytes (leBytes n v).length t lin = .ok (leBytes n v, t) := readBytes_of_readByte fun k b hk => by
    rw [getElem?_leBytes] at hk
    split at hk
    · cases hk
      exact h k ‹_›
    · cases hk
  rw [leBytes_length] at hread
  simp only [memRead, hread, littleEndian_leBytes hn]

/-- Settles O47. The bytes of the access lie apart, so each is stored as a single write stores it; whether a read then gives
it back depends on its own marks. -/
theorem memReadAfterMemWrite : Obligations.MemReadAfterMemWrite := by
  intro s lin v n hn
  dsimp only
  have hn4 : n ≤ 4 := by omega
  have hlen := leBytes_length n v
  refine ⟨fun hp hf => ?_, fun hp => ?_, fun t ht => ?_⟩
  · exact (writeBytes_isOk (by rwa [hlen])).2 (by rwa [hlen])
  · refine (writeBytes_isOk (fun k hk => (hp k (hlen ▸ hk)).imp fun _ h => h.1)).1 fun k pa hk hpa => ?_
    obtain ⟨pa', hpa', hnf⟩ := hp k (hlen ▸ hk)
    exact Except.ok.inj (hpa'.symm.trans hpa) ▸ hnf
  · obtain ⟨⟨hc, h0, hm⟩, hstored, hother⟩ := memWrite_ok hn4 ht
    have stored (k pa : Nat) (hk : k < n) (hpa : physAddr s (lin + BitVec.ofNat 32 k) = .ok pa) :
        Stored s t pa ((v >>> (8 * k)).setWidth 8) := by
      obtain ⟨pa', hpa', hs⟩ := hstored k hk
      exact Except.ok.inj (hpa'.symm.trans hpa) ▸ hs
    refine ⟨fun k pa hk hpa => ?_, fun x hx => ?_, fun hram => ?_⟩
    · have hs := stored k pa hk hpa
      refine ⟨hs.written, fun hrom => ⟨(hs.romMem hrom).1, fun hp hu => ?_⟩, fun hram =>
        ⟨(hs.ramMem hram).1, hs.readByte_unmarked hram, fun hu hcached hforce => ?_, fun hun => ?_⟩⟩
      · exact isStale_of_marks hc hm (hs.romMem hrom).2 (hs.romKept hrom (romBit_of_underRomBit hp hu)) (hs.romParity hrom)
      · refine readByte_of_stale (isStale_of_staleRom (hs.mem_staleRom hram hu) ?_ ?_)
        · rwa [mayBeCached_congr hc hm]
        · rwa [forceExternalReads_congr hc hm]
      · refine hs.readByte_ram hram (isStale_eq_false_of_uncached (hs.ramMem hram).2 ?_)
        rwa [mayBeCached_congr hc hm, forceExternalReads_congr hc hm]
    · have hx := hother x hx
      exact ⟨hx.mem, hx.written, hx.bus, hx.rom, hx.parity, isStale_of_marks hc hm hx.bus hx.rom hx.parity⟩
    · refine memRead_of_readByte hn4 fun k hk => ?_
      obtain ⟨pa, hpa, hs⟩ := hstored k hk
      obtain ⟨hr, hu, hns⟩ := hram k pa hk hpa
      exact ⟨pa, (physAddr_congr hc h0 hm _).trans hpa, hs.readByte_unmarked hr hu hns⟩

end Sys2Proof.Machine
end

section
/-! PROOF. What a step can do to the schedule and to the model-specific registers, and what follows along a run (O40,
O51). -/

namespace Sys2Proof.Machine

open Sys2Proof.Claim Sys2Proof.Safety

/-! ### One step -/

/-- Every step of either agent uses up its own turn and no other; an empty schedule stays empty. -/
theorem step_schedule {s t : State} (h : step s = .next t) : t.schedule = s.schedule.tail := by
  rcases step_cases h with ⟨rest, hturn, -, i, s', hf, hx⟩ | ⟨e, rest, hs, he⟩
  · have ht : t.schedule = rest := by
      obtain ⟨_, -, -, rfl⟩ := fetchInstr_run hf
      rw [(exec_ok hx).1]
      rfl
    rcases hturn with ⟨hs, rfl⟩ | hs <;> rw [ht, hs] <;> rfl
  · have ht : t.schedule = rest := by
      by_cases hr : e = .hardwareReset
      · subst hr
        cases he
        rfl
      · rw [(envStep_ok he hr).1]
        rfl
    rw [ht, hs, List.tail_cons]

/-- Of the model-specific registers at most the bits that events set or clear differ: 11, 7, 1 and 0 of Register
1000h, and 28 of Register 1002h; the latch is the same (R212). -/
structure OnlyStatusBits (s t : State) : Prop where
  msr : t.msr = { s.msr with r1000 := t.msr.r1000, r1002 := t.msr.r1002 }
  latch : t.msr1000Written = s.msr1000Written
  r1000 : ∀ i, i ≠ 11 → i ≠ 7 → i ≠ 1 → i ≠ 0 → t.msr.r1000.getLsbD i = s.msr.r1000.getLsbD i
  r1002 : ∀ i, i ≠ 28 → t.msr.r1002.getLsbD i = s.msr.r1002.getLsbD i

/-- Everything a step other than a hardware reset can do to the model-specific registers and the latch: a WRMSR's
store, or status bits alone. -/
theorem step_msr {s t : State} (h : step s = .next t) (hr : s.schedule.head? ≠ some (.env .hardwareReset)) :
    (∃ m v, writeValue s m (edxEax s) s.free = .ok v ∧ t.msr = s.msr.set m v ∧
      t.msr1000Written = if m = .r1000 then true else s.msr1000Written) ∨ OnlyStatusBits s t := by
  rcases step_cases h with ⟨rest, -, -, i, s', hf, hx⟩ | ⟨e, rest, hs, he⟩
  · obtain ⟨_, -, -, rfl⟩ := fetchInstr_run hf
    rcases exec_msr hx with ⟨hm, hl⟩ | ⟨-, m, v, -, hv, hm, hl⟩
    · have hm' : t.msr = s.msr := hm
      refine .inr ⟨?_, hl, fun i _ _ _ _ => ?_, fun i _ => ?_⟩ <;> rw [hm']
    · exact .inl ⟨m, v, hv, hm, hl⟩
  · have hne : e ≠ .hardwareReset := by
      rintro rfl
      exact hr (congrArg List.head? hs)
    obtain ⟨ht, h1000, h1002⟩ := envStep_ok he hne
    refine .inr ⟨?_, ?_, h1000, h1002⟩
    · exact congrArg State.msr ht
    · exact (congrArg State.msr1000Written ht).trans rfl

/-! ### The latched bits of Register 1000h (R37) -/

/-- The latch is used up, and bits 14 and 10 of Register 1000h are those of `s`. -/
def LatchedAs (s t : State) : Prop :=
  t.msr1000Written = true ∧ ∀ i, i = 14 ∨ i = 10 → t.msr.r1000.getLsbD i = s.msr.r1000.getLsbD i

theorem LatchedAs.trans {s u t : State} (h : LatchedAs s u) (g : LatchedAs u t) : LatchedAs s t :=
  ⟨g.1, fun i hi => (g.2 i hi).trans (h.2 i hi)⟩

/-- Once the latch is used up, no step but a hardware reset frees it or changes bits 14 and 10: a WRMSR of Register
1000h masks them, and no event's status bit is one of them. -/
theorem step_latchedAs {s t : State} (h : step s = .next t) (hr : s.schedule.head? ≠ some (.env .hardwareReset))
    (hl : s.msr1000Written = true) : LatchedAs s t := by
  rcases step_msr h hr with ⟨m, v, hv, hm, hlt⟩ | hstat
  · refine ⟨by rw [hlt, hl, ite_self], fun i hi => ?_⟩
    rw [hm]
    by_cases hm1000 : m = .r1000
    · subst hm1000
      cases hv
      show (write1000 s.cfg.cpu s.msr1000Written s.msr.r1000 (edxEax s) s.free).getLsbD i = _
      rw [hl]
      exact write1000_latched _ _ _ _ hi
    · exact congrArg (BitVec.getLsbD · i) (MsrFile.get_set_other s.msr (Ne.symm hm1000) v)
  · exact ⟨hstat.latch.trans hl, fun i hi => hstat.r1000 i (by omega) (by omega) (by omega) (by omega)⟩

/-- What every step keeps under a schedule without hardware reset, the run keeps: the schedule only gets shorter. -/
theorem reachesIn_latchedAs {k : Nat} {s t : State} (hs : .env .hardwareReset ∉ s.schedule)
    (hl : s.msr1000Written = true) (h : ReachesIn k s t) : LatchedAs s t := by
  induction k generalizing s with
  | zero =>
    cases h
    exact ⟨hl, fun _ _ => rfl⟩
  | succ k ih =>
    obtain ⟨u, hu, ht⟩ : ∃ u, step s = .next u ∧ ReachesIn k u t := by
      simp only [ReachesIn, Host.Core.run] at h
      split at h
      · exact ⟨_, ‹_›, h⟩
      · cases h
      · cases h
    have hsu := step_latchedAs hu (fun h => hs (List.mem_of_mem_head? h)) hl
    have hus : .env .hardwareReset ∉ u.schedule := fun h => hs (List.mem_of_mem_tail (step_schedule hu ▸ h))
    exact hsu.trans (ih hus hsu.1 ht)

/-- Settles O40, by induction on the number of steps. -/
theorem latchedBitsNeverChangeWithoutReset : Obligations.LatchedBitsNeverChangeWithoutReset := by
  intro k s t hsched hl h
  obtain ⟨hlt, hbits⟩ := reachesIn_latchedAs (of_decide_eq_false hsched) hl h
  exact ⟨hlt, hbits 14 (.inl rfl), hbits 10 (.inr rfl)⟩

/-! ### The reserved encodings (R33, R69) -/

theorem extractLsb'_eq_of_bits {a b : Quad} {start len : Nat}
    (h : ∀ i, start ≤ i → i < start + len → a.getLsbD i = b.getLsbD i) :
    a.extractLsb' start len = b.extractLsb' start len := by
  refine BitVec.eq_of_getLsbD_eq fun i hi => ?_
  rw [BitVec.getLsbD_extractLsb', BitVec.getLsbD_extractLsb', h _ (Nat.le_add_right _ _) (Nat.add_lt_add_left hi _)]

theorem debugControl_ne_reserved_iff (r : Quad) :
    debugControl r ≠ .reserved ↔ dcField r = 0 ∨ dcField r = 1 ∨ dcField r = 4 := by
  unfold debugControl
  split_ifs <;> simp_all

theorem clockMode_ne_unlisted_iff (r : Quad) :
    clockMode r ≠ .unlisted ↔ clockModeField r = 0 ∨ clockModeField r = 3 ∨ clockModeField r = 4 := by
  unfold clockMode
  split_ifs <;> simp_all

/-- Both fields lie in bits of class RW, so a WRMSR stores them as written, and it refuses the values that are not
listed. -/
theorem encodingsLegal_of_writeValue {s : State} {m : MsrId} {v d n : Quad} (hs : EncodingsLegal s)
    (hv : writeValue s m v d = .ok n) : EncodingsLegal (s.setMsr (s.msr.set m n)) := by
  obtain ⟨h83, h1002⟩ := hs
  cases m with
  | r83 =>
    refine ⟨(debugControl_ne_reserved_iff n).2 ?_, h1002⟩
    have hn : dcField n = v.extractLsb' 1 3 := extractLsb'_eq_of_bits fun i h1 h3 =>
      getLsbD_writeValue hv (by omega) (by simp only [controlBit, decide_eq_true (show i ≤ 3 by omega), Bool.true_or])
    rw [hn]
    exact (write83_ok_iff.1 hv).2.1
  | r1002 =>
    refine ⟨h83, (clockMode_ne_unlisted_iff n).2 ?_⟩
    have hn : clockModeField n = v.extractLsb' 24 3 := extractLsb'_eq_of_bits fun i h24 h26 =>
      getLsbD_writeValue hv (by omega)
        (by simp only [controlBit, decide_eq_true (show 24 ≤ i ∧ i ≤ 27 by omega), Bool.true_or])
    rw [hn]
    exact (write1002_ok_iff.1 hv).1
  | array | r1000 | r1001 | r1004 => exact ⟨h83, h1002⟩

/-- No event touches Register 83h or the ClockMode of Register 1002h. -/
theorem OnlyStatusBits.encodingsLegal {s t : State} (h : OnlyStatusBits s t) (hs : EncodingsLegal s) :
    EncodingsLegal t := by
  obtain ⟨h83, h1002⟩ := hs
  have e83 : t.msr.r83 = s.msr.r83 := by rw [h.msr]
  have e1002 : clockModeField t.msr.r1002 = clockModeField s.msr.r1002 :=
    extractLsb'_eq_of_bits fun i _ h26 => h.r1002 i (by omega)
  refine ⟨e83 ▸ h83, ?_⟩
  rw [clockMode_ne_unlisted_iff, e1002, ← clockMode_ne_unlisted_iff]
  exact h1002

/-- Settles O51: of the two ways a step can touch the registers, a WRMSR's store keeps the encodings legal, and status
bits lie outside their fields. -/
theorem reservedEncodingsAreNeverStored : Obligations.ReservedEncodingsAreNeverStored := by
  intro s t hs hr h
  rcases step_msr h hr with ⟨m, v, hv, hm, -⟩ | hstat
  · have hlegal := encodingsLegal_of_writeValue hs hv
    rwa [EncodingsLegal, State.setMsr_msr, ← hm] at hlegal
  · exact hstat.encodingsLegal hs

end Sys2Proof.Machine
end

section
/-! PROOF. The decoder reads an instruction's own bytes: as many as R121 says, whatever stands after them (R126). -/

namespace Sys2Proof

/-- After `k` bytes of an instruction, the reader `f` takes bytes of its own that complete the `len x` bytes of what
it gives, and takes the same ones whatever stands after them. -/
def Reads {α : Type} (k : Nat) (len : α → Nat) (f : List Byte → Option (α × List Byte)) : Prop :=
  ∀ bs x rest, f bs = some (x, rest) →
    ∃ own, bs = own ++ rest ∧ k + own.length = len x ∧ ∀ other, f (own ++ other) = some (x, other)

section
variable {α β : Type} {k : Nat} {len : α → Nat} {f : List Byte → Option (α × List Byte)}

theorem reads_none : Reads k len (fun _ => none) := nofun

theorem reads_pure {x : α} (h : k = len x) : Reads k len (fun bs => some (x, bs)) := by
  rintro bs _ _ ⟨⟩
  exact ⟨[], rfl, h, fun _ => rfl⟩

theorem Reads.map {g : α → β} {len' : β → Nat} {j : Nat} (h : Reads k len f) (hl : ∀ x, j + len x = k + len' (g x)) :
    Reads j len' (fun bs => (f bs).map fun p => (g p.1, p.2)) := by
  intro bs y _ hy
  obtain ⟨⟨x, rest⟩, hx, ⟨⟩⟩ := Option.map_eq_some_iff.1 hy
  obtain ⟨own, hbs, hlen, hother⟩ := h bs x rest hx
  refine ⟨own, hbs, ?_, fun other => Option.map_eq_some_iff.2 ⟨_, hother other, rfl⟩⟩
  have hgx := hl x
  dsimp only
  omega

/-- A reader that begins with one byte. -/
theorem reads_of_cons (hnil : f [] = none) (h : ∀ b, Reads (k + 1) len fun bs => f (b :: bs)) : Reads k len f := by
  intro bs x rest hx
  cases bs with
  | nil => exact nomatch hnil.symm.trans hx
  | cons b bs =>
    obtain ⟨own, rfl, hlen, hother⟩ := h b bs x rest hx
    exact ⟨b :: own, rfl, by rw [List.length_cons]; omega, hother⟩

end

/-! ### Fields and operands -/

theorem reads_takeByte : Reads 0 (fun _ => 1) takeByte := fun _ x _ h =>
  ⟨[x], takeByte_eq_some.1 h, rfl, fun _ => rfl⟩

theorem reads_takeHalf : Reads 0 (fun _ => 2) takeHalf := by
  intro bs x rest h
  obtain ⟨b0, b1, rfl, rfl⟩ := takeHalf_eq_some.1 h
  exact ⟨[b0, b1], rfl, rfl, fun _ => rfl⟩

theorem reads_takeWord : Reads 0 (fun _ => 4) takeWord := by
  intro bs x rest h
  obtain ⟨b0, b1, b2, b3, rfl, rfl⟩ := takeWord_eq_some.1 h
  exact ⟨[b0, b1, b2, b3], rfl, rfl, fun _ => rfl⟩

theorem reads_takeDisp16 (m : ModField) : Reads 0 Disp16.length (takeDisp16 m) := by
  cases m with
  | m01 => exact reads_takeByte.map fun _ => rfl
  | m10 => exact reads_takeHalf.map fun _ => rfl
  | m00 | m11 => exact reads_pure rfl

theorem reads_takeDisp32 (m : ModField) : Reads 0 Disp32.length (takeDisp32 m) := by
  cases m with
  | m01 => exact reads_takeByte.map fun _ => rfl
  | m10 => exact reads_takeWord.map fun _ => rfl
  | m00 | m11 => exact reads_pure rfl

theorem reads_decodeMem16 (m : ModField) (rm : BitVec 3) :
    Reads 0 (fun x => (RmOperand.mem16 x).tailLength) (decodeMem16 m rm) := by
  by_cases h : m = .m00 ∧ rm = 6
  · rw [show decodeMem16 m rm = _ from funext fun bs => if_pos h]
    exact reads_takeHalf.map fun _ => rfl
  · rw [show decodeMem16 m rm = _ from funext fun bs => if_neg h]
    exact (reads_takeDisp16 m).map fun _ => rfl

theorem reads_decodeSib (m : ModField) : Reads 0 (fun x => (RmOperand.mem32 x).tailLength) (decodeSib m) := by
  refine reads_of_cons rfl fun sb => ?_
  simp only [decodeSib, takeByte_cons]
  by_cases h : m = .m00 ∧ lowField sb = 5
  · simp only [if_pos h]
    exact reads_takeWord.map fun _ => rfl
  · simp only [if_neg h]
    exact (reads_takeDisp32 m).map fun _ => by simp [RmOperand.tailLength]

theorem reads_decodeMem32 (m : ModField) (rm : BitVec 3) :
    Reads 0 (fun x => (RmOperand.mem32 x).tailLength) (decodeMem32 m rm) := by
  by_cases h4 : rm = 4
  · rw [show decodeMem32 m rm = _ from funext fun bs => if_pos h4]
    exact reads_decodeSib m
  · rw [show decodeMem32 m rm = _ from funext fun bs => if_neg h4]
    by_cases h5 : m = .m00 ∧ rm = 5
    · simp only [if_pos h5]
      exact reads_takeWord.map fun _ => rfl
    · simp only [if_neg h5]
      exact (reads_takeDisp32 m).map fun _ => rfl

theorem reads_decodeRm (a : OpSize) (m : ModField) (rm : BitVec 3) :
    Reads 0 RmOperand.tailLength (decodeRm a m rm) := by
  by_cases h : m = .m11
  · rw [show decodeRm a m rm = _ from funext fun bs => if_pos h]
    exact reads_pure rfl
  · rw [show decodeRm a m rm = _ from funext fun bs => if_neg h]
    cases a with
    | w16 => exact (reads_decodeMem16 m rm).map fun _ => rfl
    | w32 => exact (reads_decodeMem32 m rm).map fun _ => rfl

/-! ### Opcodes -/

/-- The instruction and the bytes after it, where the decoder gives one. -/
def DecodeResult.ok? : DecodeResult → Option (Instr × List Byte)
  | .ok i rest => some (i, rest)
  | .invalidOpcode _ => none
  | .stop _ => none

theorem DecodeResult.ok?_eq_some {d : DecodeResult} {i : Instr} {rest : List Byte} :
    d.ok? = some (i, rest) ↔ d = .ok i rest := by
  cases d <;> simp [DecodeResult.ok?]

section
variable (c : Config) (o a : Bool)

/-- Each size override seen is one byte of the length (R113, R114, R121). -/
theorem rmFormatLength_sizeWith (rm : RmOperand) :
    rmFormatLength c (sizeWith c o) (sizeWith c a) rm = o.toNat + a.toNat + 3 + rm.tailLength := by
  have hsize : ∀ p : Bool, (if sizeWith c p = c.defaultSize then 0 else 1) = p.toNat := by
    intro p
    cases p <;> cases hd : c.defaultSize <;> simp [sizeWith, OpSize.other, hd]
  rw [rmFormatLength, hsize, hsize]

/-- Format RM behind its ModRM byte. -/
theorem reads_decodeRmFormat_cons {mk : OpSize → OpSize → Reg → RmOperand → Instr}
    (hmk : ∀ w s r rm, instrLength c (mk w s r rm) = rmFormatLength c w s rm) (modrm : Byte) :
    Reads (o.toNat + a.toNat + 3) (instrLength c) fun bs => (decodeRmFormat c o a mk (modrm :: bs)).ok? := by
  have hmap : (fun bs => (decodeRmFormat c o a mk (modrm :: bs)).ok?) = fun bs =>
      (decodeRm (sizeWith c a) (ModField.ofBits (topField modrm)) (lowField modrm) bs).map fun p =>
        (mk (sizeWith c o) (sizeWith c a) (Reg.ofBits (midField modrm)) p.1, p.2) := by
    funext bs
    simp only [decodeRmFormat, takeByte_cons]
    cases decodeRm (sizeWith c a) (ModField.ofBits (topField modrm)) (lowField modrm) bs <;> rfl
  rw [hmap]
  exact (reads_decodeRm _ _ _).map fun rm => by rw [hmk, rmFormatLength_sizeWith, Nat.zero_add]

theorem reads_decodeXbts : Reads (o.toNat + a.toNat + 2) (instrLength c) fun bs => (decodeXbts c o a bs).ok? := by
  refine reads_of_cons rfl fun modrm => ?_
  have hmem (bs : List Byte) : isMemoryModRm (modrm :: bs) = isMemoryModRm [modrm] := rfl
  simp only [decodeXbts, hmem]
  split_ifs
  · exact reads_none
  · exact reads_decodeRmFormat_cons c o a (fun _ _ _ _ => rfl) modrm

theorem reads_decode0FA6 : Reads (o.toNat + a.toNat + 2) (instrLength c) fun bs => (decode0FA6 c o a bs).ok? := by
  unfold decode0FA6
  cases c.cpu with
  | i386A => exact reads_decodeXbts c o a
  | i486A => exact reads_of_cons rfl fun modrm => reads_decodeRmFormat_cons c o a (fun _ _ _ _ => rfl) modrm
  | am5x86 | ibm386SLC | ibm486SLC | ibm486SLC2 | ibm486BL3 | i486B | other => exact reads_none

theorem reads_decodeMsrOp {i : Instr} (hi : instrLength c i = 2) :
    Reads (o.toNat + a.toNat + 2) (instrLength c) fun bs => (decodeMsrOp c o a i bs).ok? := by
  unfold decodeMsrOp
  cases o with
  | true => exact reads_none
  | false =>
    cases a with
    | true => exact reads_none
    | false =>
      cases c.cpu.hasMsrs with
      | true => exact reads_pure hi.symm
      | false => exact reads_none

theorem reads_decodeTwoByte : Reads (o.toNat + a.toNat + 1) (instrLength c) fun bs => (decodeTwoByte c o a bs).ok? := by
  refine reads_of_cons rfl fun b => ?_
  simp only [decodeTwoByte, takeByte_cons]
  split_ifs
  · exact reads_decode0FA6 c o a
  · exact reads_decodeMsrOp c o a rfl
  · exact reads_decodeMsrOp c o a rfl
  · exact reads_none

theorem reads_decodeMov (r : Reg) :
    Reads (o.toNat + a.toNat + 1) (instrLength c) fun bs => (decodeMov c o a r bs).ok? := by
  cases h : o || a with
  | true =>
    simp only [decodeMov, h, if_true]
    exact reads_none
  | false =>
    obtain ⟨rfl, rfl⟩ := Bool.or_eq_false_iff.1 h
    by_cases hd : c.defaultSize = .w16
    · simp only [decodeMov, hd, if_true]
      exact reads_none
    · have hmap : (fun bs => (decodeMov c false false r bs).ok?) = fun bs =>
          (takeWord bs).map fun p => (.movR32Imm32 r p.1, p.2) := by
        funext bs
        simp only [decodeMov, hd, if_false]
        cases takeWord bs <;> rfl
      rw [hmap]
      exact reads_takeWord.map fun _ => rfl

theorem reads_decodeOpcode_cons (b : Byte) :
    Reads (o.toNat + a.toNat + 1) (instrLength c) fun bs => (decodeOpcode c o a (b :: bs)).ok? := by
  simp only [decodeOpcode, takeByte_cons]
  split_ifs
  · exact reads_decodeTwoByte c o a
  · exact reads_decodeMov c o a _
  · exact reads_none

/-- One turn of the loop over 66h and 67h: each is taken at most once (R114). -/
theorem reads_decodeFrom_of
    (ho : o = false → Reads (a.toNat + 1) (instrLength c) fun bs => (decodeFrom c true a bs).ok?)
    (ha : a = false → Reads (o.toNat + 1) (instrLength c) fun bs => (decodeFrom c o true bs).ok?) :
    Reads (o.toNat + a.toNat) (instrLength c) fun bs => (decodeFrom c o a bs).ok? := by
  refine reads_of_cons rfl fun b => ?_
  simp only [decodeFrom]
  by_cases h66 : b = 0x66
  · simp only [h66, if_true]
    cases o with
    | true => exact reads_none
    | false => simpa using ho rfl
  · simp only [h66, if_false]
    by_cases h67 : b = 0x67
    · simp only [h67, if_true]
      cases a with
      | true => exact reads_none
      | false => exact ha rfl
    · simp only [h67, if_false]
      split_ifs
      · exact reads_none
      · exact reads_decodeOpcode_cons c o a b

end

theorem reads_decode (c : Config) : Reads 0 (instrLength c) fun bs => (decode c bs).ok? := by
  have htt : Reads 2 (instrLength c) fun bs => (decodeFrom c true true bs).ok? := reads_decodeFrom_of c _ _ nofun nofun
  have htf : Reads 1 (instrLength c) fun bs => (decodeFrom c true false bs).ok? :=
    reads_decodeFrom_of c _ _ nofun fun _ => htt
  have hft : Reads 1 (instrLength c) fun bs => (decodeFrom c false true bs).ok? :=
    reads_decodeFrom_of c _ _ (fun _ => htt) nofun
  exact reads_decodeFrom_of c false false (fun _ => htf) fun _ => hft

/-! ### What the decoder reads -/

/-- An instruction that decodes has bytes of its own, as many as its length, and decodes from them whatever follows.
-/
theorem decode_own {c : Config} {bs rest : List Byte} {i : Instr} (h : decode c bs = .ok i rest) :
    ∃ own, bs = own ++ rest ∧ own.length = instrLength c i ∧ ∀ other, decode c (own ++ other) = .ok i other := by
  obtain ⟨own, hbs, hlen, hother⟩ := reads_decode c bs i rest (DecodeResult.ok?_eq_some.2 h)
  exact ⟨own, hbs, (Nat.zero_add _).symm.trans hlen, fun other => DecodeResult.ok?_eq_some.1 (hother other)⟩

/-- More bytes after an instruction are left after it. -/
theorem decode_append {c : Config} {bs rest : List Byte} {i : Instr} (h : decode c bs = .ok i rest) (more : List Byte) :
    decode c (bs ++ more) = .ok i (rest ++ more) := by
  obtain ⟨own, rfl, -, hother⟩ := decode_own h
  rw [List.append_assoc, hother]

/-- No instruction is longer than the longest form (R121). -/
theorem instrLength_le (c : Config) (i : Instr) : instrLength c i ≤ maxInstrLength := by
  cases i with
  | xbts w a reg rm => exact (Laws.EncodeLength.xbts w a reg rm c).2.2
  | cmpxchg f => exact (Laws.EncodeLength.cmpxchg f c).2.2
  | rdmsr => exact (Laws.EncodeLength.rdmsr c).2.2
  | wrmsr => exact (Laws.EncodeLength.wrmsr c).2.2
  | movR32Imm32 r imm => exact (Laws.EncodeLength.movR32Imm32 r imm c).2.2

theorem length_eq_of_decode {c : Config} {bs : List Byte} {i : Instr} (h : decode c bs = .ok i []) :
    bs.length = instrLength c i := by
  obtain ⟨own, hbs, hlen, -⟩ := decode_own h
  rw [hbs, List.append_nil, hlen]

/-- The beginning of an instruction that has more bytes is broken off, and nothing else (R126). -/
theorem decode_of_broken_off {c : Config} {bs more : List Byte} {i : Instr} (hmore : more ≠ [])
    (h : decode c (bs ++ more) = .ok i []) : decode c bs = .stop .truncated := by
  have hstands := decode_stands c bs more
  rw [h] at hstands
  cases hd : decode c bs with
  | ok i' rest =>
    have hnil : rest ++ more = [] := (DecodeResult.ok.inj ((decode_append hd more).symm.trans h)).2
    exact absurd (List.append_eq_nil_iff.1 hnil).2 hmore
  | invalidOpcode rest => rw [hd] at hstands; cases hstands
  | stop r =>
    rw [hd] at hstands
    cases r with
    | truncated => rfl
    | prefixNotAdmitted | unknownOpcode | memOperandNotAdmitted => cases hstands

end Sys2Proof
end

section
/-! PROOF. The fetch finds the bytes that stand at pc, and the step runs or refuses what they are (O11, O14). -/

namespace Sys2Proof.Machine

open Sys2Proof.Claim

/-! ### Bytes at pc -/

/-- The bytes `bs` stand at pc, at the physical addresses `pas`. -/
def StandsAtPc (s : State) (bs : List Byte) (pas : List Nat) : Prop :=
  pas.length = bs.length ∧ ∀ k pa b, pas[k]? = some pa → bs[k]? = some b →
    physAddr s (s.pc + BitVec.ofNat 32 k) = .ok pa ∧ s.memByte pa = b

/-- The address of the k-th byte as the fetch window counts it. -/
theorem StandsAtPc.window {s : State} {bs : List Byte} {pas : List Nat} (h : StandsAtPc s bs pas) (k pa : Nat)
    (b : Byte) (hpa : pas[k]? = some pa) (hb : bs[k]? = some b) :
    physAddr s (BitVec.ofNat 32 (s.pc.toNat + k)) = .ok pa ∧ s.memByte pa = b := by
  rw [BitVec.ofNat_add, BitVec.ofNat_toNat, BitVec.setWidth_eq]
  exact h.2 k pa b hpa hb

/-- The schedule is no input of the fetch. -/
theorem StandsAtPc.setSchedule {s : State} {bs : List Byte} {pas : List Nat} (h : StandsAtPc s bs pas)
    (rest : List Turn) : StandsAtPc (s.setSchedule rest) bs pas :=
  ⟨h.1, fun k pa b hpa hb => by
    obtain ⟨hp, hm⟩ := h.2 k pa b hpa hb
    exact ⟨(physAddr_congr (s := s) rfl rfl rfl _).trans hp, (memByte_congr (s := s) rfl rfl pa).trans hm⟩⟩

/-- The instruction's own addresses are those before the bytes the decoder left. -/
theorem fetchedAddrs_zip {bs : List Byte} {pas : List Nat} (h : pas.length = bs.length) (more : List (Nat × Byte)) :
    fetchedAddrs (pas.zip bs ++ more) (more.map Prod.snd) = pas := by
  rw [fetchedAddrs, List.length_append, List.length_map, Nat.add_sub_cancel, List.take_left,
    List.map_fst_zip (by omega)]

/-- An instruction that stands at pc is fetched, unless one of its bytes was written in the run (R96). -/
theorem fetchInstr_of_standsAtPc {s : State} {bs : List Byte} {pas : List Nat} {i : Instr}
    (h : StandsAtPc s bs pas) (hd : decode s.cfg bs = .ok i []) (hend : s.pc.toNat + bs.length ≤ 2 ^ 32) :
    fetchInstr s = if anyWritten s pas then .stop (.refuse .codeModified) else .run i (s.noteFetched pas) := by
  obtain ⟨more, hwin⟩ := fetchWindow_holds (n := maxInstrLength) h.1
    (length_eq_of_decode hd ▸ instrLength_le s.cfg i) hend h.window
  have hdec : decode s.cfg ((pas.zip bs ++ more).map Prod.snd) = .ok i (more.map Prod.snd) := by
    rw [List.map_append, List.map_snd_zip (by rw [h.1])]
    exact decode_append hd _
  simp only [fetchInstr, hwin, hdec, fetchedAddrs_zip h.1]

/-- The beginning of an instruction that the end of the address space breaks off is refused PcWrap (R22). -/
theorem fetchInstr_of_broken_off {s : State} {bs more : List Byte} {pas : List Nat} {i : Instr}
    (h : StandsAtPc s bs pas) (hmore : more ≠ []) (hd : decode s.cfg (bs ++ more) = .ok i [])
    (hend : s.pc.toNat + bs.length = 2 ^ 32) : fetchInstr s = .stop (.refuse .pcWrap) := by
  have hlen : bs.length ≤ maxInstrLength := by
    have hall := length_eq_of_decode hd ▸ instrLength_le s.cfg i
    rw [List.length_append] at hall
    omega
  have hwin := fetchWindow_end h.1 hlen hend h.window
  have hdec : decode s.cfg ((pas.zip bs).map Prod.snd) = .stop .truncated := by
    rw [List.map_snd_zip (by rw [h.1])]
    exact decode_of_broken_off hmore hd
  simp only [fetchInstr, hwin, hdec, decodeRefusal]

/-! ### The core's turn -/

theorem rest_of_coreTurn {s : State} {rest : List Turn} (h : CoreTurn s rest) : rest = s.schedule.tail := by
  rcases h with ⟨hs, rfl⟩ | hs <;> rw [hs] <;> rfl

/-- On the core's turn a step that answers ran the fetched instruction. -/
theorem step_next_of_coreTurn {s t : State} {rest : List Turn} (hturn : CoreTurn s rest) (h : step s = .next t) :
    ∃ i s', fetchInstr (s.setSchedule rest) = .run i s' ∧ exec i s' = .next t := by
  rcases step_cases h with ⟨rest', hturn', -, hrun⟩ | ⟨e, rest', hs, -⟩
  · rwa [rest_of_coreTurn hturn, ← rest_of_coreTurn hturn']
  · rcases hturn with ⟨hs', -⟩ | hs' <;> cases hs.symm.trans hs'

section
variable {s : State} {rest : List Turn} (hturn : CoreTurn s rest) (hnmi : s.nmiPending = false)
include hturn hnmi

theorem step_of_fetch_run {i : Instr} {s' : State} (h : fetchInstr (s.setSchedule rest) = .run i s') :
    step s = exec i s' := by
  simp only [step_core hturn, coreStep, State.setSchedule_nmiPending, hnmi, h, Bool.false_eq_true, if_false]

theorem step_of_fetch_stop {st : Stop} (h : fetchInstr (s.setSchedule rest) = .stop st) :
    step s = stopWith st (s.setSchedule rest) := by
  simp only [step_core hturn, coreStep, State.setSchedule_nmiPending, hnmi, h, Bool.false_eq_true, if_false]

/-- The step runs the instruction at pc. -/
theorem step_of_holdsAtPc {bs : List Byte} {pas : List Nat} {i : Instr} (h : HoldsAtPc s bs pas i) :
    step s = exec i ((s.setSchedule rest).noteFetched pas) := by
  obtain ⟨hd, hlen, hend, hbytes⟩ := h
  have hstands : StandsAtPc s bs pas := ⟨hlen, fun k pa b hpa hb => by
    obtain ⟨hp, hm, -⟩ := hbytes k pa b hpa hb
    exact ⟨hp, hm⟩⟩
  have hfresh : anyWritten (s.setSchedule rest) pas = false := by
    simp only [anyWritten, List.any_eq_false, decide_eq_true_eq]
    intro pa hpa
    obtain ⟨k, hk⟩ := List.mem_iff_getElem?.1 hpa
    obtain ⟨hkl, -⟩ := List.getElem?_eq_some_iff.1 hk
    exact (hbytes k pa _ hk (List.getElem?_eq_getElem (hlen ▸ hkl))).2.2
  refine step_of_fetch_run hturn hnmi ?_
  rw [fetchInstr_of_standsAtPc (hstands.setSchedule rest) hd hend, hfresh]
  rfl

end

/-- Settles O11. -/
theorem stepRunsTheDecodedInstruction : Obligations.StepRunsTheDecodedInstruction :=
  fun _ _ _ _ _ hturn hnmi h => step_of_holdsAtPc hturn hnmi h

/-- Settles O14: an instruction that completes moves pc by its length and so fits; one that does not fit, but would
complete elsewhere, is refused by the advance of pc; one broken off by the end of the address space is refused by the
fetch. -/
theorem pcOnlyFallsThrough : Obligations.PcOnlyFallsThrough := by
  intro s rest hturn
  refine ⟨fun t h => ?_, fun bs pas i p u hnmi hholds hfit hx => ?_, fun bs pas hnmi hbroken => ?_⟩
  · obtain ⟨i, s', hf, hx⟩ := step_next_of_coreTurn hturn h
    obtain ⟨_, -, -, rfl⟩ := fetchInstr_run hf
    obtain ⟨-, hwrap, hpc⟩ := exec_ok hx
    exact ⟨i, _, hf, (congrArg BitVec.toNat hpc).trans (toNat_advance_pc hwrap), pcWraps_eq_false_iff.1 hwrap⟩
  · rw [step_of_holdsAtPc hturn hnmi hholds]
    exact exec_of_wraps hx (eq_true_of_ne_false (mt pcWraps_eq_false_iff.1 hfit))
  · obtain ⟨⟨more, i, hmore, hd⟩, hlen, hend, hbytes⟩ := hbroken
    have hstands : StandsAtPc s bs pas := ⟨hlen, hbytes⟩
    exact step_of_fetch_stop hturn hnmi (fetchInstr_of_broken_off (hstands.setSchedule rest) hmore hd hend)

end Sys2Proof.Machine
end

section
/-! PROOF. RDMSR and WRMSR: the reserved bits read, the checks, every store and every refusal (O28, O30, O32 to O38).
-/

namespace Sys2Proof.Machine

open Sys2Proof.Claim

/-- Settles O28: RDMSR uses one free value, and a bit that is not fixed is that value's. -/
theorem rdmsrDrawsTheReservedBits : Obligations.RdmsrDrawsTheReservedBits := by
  intro s t m hsel h
  refine ⟨?_, fun i hi hfree => ?_⟩
  · obtain ⟨_, -, -, rfl⟩ := execRdmsr_next_iff.1 h
    rfl
  · rw [edxEaxBit_rdmsr (msrGate_ok_iff.2 hsel) h hi, getLsbD_readValue_fixedBit _ _ _ hi, hfree]
    rfl

/-! ### The checks (R25, R145, R147, R148) -/

theorem hasMsrs_eq_false_iff (c : Cpu) : c.hasMsrs = false ↔ c ∈ lacksMsrs := by cases c <;> decide

/-- RDMSR and WRMSR stop as the shared checks say. -/
theorem exec_of_msrGate_error {s : State} {i : Instr} {st : Stop} (hi : i = .rdmsr ∨ i = .wrmsr)
    (h : msrGate s = .error st) : exec i s = stopWith st s := by
  rcases hi with rfl | rfl
  · simp only [exec, execRdmsr, h]
  · simp only [exec, execWrmsr, h]

theorem msrGate_of_lacksMsrs {s : State} (h : s.cfg.cpu ∈ lacksMsrs) : msrGate s = .error (.trap .invalidOpcode) := by
  rw [msrGate, if_pos ((hasMsrs_eq_false_iff _).2 h)]

section
variable {s : State} (hmsr : s.cfg.cpu ∉ lacksMsrs)
include hmsr

theorem msrGate_of_unprivileged (hcpl : s.cfg.cpl ≠ 0) : msrGate s = .error (.trap .generalProtection) := by
  rw [msrGate, if_neg (mt (hasMsrs_eq_false_iff _).1 hmsr), if_pos hcpl]

variable (hcpl : s.cfg.cpl = 0)
include hcpl

/-- At CPL 0 a number that names no register the part has or may have raises GeneralProtection(0) (R147). -/
theorem msrGate_of_absent (h : ∀ m, msrOfNumber s.cfg (s.reg .ecx) = some m → msrPresence s.cfg m = .absent) :
    msrGate s = .error (.trap .generalProtection) := by
  rw [msrGate, if_neg (mt (hasMsrs_eq_false_iff _).1 hmsr), if_neg (not_not.2 hcpl)]
  cases hm : msrOfNumber s.cfg (s.reg .ecx) with
  | none => rfl
  | some m => simp only [h m hm]

theorem msrGate_of_open {m : MsrId} (hm : msrOfNumber s.cfg (s.reg .ecx) = some m)
    (hp : msrPresence s.cfg m = .isOpen) : msrGate s = .error (.refuse .msrPresenceOpen) := by
  simp only [msrGate, if_neg (mt (hasMsrs_eq_false_iff _).1 hmsr), if_neg (not_not.2 hcpl), hm, hp]

end

theorem numbersNameTheRegisters : NumbersNameTheRegisters := by
  intro c n hidx
  simp only [registerNumbers, List.map_cons, List.map_nil, List.mem_cons, List.not_mem_nil, or_false, not_or,
    Prod.mk.injEq] at *
  obtain ⟨h83, h1000, h1001, h1002, h1004⟩ := hidx
  refine ⟨fun m hm => ?_, ?_, ?_⟩
  · rcases hm with ⟨rfl, rfl⟩ | ⟨rfl, rfl⟩ | ⟨rfl, rfl⟩ | ⟨rfl, rfl⟩ | ⟨rfl, rfl⟩ <;> rfl
  · rintro rfl
    simp only [msrOfNumber, h83, h1000, h1001, h1002, h1004, if_false, if_true]
  · rintro hn ⟨n83, n1000, n1001, n1002, n1004⟩
    simp only [msrOfNumber, hn, n83, n1000, n1001, n1002, n1004, if_false]

theorem parameterCell_eq_cellValue (v : Option Bool) : parameterCell v = cellValue v := by
  rcases v with _ | _ | _ <;> rfl

theorem presenceFollowsTheTable : PresenceFollowsTheTable := by
  refine ⟨fun c m => ⟨fun h => ?_, fun v h => ?_, fun hyes hcell => ?_⟩, rfl⟩
  · simp only [presentCells, List.mem_cons, Prod.mk.injEq, List.not_mem_nil, or_false] at h
    rcases h with ⟨hc, rfl⟩ | ⟨hc, rfl⟩ | ⟨hc, rfl⟩ | ⟨hc, rfl⟩ | ⟨hc, rfl⟩ | ⟨hc, rfl⟩ | ⟨hc, rfl⟩ | ⟨hc, rfl⟩ <;>
      simp only [msrPresence, hc]
  · simp only [markedD36, List.mem_cons, Prod.mk.injEq, List.not_mem_nil, or_false] at h
    rcases h with ⟨hc, rfl, rfl⟩ | ⟨hc, rfl, rfl⟩ | ⟨hc, rfl, rfl⟩ | ⟨hc, rfl, rfl⟩ | ⟨hc, rfl, rfl⟩ <;>
      simp only [msrPresence, hc, parameterCell_eq_cellValue]
  · -- Each cell of `msrPresence` that is not `absent` is in one of the two lists.
    unfold msrPresence
    split <;> simp_all [presentCells, markedD36]

/-- Settles O30: the numbers, the table, and the four ways the checks end before the register is reached. -/
theorem msrAccessChecks : Obligations.MsrAccessChecks := by
  refine ⟨numbersNameTheRegisters, presenceFollowsTheTable, fun s i hi => ⟨fun h => ?_, fun h hcpl => ?_,
    fun h hcpl habs => ?_, fun h hcpl hopen => ?_⟩⟩
  · exact exec_of_msrGate_error hi (msrGate_of_lacksMsrs h)
  · exact exec_of_msrGate_error hi (msrGate_of_unprivileged h hcpl)
  · exact exec_of_msrGate_error hi (msrGate_of_absent h hcpl habs)
  · obtain ⟨m, hm, hp⟩ := hopen
    exact exec_of_msrGate_error hi (msrGate_of_open h hcpl hm hp)

/-! ### WRMSR of any register -/

/-- WRMSR completes where the value may be written and pc fits: the register holds the new value, a write of Register
1000h uses up the latch, and the rest stays (R37, R142). -/
theorem exec_wrmsr_of_writeValue {s : State} {m : MsrId} {v : Quad} (hsel : Selects s m) (hfit : FitsPc s 2)
    (hv : writeValue s m (edxEax s) s.free = .ok v) :
    ∃ t, Next (exec .wrmsr s) t ∧ t.msr.get m = v ∧
      t.msr1000Written = (if m = .r1000 then true else s.msr1000Written) ∧ OtherMsrsSame m s t ∧ WrmsrFrame s t := by
  have hp : pcWraps s 2 = false := pcWraps_eq_false_iff.2 hfit
  refine ⟨_, execWrmsr_next_iff.2 ⟨m, v, msrGate_ok_iff.2 hsel, hv, hp, rfl⟩, ?_⟩
  rw [storeMsr_eq]
  exact ⟨MsrFile.get_set_same _ _ _, rfl, fun q hq => MsrFile.get_set_other _ hq _, rfl, rfl, rfl, fun _ => rfl,
    ⟨rfl, rfl, rfl, rfl, rfl, rfl, rfl, rfl, rfl⟩, ⟨rfl, rfl, rfl, rfl⟩, toNat_advance_pc hp⟩

/-- WRMSR is refused where the value may not be written. -/
theorem exec_wrmsr_of_writeValue_error {s : State} {m : MsrId} {r : Refusal} (hsel : Selects s m)
    (hv : writeValue s m (edxEax s) s.free = .error r) : exec .wrmsr s = .refused r := by
  simp only [exec, execWrmsr, msrGate_ok_iff.2 hsel, hv]

theorem edxEaxBit_of_lt (s : State) {i : Nat} (hi : i < 32) : edxEaxBit s i = (s.reg .eax).getLsbD i := if_pos hi

/-- A field in the low half of EDX:EAX is EAX's (R9). -/
theorem extractLsb'_edxEax (s : State) {start len : Nat} (h : start + len ≤ 32) :
    (edxEax s).extractLsb' start len = (s.reg .eax).extractLsb' start len := by
  refine BitVec.eq_of_getLsbD_eq fun i hi => ?_
  rw [BitVec.getLsbD_extractLsb', BitVec.getLsbD_extractLsb', ← edxEaxBit_eq, edxEaxBit_of_lt s (by omega)]

/-- Settles O38. -/
theorem wrmsrOfTheArrayRegisterIsRefused : Obligations.WrmsrOfTheArrayRegisterIsRefused :=
  fun _ hsel => exec_wrmsr_of_writeValue_error hsel rfl

/-! ### WRMSR of Register 83h -/

/-- The bits outside the fields of Register 83h are 63 to 8 and 4 (R28, R32). -/
theorem getLsbD_reserved83 {i : Nat} (hi : i < 64) : (~~~0xEF : Quad).getLsbD i = decide (8 ≤ i ∨ i = 4) :=
  (by decide : ∀ j < 64, (~~~0xEF : Quad).getLsbD j = decide (8 ≤ j ∨ j = 4)) i hi

theorem and_eq_zero_iff (a b : Quad) : a &&& b = 0 ↔ ∀ i < 64, b.getLsbD i = true → a.getLsbD i = false := by
  constructor
  · intro h i _ hb
    have hz : (a &&& b).getLsbD i = false := by rw [h]; exact BitVec.getLsbD_zero
    rwa [BitVec.getLsbD_and, hb, Bool.and_true] at hz
  · intro h
    refine BitVec.eq_of_getLsbD_eq fun i hi => ?_
    rw [BitVec.getLsbD_and]
    cases hb : b.getLsbD i with
    | false => simp
    | true => simp [h i hi hb]

theorem reservedBits83_eq_zero_iff (s : State) : edxEax s &&& ~~~0xEF = 0 ↔ Writes83Zeros s := by
  have hbits : edxEax s &&& ~~~0xEF = 0 ↔ ∀ i < 64, 8 ≤ i ∨ i = 4 → edxEaxBit s i = false := by
    rw [and_eq_zero_iff]
    refine forall₂_congr fun i hi => ?_
    rw [getLsbD_reserved83 hi, decide_eq_true_eq, edxEaxBit_eq]
  rw [hbits]
  constructor
  · intro h
    refine ⟨BitVec.eq_of_getLsbD_eq fun i hi => ?_, fun i hi => ?_⟩
    · have hbit := h (i + 32) (by omega) (by omega)
      simpa [edxEaxBit] using hbit
    · by_cases h32 : i < 32
      · rw [← edxEaxBit_of_lt s h32]
        exact h i (by omega) hi
      · exact BitVec.getLsbD_of_ge _ _ (Nat.le_of_not_lt h32)
  · rintro ⟨hedx, heax⟩ i - hi
    rw [edxEaxBit, hedx, heax i hi]
    simp

/-- Settles O32: the two refusals of WriteValue(83h), in its order. -/
theorem wrmsr83RefusesReservedWrites : Obligations.Wrmsr83RefusesReservedWrites := by
  intro s hsel
  refine ⟨fun h => exec_wrmsr_of_writeValue_error hsel ?_, fun h h0 h1 h4 => exec_wrmsr_of_writeValue_error hsel ?_⟩
  · rw [writeValue, write83, if_pos (mt (reservedBits83_eq_zero_iff s).1 h)]
  · rw [writeValue, write83, if_neg (not_not.2 ((reservedBits83_eq_zero_iff s).2 h)), if_neg]
    rw [extractLsb'_edxEax s (by decide)]
    exact not_or.2 ⟨h0, not_or.2 ⟨h1, h4⟩⟩

/-! ### WRMSR of Register 1000h -/

/-- Bits 14 and 10 of a new Register 1000h: as written on the first write, the old ones after it (R37). -/
theorem getLsbD_write1000_once (cpu : Cpu) (latched : Bool) (old v d : Quad) {i : Nat} (h : i = 14 ∨ i = 10) :
    (write1000 cpu latched old v d).getLsbD i = if latched then old.getLsbD i else v.getLsbD i := by
  have hm : (mask1000 cpu latched).getLsbD i = !latched := by
    rcases h with rfl | rfl <;> cases cpu <;> cases latched <;> rfl
  rw [getLsbD_write1000 _ _ _ _ _ (by omega) (by omega), hm]
  cases latched <;> rfl

/-- Settles O33. -/
theorem wrmsr1000StoresTheFields : Obligations.Wrmsr1000StoresTheFields := by
  intro s hsel hfit
  obtain ⟨t, ht, hv, hl, ho, hf⟩ := exec_wrmsr_of_writeValue hsel hfit rfl
  have hr : t.msr.r1000 = write1000 s.cfg.cpu s.msr1000Written s.msr.r1000 (edxEax s) s.free := hv
  refine ⟨t, ht, fun i hi hc => ?_, fun i hi => ?_, fun i hi h0 => ?_, hl, ho, hf⟩
  · rw [edxEaxBit_eq, hr]
    exact getLsbD_writeValue (m := .r1000) rfl hi hc
  · rw [hr, getLsbD_write1000_once _ _ _ _ _ hi, ← edxEaxBit_eq, edxEaxBit_of_lt s (by omega)]
  · rw [hr, getLsbD_write1000_status _ _ _ _ _ hi, ← edxEaxBit_eq, edxEaxBit_of_lt s (by omega), h0, Bool.false_and]

/-- Settles O34: the free value is the one WRMSR uses up. -/
theorem wrmsr1000WrittenOneLeavesAFreeStatusBit : Obligations.Wrmsr1000WrittenOneLeavesAFreeStatusBit := by
  intro s t hsel h
  obtain ⟨m, v, hm, hv, -, rfl⟩ := execWrmsr_next_iff.1 h
  obtain rfl : .r1000 = m := Except.ok.inj ((msrGate_ok_iff.2 hsel).symm.trans hm)
  cases hv
  refine ⟨s.draws, Nat.le_refl _, Nat.lt_succ_self _, fun i hi h1 => ?_⟩
  have heax : (edxEax s).getLsbD i = true := by rw [← edxEaxBit_eq, edxEaxBit_of_lt s (by omega), h1]
  show (write1000 s.cfg.cpu s.msr1000Written s.msr.r1000 (edxEax s) s.free).getLsbD i = _
  rw [getLsbD_write1000_status _ _ _ _ _ hi, heax, Bool.true_and]
  rfl

/-! ### WRMSR of Registers 1001h, 1002h and 1004h -/

/-- Every control bit of the register a WRMSR wrote is as EDX:EAX has it. -/
theorem controlBits_of_writeValue {s t : State} {m : MsrId} {v : Quad} (hv : writeValue s m (edxEax s) s.free = .ok v)
    (ht : t.msr.get m = v) {i : Nat} (hi : i < 64) (hc : controlBit s.cfg.cpu m i = true) :
    (t.msr.get m).getLsbD i = edxEaxBit s i := by
  rw [ht, edxEaxBit_eq, getLsbD_writeValue hv hi hc]

/-- Settles O35. -/
theorem wrmsr1001StoresTheFields : Obligations.Wrmsr1001StoresTheFields := by
  intro s hsel hfit
  obtain ⟨t, ht, hv, hl, ho, hf⟩ := exec_wrmsr_of_writeValue hsel hfit rfl
  refine ⟨t, ht, fun i hi => ?_, ho, hl, hf⟩
  exact controlBits_of_writeValue (m := .r1001) rfl hv (by omega) (decide_eq_true (by omega))

/-- Settles O36: a listed ClockMode is stored under a mask without bit 28; an unlisted one is refused. -/
theorem wrmsr1002StoresTheFields : Obligations.Wrmsr1002StoresTheFields := by
  intro s hsel hfit
  have hmode : (edxEax s).extractLsb' 24 3 = written26to24 s := extractLsb'_edxEax s (by decide)
  refine ⟨fun hlisted => ?_, fun h0 h3 h4 => exec_wrmsr_of_writeValue_error hsel ?_⟩
  · have hok : writeValue s .r1002 (edxEax s) s.free = .ok (merge 0x2F000000 s.msr.r1002 (edxEax s)) :=
      write1002_ok_iff.2 ⟨hmode ▸ hlisted, rfl⟩
    obtain ⟨t, ht, hv, hl, ho, hf⟩ := exec_wrmsr_of_writeValue hsel hfit hok
    refine ⟨t, ht, fun i hc => ?_, ?_, ho, hl, hf⟩
    · have hi : i < 32 := by
        simp only [controlBit, Bool.or_eq_true, decide_eq_true_eq, beq_iff_eq] at hc
        omega
      rw [← edxEaxBit_of_lt s hi]
      exact controlBits_of_writeValue hok hv (by omega) hc
    · rw [show t.msr.r1002 = merge 0x2F000000 s.msr.r1002 (edxEax s) from hv, getLsbD_merge]
      rfl
  · rw [writeValue, write1002, hmode, if_neg (not_or.2 ⟨h0, not_or.2 ⟨h3, h4⟩⟩)]

/-- Settles O37. -/
theorem wrmsr1004StoresTheFields : Obligations.Wrmsr1004StoresTheFields := by
  intro s hsel hfit
  obtain ⟨t, ht, hv, hl, ho, hf⟩ := exec_wrmsr_of_writeValue hsel hfit rfl
  refine ⟨t, ht, fun i hc => ?_, ho, hl, hf⟩
  have hi : i < 32 := by
    simp only [controlBit, Bool.or_eq_true, beq_iff_eq] at hc
    omega
  rw [← edxEaxBit_of_lt s hi]
  exact controlBits_of_writeValue (m := .r1004) rfl hv (by omega) hc

end Sys2Proof.Machine
end

section
/-! PROOF. Cacheability, parity errors, the frequency-shift events and the hidden Booleans (O48, O53, O54, O56, O59).
-/

namespace Sys2Proof.Machine

open Sys2Proof.Claim

/-! ### Cacheability (R47, R51, R63) -/

/-- The area E0000h to E0FFFh with bit 6 of Register 1000h set, as the statements write it (R51). -/
theorem dbcsArea_eq_decide (r1000 : Quad) (pa : Nat) :
    dbcsArea r1000 pa = decide (r1000.getLsbD 6 = true ∧ 0xE0000 ≤ pa ∧ pa ≤ 0xE0FFF) := by
  rw [Bool.decide_and, Bool.decide_eq_true, dbcsArea]

theorem regionCacheable_of_lt {pa : Nat} (h : pa < 0x100000) (unit : Nat) (r1000 r1001 : Quad) :
    regionCacheable unit r1000 r1001 pa = (!dbcsArea r1000 pa && r1001.getLsbD (pa / 65536)) := by
  rw [regionCacheable, if_pos h]
  cases dbcsArea r1000 pa <;> rfl

theorem regionCacheable_of_ge {pa : Nat} (h : 0x100000 ≤ pa) (unit : Nat) (r1000 r1001 : Quad) :
    regionCacheable unit r1000 r1001 pa = decide (pa < 0x100000 + r1001.toNat / 2 ^ 32 % 256 * unit) := by
  rw [regionCacheable, if_neg (Nat.not_lt.2 h), BitVec.extractLsb'_toNat, Nat.shiftRight_eq_div_pow]

/-- On a part with Register 1000h its bits 10 and 7 decide, outside the area of bit 6. -/
theorem cacheable_of_controlled {s : State} (h1000 : hasMsr s.cfg .r1000 = true) (pa : Nat) :
    s.cacheable pa =
      if dbcsArea s.msr.r1000 pa then some false
      else if s.msr.r1000.getLsbD 10 then
        if s.msr.r1000.getLsbD 7 then
          if hasMsr s.cfg .r1001 then some (regionCacheable s.cfg.extLimitUnit s.msr.r1000 s.msr.r1001 pa) else none
        else some false
      else none := by
  rw [State.cacheable, cacheKind, if_pos h1000]

/-- Settles O48: each clause is a branch of the function; below 100000h the region itself shuts the area of bit 6 out,
and above it there is no such area. -/
theorem cacheabilityFunction : Obligations.CacheabilityFunction := by
  intro s pa h1000
  have harea : dbcsArea s.msr.r1000 pa = decide (s.msr.r1000.getLsbD 6 = true ∧ 0xE0000 ≤ pa ∧ pa ≤ 0xE0FFF) :=
    dbcsArea_eq_decide _ _
  rw [cacheable_of_controlled h1000]
  refine ⟨fun h6 hlo hhi => ?_, fun h10 hout => ?_, fun h10 h7 => ?_, fun h10 h7 h1001 hlt => ?_,
    fun h10 h7 h1001 hge => ?_, fun h10 h7 h1001 hout => ?_, fun h1001 => ?_⟩
  · rw [harea, if_pos (decide_eq_true ⟨h6, hlo, hhi⟩)]
  · simp only [harea, hout, h10, decide_false, Bool.false_eq_true, if_false]
  · simp only [h10, h7, Bool.false_eq_true, if_true, if_false, ite_self]
  · simp only [h10, h7, h1001, if_true, regionCacheable_of_lt hlt, harea]
    by_cases hin : s.msr.r1000.getLsbD 6 = true ∧ 0xE0000 ≤ pa ∧ pa ≤ 0xE0FFF
    · simp only [hin, and_self, decide_true, if_true, not_true, false_and, decide_false]
    · simp only [hin, decide_false, Bool.false_eq_true, if_false, not_false_eq_true, true_and, Bool.not_false,
        Bool.true_and, Bool.decide_eq_true]
  · have hout : ¬ (s.msr.r1000.getLsbD 6 = true ∧ 0xE0000 ≤ pa ∧ pa ≤ 0xE0FFF) := by omega
    simp only [harea, hout, h10, h7, h1001, decide_false, Bool.false_eq_true, if_false, if_true,
      regionCacheable_of_ge hge]
  · simp only [harea, hout, h10, h7, h1001, decide_false, Bool.false_eq_true, if_false, if_true]
  · rw [State.romBit, h1001, Bool.true_and, regionRom, Bool.decide_and, Bool.decide_eq_true]

/-! ### Cache parity errors (R56, R57, R213) -/

/-- The bits a parity error with parity enabled writes. -/
theorem getLsbD_parityMask (i : Nat) : (0x83 : Quad).getLsbD i = decide (i = 7 ∨ i = 1 ∨ i = 0) := by
  by_cases hi : i < 64
  · exact (by decide : ∀ j < 64, (0x83 : Quad).getLsbD j = decide (j = 7 ∨ j = 1 ∨ j = 0)) i hi
  · rw [BitVec.getLsbD_of_ge _ _ (Nat.le_of_not_lt hi), decide_eq_false (by omega)]

/-- Nothing is stale after a flush, whatever the registers become (R98). -/
theorem isStale_of_flushed {t : State} (hb : t.staleBus = []) (hr : t.staleRom = []) (hp : t.parityRenewed = none)
    (pa : Nat) : t.isStale pa = false :=
  isStale_eq_false_of_unmarked (hb ▸ List.not_mem_nil) (hr ▸ List.not_mem_nil) (by rw [State.parityMayHit, hp])

/-- Settles O53: the event flushes the cache, writes bits 7, 1 and 0 of Register 1000h, and leaves an NMI pending,
which the core's next step takes first. -/
theorem parityErrorDisablesTheCacheAndRaisesNmi : Obligations.ParityErrorDisablesTheCacheAndRaisesNmi := by
  intro s h1000 h1
  have hstep : envStep .cacheParityError s =
      .next ((s.flushCache.setR1000 (merge 0x83 s.msr.r1000 1)).setNmiPending true) := by
    rw [envStep, onPartsWith1000_of_present h1000, eventCacheParityError, if_pos h1]
  have hbit (i : Nat) : (merge 0x83 s.msr.r1000 1).getLsbD i =
      if i = 7 ∨ i = 1 ∨ i = 0 then (1 : Quad).getLsbD i else s.msr.r1000.getLsbD i := by
    rw [getLsbD_merge, getLsbD_parityMask, if_congr decide_eq_true_iff rfl rfl]
  refine ⟨_, hstep, (hbit 7).trans (if_pos (by decide)), (hbit 1).trans (if_pos (by decide)),
    (hbit 0).trans (if_pos (by decide)), fun i h7 h1 h0 => (hbit i).trans (if_neg (by omega)),
    fun q hq => MsrFile.get_set_other _ hq _, isStale_of_flushed (by simp) (by simp) (by simp),
    memByte_congr (by simp) (by simp), by simp, by simp, by simp, by simp, by simp, fun rest hturn => ?_⟩
  rw [step_core hturn]
  rfl

/-- Whether a byte may be cached does not depend on bit 0 of Register 1000h. -/
theorem mayBeCached_of_status {s t : State} (hc : t.cfg = s.cfg) (h1001 : t.msr.r1001 = s.msr.r1001)
    (h : ∀ i, i ≠ 0 → t.msr.r1000.getLsbD i = s.msr.r1000.getLsbD i) (pa : Nat) :
    t.mayBeCached pa = s.mayBeCached pa := by
  have harea : dbcsArea t.msr.r1000 pa = dbcsArea s.msr.r1000 pa := by rw [dbcsArea, dbcsArea, h 6 (by decide)]
  have hregion (unit : Nat) : regionCacheable unit t.msr.r1000 s.msr.r1001 pa =
      regionCacheable unit s.msr.r1000 s.msr.r1001 pa := by rw [regionCacheable, regionCacheable, harea]
  simp only [State.mayBeCached, State.cacheable, hc, h1001, harea, hregion, h 7 (by decide), h 10 (by decide)]

/-- A byte that may be cached is spoilt by a parity error that nothing has ended for it (R90; log entry 33). -/
theorem isStale_of_parity {s : State} {pa : Nat} (hp : s.parityMayHit pa = true) (hc : s.mayBeCached pa = true)
    (hf : s.forceExternalReads = false) : s.isStale pa = true := by
  simp only [State.isStale, hp, hc, hf, Bool.not_false, Bool.or_true, Bool.and_self]

/-- Where a byte is not cacheable or reads are forced to memory, a parity error does not matter. -/
theorem isStale_of_uncached {s t : State} {pa : Nat} (hb : t.staleBus = s.staleBus)
    (hc : t.mayBeCached pa = s.mayBeCached pa) (hf : t.forceExternalReads = s.forceExternalReads)
    (h : s.mayBeCached pa = false ∨ s.forceExternalReads = true) : t.isStale pa = s.isStale pa := by
  rcases h with h | h <;> simp only [State.isStale, hb, hc, hf, h, Bool.and_false, Bool.not_true, Bool.false_and]

/-- Settles O54: the event may set bit 0 of Register 1000h and records the error; no bit that governs caching changes.
-/
theorem parityErrorWithParityDisabledSetsTheFlagAndFreesCachedReads :
    Obligations.ParityErrorWithParityDisabledSetsTheFlagAndFreesCachedReads := by
  intro s h1000 h1
  have hbit (i : Nat) : (s.msr.r1000 ||| (s.free &&& 1)).getLsbD i =
      (s.msr.r1000.getLsbD i || (s.free.getLsbD i && decide (i = 0))) := by
    rw [BitVec.getLsbD_or, BitVec.getLsbD_and, BitVec.ofNat_eq_ofNat, BitVec.getLsbD_one]
    rfl
  obtain ⟨t, ht⟩ : ∃ t, t = ((s.setR1000 (s.msr.r1000 ||| (s.free &&& 1))).tick).setParityRenewed (some []) := ⟨_, rfl⟩
  have hstep : envStep .cacheParityError s = .next t := by
    rw [envStep, onPartsWith1000_of_present h1000, eventCacheParityError, if_neg (by rw [h1]; decide), ht]
  have hother (i : Nat) (hi : i ≠ 0) : t.msr.r1000.getLsbD i = s.msr.r1000.getLsbD i := by
    rw [ht]
    exact (hbit i).trans (by rw [decide_eq_false hi, Bool.and_false, Bool.or_false])
  have hcfg : t.cfg = s.cfg := by rw [ht]; rfl
  have hcached (pa : Nat) : t.mayBeCached pa = s.mayBeCached pa :=
    mayBeCached_of_status hcfg (by rw [ht]; rfl) hother pa
  have hforce : t.forceExternalReads = s.forceExternalReads := by
    simp only [State.forceExternalReads, State.bit1000, hcfg, hother 17 (by decide)]
  refine ⟨t, hstep, ?_, hother, fun q hq => ?_, by rw [ht]; rfl, fun pa => ⟨fun hc hf => ?_, ?_⟩⟩
  · rw [ht]
    exact (hbit 0).trans (by rw [decide_eq_true rfl, Bool.and_true]; rfl)
  · rw [ht]
    exact MsrFile.get_set_other _ hq _
  · refine readByte_of_stale (isStale_of_parity ?_ ((hcached pa).trans hc) (hforce.trans hf))
    rw [ht]
    rfl
  · exact isStale_of_uncached (by rw [ht]; rfl) (hcached pa) hforce

/-! ### The frequency-shift events (R215) and the hidden Booleans -/

/-- Setting bit 28 changes no other bit. -/
theorem getLsbD_or_bit28 (v : Quad) (i : Nat) : (v ||| 0x10000000).getLsbD i = (v.getLsbD i || decide (28 = i)) := by
  rw [BitVec.getLsbD_or, show (0x10000000 : Quad) = BitVec.twoPow 64 28 from rfl, BitVec.getLsbD_twoPow]
  rfl

/-- Settles O56: each event asks for its enable, and then changes the pin's request or bit 28 of Register 1002h alone.
-/
theorem frequencyShiftHandshake : Obligations.FrequencyShiftHandshake := by
  intro s hcpu
  refine ⟨fun h29 => ?_, fun h29 => ?_, fun hhw h27 => ?_, fun hreq => ?_, ?_⟩
  · rw [envStep, eventDfsHardwareRequest, if_pos ⟨hcpu, h29⟩]
    rfl
  · rw [envStep, eventDfsHardwareRequest, if_neg fun h => Bool.false_ne_true (h29.symm.trans h.2)]
  · have hidle : dfsPending s.hwDfsRequest s.msr.r1002 = false := by rw [dfsPending, hhw, h27, Bool.or_self]
    rw [envStep, eventDfsReadyRaise, if_neg fun h => Bool.false_ne_true (hidle.symm.trans h.2)]
  · have hpending : dfsPending s.hwDfsRequest s.msr.r1002 = true := Bool.or_eq_true_iff.2 hreq
    have hstep : envStep .dfsReadyRaise s = .next (s.setR1002 (s.msr.r1002 ||| 0x10000000)) := by
      rw [envStep, eventDfsReadyRaise, if_pos ⟨hcpu, hpending⟩]
    refine ⟨_, hstep, ?_, fun i hi => ?_, fun q hq => MsrFile.get_set_other _ hq _, rfl⟩
    · exact (getLsbD_or_bit28 _ _).trans (by rw [decide_eq_true rfl, Bool.or_true])
    · exact (getLsbD_or_bit28 _ _).trans (by rw [decide_eq_false (Ne.symm hi), Bool.or_false])
  · rw [envStep, eventDfsRequestRemoved, if_pos hcpu]
    rfl

/-- Settles O59. -/
theorem resetLeavesTheHiddenBooleansFalse : Obligations.ResetLeavesTheHiddenBooleansFalse := ⟨rfl, rfl, rfl⟩

end Sys2Proof.Machine
end

section
/-! PROOF. Every step keeps the canonical form of memory and of the address sets (O49). -/

namespace Sys2Proof.Machine

open Sys2Proof.Claim

/-! ### Sorted lists below a bound -/

/-- A canonical set of addresses of `n` bits. -/
structure AddrSet (n : Nat) (l : List Nat) : Prop where
  wf : addrSetWf l = true
  lt : ∀ a ∈ l, a < 2 ^ n

/-- A canonical list of bytes at addresses of `n` bits. -/
structure CellList (n : Nat) (m : Memory) : Prop where
  wf : Memory.wf m = true
  lt : ∀ a b, (a, b) ∈ m → a < 2 ^ n

/-- What one access can make of a set of marks: it stays, or loses or gains the access's own address. -/
def Remarked (pa : Nat) (l l' : List Nat) : Prop := l' = l ∨ l' = addrErase pa l ∨ l' = addrInsert pa l

section
variable {n pa : Nat}

theorem AddrSet.nil : AddrSet n [] := ⟨rfl, nofun⟩

theorem CellList.nil : CellList n [] := ⟨rfl, nofun⟩

theorem AddrSet.insert {l : List Nat} (h : AddrSet n l) (hpa : pa < 2 ^ n) : AddrSet n (addrInsert pa l) :=
  ⟨addrInsert_wf h.wf pa, fun a ha => (mem_addrInsert.1 ha).elim (fun e => e ▸ hpa) (h.lt a)⟩

theorem AddrSet.erase {l : List Nat} (h : AddrSet n l) : AddrSet n (addrErase pa l) :=
  ⟨addrErase_wf h.wf pa, fun a ha => h.lt a (mem_addrErase.1 ha).1⟩

theorem AddrSet.insertAll {as l : List Nat} (h : AddrSet n l) (has : ∀ a ∈ as, a < 2 ^ n) :
    AddrSet n (addrInsertAll as l) :=
  ⟨addrInsertAll_wf as h.wf, fun a ha => (mem_addrInsertAll.1 ha).elim (has a) (h.lt a)⟩

theorem AddrSet.remarked {l l' : List Nat} (h : AddrSet n l) (hpa : pa < 2 ^ n) (hr : Remarked pa l l') :
    AddrSet n l' := by
  rcases hr with rfl | rfl | rfl
  · exact h
  · exact h.erase
  · exact h.insert hpa

theorem CellList.set {m : Memory} (h : CellList n m) (hpa : pa < 2 ^ n) (v : Byte) : CellList n (memSet m pa v) := by
  refine ⟨memSet_wf h.wf pa v, fun a b hab => ?_⟩
  rcases mem_memSet hab with e | hab
  · cases e
    exact hpa
  · exact h.lt a b hab

end

/-! ### The canonical form part by part -/

theorem physBits_eq_addressBits (p : Option PhysAddrBits) : physBits p = addressBits p := by
  rcases p with _ | _ | _ <;> rfl

/-- `Canonical` taken apart: each list with the bound of its own addresses. -/
structure CanonicalParts (s : State) : Prop where
  mem : CellList (addressBits s.cfg.physAddrBits) s.mem
  hidden : Memory.wf s.hidden = true
  staleBus : AddrSet (addressBits s.cfg.physAddrBits) s.staleBus
  staleRom : AddrSet (addressBits s.cfg.physAddrBits) s.staleRom
  parityRenewed : AddrSet (addressBits s.cfg.physAddrBits) (s.parityRenewed.getD [])
  fetched : AddrSet (addressBits s.cfg.physAddrBits) s.fetched
  written : AddrSet (addressBits s.cfg.physAddrBits) s.written

theorem canonical_iff_parts (s : State) : Canonical s ↔ CanonicalParts s := by
  constructor
  · rintro ⟨hmem, hhidden, hbus, hrom, hparity, hfetched, hwritten, hcells, hlt⟩
    simp only [List.mem_append, or_imp, forall_and] at hlt
    obtain ⟨⟨⟨⟨lbus, lrom⟩, lparity⟩, lfetched⟩, lwritten⟩ := hlt
    exact ⟨⟨hmem, hcells⟩, hhidden, ⟨hbus, lbus⟩, ⟨hrom, lrom⟩, ⟨hparity, lparity⟩,
      ⟨hfetched, lfetched⟩, ⟨hwritten, lwritten⟩⟩
  · rintro ⟨hmem, hhidden, hbus, hrom, hparity, hfetched, hwritten⟩
    refine ⟨hmem.wf, hhidden, hbus.wf, hrom.wf, hparity.wf, hfetched.wf, hwritten.wf, hmem.lt, ?_⟩
    simp only [List.mem_append, or_imp, forall_and]
    exact ⟨⟨⟨⟨hbus.lt, hrom.lt⟩, hparity.lt⟩, hfetched.lt⟩, hwritten.lt⟩

/-! ### Accesses -/

/-- A write of one byte, by the core or by a bus master, keeps the canonical form: the byte's address is one the path or
the bus gave, and every mark it sets or clears is at that address. -/
theorem CanonicalParts.write {s t : State} {pa : Nat} {v : Byte} (hs : CanonicalParts s)
    (hpa : pa < 2 ^ physBits s.cfg.physAddrBits)
    (ht : t = { s with
                  mem := t.mem, staleBus := t.staleBus, staleRom := t.staleRom, parityRenewed := t.parityRenewed
                  written := addrInsert pa s.written })
    (hmem : t.mem = s.mem ∨ t.mem = memSet s.mem pa v) (hbus : Remarked pa s.staleBus t.staleBus)
    (hrom : Remarked pa s.staleRom t.staleRom)
    (hparity : t.parityRenewed = s.parityRenewed ∨ t.parityRenewed = s.parityRenewed.map (addrInsert pa)) :
    CanonicalParts t := by
  rw [physBits_eq_addressBits] at hpa
  have hcells : CellList (addressBits s.cfg.physAddrBits) t.mem := by
    rcases hmem with e | e <;> rw [e]
    · exact hs.mem
    · exact hs.mem.set hpa v
  have hrenewed : AddrSet (addressBits s.cfg.physAddrBits) (t.parityRenewed.getD []) := by
    rcases hparity with e | e <;> rw [e]
    · exact hs.parityRenewed
    · have hold := hs.parityRenewed
      cases hp : s.parityRenewed with
      | none => exact AddrSet.nil
      | some l =>
        rw [hp] at hold
        exact hold.insert hpa
  rw [ht]
  exact ⟨hcells, hs.hidden, hs.staleBus.remarked hpa hbus, hs.staleRom.remarked hpa hrom, hrenewed, hs.fetched,
    hs.written.insert hpa⟩

theorem canonical_writeByte {s t : State} {lin : Word} {pa : Nat} {b : Byte} (hs : Canonical s)
    (hpa : physAddr s lin = .ok pa) (h : writeByte s pa b = .ok t) : Canonical t := by
  obtain ⟨-, ht, hmem, hbus, hrom, hparity⟩ := writeByte_ok h
  rw [canonical_iff_parts] at *
  exact hs.write (physAddr_lt hpa) ht hmem (hbus.imp_right .inl) (hrom.imp_right .inr) hparity

theorem canonical_writePlaceIf {s t : State} {w : OpSize} {p : Place} {v : Option Word} (hs : Canonical s)
    (h : writePlaceIf s w p v = .ok t) : Canonical t := by
  cases v with
  | none =>
    cases h
    exact hs
  | some v =>
    cases p with
    | reg r =>
      cases h
      exact hs
    | mem ea => exact writeBytes_keeps (fun _ _ _ _ _ => canonical_writeByte) hs h

/-- The addresses a fetch remembers are physical addresses (R96). -/
theorem canonical_fetch {s s' : State} {i : Instr} (hs : Canonical s) (h : fetchInstr s = .run i s') :
    Canonical s' := by
  obtain ⟨rest, -, -, rfl⟩ := fetchInstr_run h
  rw [canonical_iff_parts] at *
  have hlt := fun a (ha : a ∈ fetchedAddrs (fetchWindow maxInstrLength s s.pc.toNat).1 rest) =>
    physBits_eq_addressBits s.cfg.physAddrBits ▸ fetchedAddrs_lt ha
  exact { hs with fetched := hs.fetched.insertAll hlt }

/-! ### Instructions -/

/-- The parts of an XBTS that answers: the read of the second operand, XbtsFn, and the write of the second operand; the
first operand and the status flags follow (R162). -/
theorem xbtsEffect_parts {s t : State} {w : OpSize} {reg : Reg} {rm : RmOperand} (h : xbtsEffect w reg rm s = .ok t) :
    ∃ k mOld rNew mNew u, readPlace s w (rmPlace s rm) = .ok (mOld, s.ticks k) ∧
      xbtsFn s.cfg w (readReg s w reg) mOld (s.reg .eax) s.cl (s.ticks k).free = .ok (rNew, mNew) ∧
      writePlaceIf (s.ticks k).tick w (rmPlace s rm) mNew = .ok u ∧
      t = ((writeRegIf u w reg rNew).setStatusFlags (u.free.setWidth 32)).tick := by
  unfold xbtsEffect at h
  split at h
  · cases h
  · rename_i mOld s1 hread
    obtain ⟨k, rfl⟩ := readPlace_state hread
    split at h
    · cases h
    · rename_i rNew mNew hfn
      split at h
      · cases h
      · rename_i u hwrite
        cases h
        exact ⟨k, mOld, rNew, mNew, u, hread, hfn, hwrite, rfl⟩

/-- Of the instructions only XBTS writes memory, its second operand. -/
theorem canonical_exec {i : Instr} {s t : State} (hs : Canonical s) (h : exec i s = .next t) : Canonical t := by
  cases i with
  | xbts w a reg rm =>
    obtain ⟨-, x, hx, -, rfl⟩ := execXbts_next_iff.1 h
    obtain ⟨k, mOld, rNew, mNew, u, -, -, hwrite, rfl⟩ := xbtsEffect_parts hx
    have hu : Canonical u := canonical_writePlaceIf (s := (s.ticks k).tick) hs hwrite
    obtain ⟨g, hg, -⟩ := writeRegIf_eq u w reg rNew
    rw [hg]
    exact hu
  | cmpxchg f => cases h
  | rdmsr =>
    obtain ⟨m, -, -, rfl⟩ := execRdmsr_next_iff.1 h
    exact hs
  | wrmsr =>
    obtain ⟨m, v, -, -, -, rfl⟩ := execWrmsr_next_iff.1 h
    rw [storeMsr_eq]
    exact hs
  | movR32Imm32 r imm =>
    obtain ⟨-, rfl⟩ := advance_next_iff.1 h
    exact hs

/-! ### Events -/

/-- A flush empties the three sets of stale and spoilt bytes (R98). -/
theorem canonical_flushCache {s : State} (hs : Canonical s) : Canonical s.flushCache := by
  rw [canonical_iff_parts] at *
  exact { hs with staleBus := .nil, staleRom := .nil, parityRenewed := .nil }

theorem canonical_eventHardwareReset {s : State} (hs : Canonical s) : Canonical (eventHardwareReset s) := by
  rw [canonical_iff_parts] at *
  exact { hs with mem := .nil, hidden := rfl, staleBus := .nil, staleRom := .nil, parityRenewed := .nil }

theorem canonical_eventCacheParityError {s : State} (hs : Canonical s) : Canonical (eventCacheParityError s) := by
  unfold eventCacheParityError
  split
  · have hflushed := canonical_flushCache hs
    exact hflushed
  · rw [canonical_iff_parts] at *
    exact { hs with parityRenewed := .nil }

theorem canonical_eventBusWrite {s t : State} {a : Word} {v : Byte} (hs : Canonical s)
    (h : eventBusWrite a v s = .next t) : Canonical t := by
  obtain ⟨pa, hpa, -, ht, hmem, hbus, hrom, hparity⟩ := eventBusWrite_next h
  rw [canonical_iff_parts] at *
  exact hs.write (narrowPhys_lt hpa) ht hmem hbus (hrom.imp_right .inl) hparity

/-- An event of the parts with Register 1000h keeps the form where the event itself does. -/
theorem canonical_onPartsWith1000 {s u t : State} (hs : Canonical s) (hu : Canonical u)
    (h : onPartsWith1000 s (.next u) = .next t) : Canonical t := by
  rcases onPartsWith1000_next h with ⟨-, h⟩ | rfl
  · cases h
    exact hu
  · exact hs

theorem canonical_envStep {e : Event} {s t : State} (hs : Canonical s) (h : envStep e s = .next t) : Canonical t := by
  cases e with
  | hardwareReset =>
    cases h
    exact canonical_eventHardwareReset hs
  | cacheParityError => exact canonical_onPartsWith1000 hs (canonical_eventCacheParityError hs) h
  | cacheReload =>
    refine canonical_onPartsWith1000 hs ?_ h
    unfold eventCacheReload
    split <;> exact hs
  | dfsHardwareRequest =>
    cases h
    unfold eventDfsHardwareRequest
    split <;> exact hs
  | dfsReadyRaise =>
    cases h
    unfold eventDfsReadyRaise
    split <;> exact hs
  | dfsRequestRemoved =>
    cases h
    unfold eventDfsRequestRemoved
    split <;> exact hs
  | busWrite a v => exact canonical_eventBusWrite hs h
  | flushSnoopSignal =>
    refine canonical_onPartsWith1000 hs ?_ h
    unfold eventFlushSnoopSignal
    split
    · exact canonical_flushCache hs
    · exact hs
  | pwiPin =>
    rcases onPartsWith1000_next h with ⟨-, h⟩ | rfl
    · unfold eventPwiPin at h
      split at h <;> cases h
      exact hs
    · exact hs

/-- Settles O49: a core step fetches and executes, an environment step is its event; each of these keeps the form. -/
theorem stepKeepsTheCanonicalForm : Obligations.StepKeepsTheCanonicalForm := by
  intro s t hs h
  rcases step_cases h with ⟨rest, -, -, i, s', hf, hx⟩ | ⟨e, rest, -, he⟩
  · exact canonical_exec (canonical_fetch (s := s.setSchedule rest) hs hf) hx
  · exact canonical_envStep (s := s.setSchedule rest) hs he

end Sys2Proof.Machine
end

section
/-! PROOF. The address path, and the fetch and the XBTS operand it refuses (O15, O16, O21, O44, O46). -/

namespace Sys2Proof.Machine

open Sys2Proof.Claim

/-! ### Paging (R84, R86) -/

theorem physAddr_of_paging {s : State} (h : s.cr0.getLsbD 31 = true) (lin : Word) :
    physAddr s lin = .error .pagingNotModelled := by
  rw [physAddr, State.paging, if_pos h]

/-- A fetch whose first byte has no physical address is refused as the path refuses it. -/
theorem fetchInstr_of_error {s : State} {r : Refusal} (h : physAddr s s.pc = .error r) :
    fetchInstr s = .stop (.refuse r) := by
  have hwin : fetchWindow maxInstrLength s s.pc.toNat = ([], r) := by
    simp only [maxInstrLength, fetchWindow, s.pc.isLt, BitVec.ofNat_toNat, BitVec.setWidth_eq, h, if_true]
  simp only [fetchInstr, hwin, List.map_nil]
  rfl

/-- Settles O15. -/
theorem pagingRefusesTheFetch : Obligations.PagingRefusesTheFetch := by
  intro s rest hturn hnmi hpg
  have hpath : physAddr (s.setSchedule rest) (s.setSchedule rest).pc = .error .pagingNotModelled :=
    physAddr_of_paging (s := s.setSchedule rest) hpg _
  exact step_of_fetch_stop hturn hnmi (fetchInstr_of_error hpath)

/-- A memory operand whose first byte has no physical address is refused as the path refuses it. -/
theorem readPlace_of_error {s : State} {ea : Word} {r : Refusal} (h : physAddr s ea = .error r) (w : OpSize) :
    readPlace s w (.mem ea) = .error r := by
  cases w <;> simp only [readPlace, memRead, opBytes, readBytes, h]

/-- On the 80386 A step XBTS is refused as the read of its second operand is (R162). -/
theorem exec_xbts_of_readPlace_error {s : State} {w : OpSize} {rm : RmOperand} {r : Refusal}
    (hcpu : s.cfg.cpu = .i386A) (h : readPlace s w (rmPlace s rm) = .error r) (a : OpSize) (reg : Reg) :
    exec (.xbts w a reg rm) s = .refused r := by
  simp only [exec, execXbts, hcpu, xbtsEffect, h]

/-- Settles O21. -/
theorem xbtsMemoryOperandWithPagingIsRefused : Obligations.XbtsMemoryOperandWithPagingIsRefused := by
  intro s w a reg rm ea hcpu hplace hpg
  refine exec_xbts_of_readPlace_error hcpu ?_ a reg
  rw [hplace]
  exact readPlace_of_error (physAddr_of_paging hpg ea) w

/-! ### Code written in the run (R96) -/

/-- Settles O16: the instruction's bytes are found at pc, and one of their addresses is on record as written. -/
theorem fetchOfWrittenCodeRefuses : Obligations.FetchOfWrittenCodeRefuses := by
  intro s rest bs pas i bad hturn hnmi hd hlen hend hbytes hbad hwritten
  have hstands : StandsAtPc s bs pas := ⟨hlen, hbytes⟩
  have hany : anyWritten (s.setSchedule rest) pas = true :=
    List.any_eq_true.2 ⟨bad, hbad, decide_eq_true hwritten⟩
  refine step_of_fetch_stop hturn hnmi (st := .refuse .codeModified) ?_
  rw [fetchInstr_of_standsAtPc (hstands.setSchedule rest) hd hend, if_pos hany]

/-! ### Address line 20 (R82, R84, R85) -/

/-- The number of an address with bit 20 cleared. -/
theorem toNat_clearBit20_eq_sub (lin : Word) :
    (clearBit20 lin).toNat = lin.toNat - if lin.toNat / 2 ^ 20 % 2 = 1 then 2 ^ 20 else 0 := by
  have h20 := toNat_clearBit20 lin
  rw [getLsbD_20_eq, if_congr decide_eq_true_iff rfl rfl] at h20
  omega

/-- Settles O44: the address goes the path with bit 20 cleared or as it is, and is then narrowed. -/
theorem addressPath : Obligations.AddressPath := by
  intro s lin
  refine ⟨fun hpg => physAddr_of_paging hpg lin, fun m p hm hp hpg hcell => ?_⟩
  split
  · rename_i hmasked
    rw [physAddr_of_masked hpg (hmasked.imp_right fun (e : m = true) => e ▸ hm)]
    exact (narrowPhys_of_toNat (toNat_clearBit20_eq_sub lin)).2 p hp
  · rename_i hunmasked
    obtain ⟨hint, hoff⟩ := not_or.1 hunmasked
    rw [Bool.not_eq_true] at hoff
    subst hoff
    rw [physAddr_of_unmasked hpg (not_or.2 ⟨hint, by rw [hm]; decide⟩) (fun h => hcell h.1) hm]
    exact (narrowPhys_of_toNat rfl).2 p hp

/-- In an odd megabyte, clearing bit 20 goes one megabyte down. -/
theorem sub_eq_clearBit20 {lin : Word} (h : HasBit20 lin) : lin - 0x100000 = clearBit20 lin := by
  unfold HasBit20 at h
  have hge : (0x100000 : Word) ≤ lin := BitVec.le_def.2 (show 2 ^ 20 ≤ lin.toNat by omega)
  refine BitVec.eq_of_toNat_eq ?_
  rw [toNat_clearBit20_eq_sub, if_pos h, BitVec.toNat_sub_of_le hge]
  rfl

/-- Settles O46: the lower address has bit 20 clear, so it goes the path as the masked one does. -/
theorem maskedA20WrapsAtOneMegabyte : Obligations.MaskedA20WrapsAtOneMegabyte := by
  intro s lin pa hmasked hodd h
  obtain ⟨hpg, -, -, hnarrow⟩ := physAddr_ok_iff.1 h
  rw [if_pos hmasked] at hnarrow
  have hlow : ¬ HasBit20 (clearBit20 lin) := by
    rw [HasBit20, toNat_clearBit20_eq_sub, if_pos hodd]
    omega
  rw [sub_eq_clearBit20 hodd, physAddr_of_bit20_clear hpg hlow, hnarrow]

end Sys2Proof.Machine
end

section
/-! PROOF. A bus master's write and the core's next read of the byte (O52). -/

namespace Sys2Proof.Machine

open Sys2Proof.Claim

/-! ### The place of a BusWrite (R82, R216) -/

theorem narrowPhys_of_busPlace {s : State} {a : Word} {pa : Nat} (h : BusPlace s a pa) :
    narrowPhys s.cfg a = .ok pa := by
  obtain ⟨hopen, hnamed⟩ := narrowPhys_of_toNat (c := s.cfg) (a := a) rfl
  unfold BusPlace at h
  split at h
  · rename_i hp
    rw [hnamed _ hp, h]
    rfl
  · rename_i hp
    rw [hnamed _ hp, h]
    exact congrArg Except.ok (Nat.mod_eq_of_lt a.isLt)
  · rename_i hp
    rw [(hopen hp).1 h.2, h.1]

/-! ### What it leaves stale (R91, R92) -/

section
variable {s : State} {pa : Nat}

/-- Snooping takes the byte's copy out of the cache: none of its marks stays. -/
theorem isStale_busWriteStale_of_snoop (h : s.bit1000 3 = true) : (busWriteStale pa s).isStale pa = false := by
  rw [busWriteStale, if_pos h]
  refine isStale_eq_false_of_unmarked (by simp [State.renewCopy]) (by simp [State.renewCopy]) ?_
  rw [parityMayHit_renew (s := s) rfl]
  simp

theorem isStale_busWriteStale_of_forced (h : s.forceExternalReads = true) :
    (busWriteStale pa s).isStale pa = false := by
  obtain ⟨hu, -⟩ := busWriteStale_ok pa s
  have hforce : (busWriteStale pa s).forceExternalReads = true := by
    rw [forceExternalReads_congr (s := s) (by rw [hu]) (by rw [hu]), h]
  rw [State.isStale, hforce]
  rfl

/-- A byte that cannot be cached gets no mark, so an earlier one alone can make it stale. -/
theorem isStale_busWriteStale_of_uncached (hcached : s.mayBeCached pa = false) (hbus : pa ∉ s.staleBus) :
    (busWriteStale pa s).isStale pa = false := by
  cases hsnoop : s.bit1000 3 with
  | true => exact isStale_busWriteStale_of_snoop hsnoop
  | false =>
    have hsame : busWriteStale pa s = s := by simp [busWriteStale, hsnoop, hcached]
    rw [hsame]
    exact isStale_eq_false_of_uncached hbus (.inl hcached)

/-- Without snooping the cached copy is stale. -/
theorem isStale_busWriteStale_of_cached (hsnoop : s.bit1000 3 = false) (hforce : s.forceExternalReads = false)
    (hcached : s.mayBeCached pa = true) : (busWriteStale pa s).isStale pa = true := by
  have hmarked : busWriteStale pa s = s.setStaleBus (addrInsert pa s.staleBus) := by
    simp [busWriteStale, hsnoop, hforce, hcached]
  have hf : (s.setStaleBus (addrInsert pa s.staleBus)).forceExternalReads = false := hforce
  rw [hmarked, State.isStale, hf]
  simp [mem_addrInsert]

end

/-! ### The write -/

/-- BusWrite is the write at the address narrowed to PHYS_ADDR_BITS (log entry 21). -/
theorem envStep_busWrite_of_busPlace {s : State} {a : Word} {pa : Nat} (h : BusPlace s a pa) (v : Byte) :
    envStep (.busWrite a v) s = busWriteAt pa v s := by
  rw [envStep, eventBusWrite, narrowPhys_of_busPlace h]

/-- What a BusWrite that completes makes of its byte: RAM holds the written value, ROM keeps its own (R252), and its
staleness is what `busWriteStale` leaves. -/
theorem busWriteAt_of_not_fetched {s : State} {pa : Nat} (h : pa ∉ s.fetched) (v : Byte) :
    ∃ t, busWriteAt pa v s = .next t ∧ (s.platformRomAt pa = false → t.memByte pa = v) ∧
      (s.platformRomAt pa = true → t.memByte pa = s.memByte pa) ∧
      t.isStale pa = (busWriteStale pa s).isStale pa := by
  obtain ⟨hu, -⟩ := busWriteStale_ok pa s
  refine ⟨_, if_neg h, ?_⟩
  generalize busWriteStale pa s = u at *
  have hplatform : u.platformRomAt pa = s.platformRomAt pa := by rw [hu]; rfl
  have hmem : u.memByte pa = s.memByte pa := memByte_congr (by rw [hu]) (by rw [hu]) pa
  cases hrom : s.platformRomAt pa with
  | true =>
    rw [busStore, hplatform, hrom]
    exact ⟨nofun, fun _ => hmem, isStale_congr (s := u) rfl rfl rfl rfl rfl pa⟩
  | false =>
    rw [busStore, hplatform, hrom]
    exact ⟨fun _ => memByte_setMemByte_same u pa v, nofun, isStale_congr (s := u) rfl rfl rfl rfl rfl pa⟩

/-- A BusWrite leaves every other byte alone. -/
theorem eventBusWrite_other {s t : State} {a : Word} {v : Byte} {pa x : Nat} (hpa : narrowPhys s.cfg a = .ok pa)
    (h : eventBusWrite a v s = .next t) (hx : x ≠ pa) : SameByte s t x := by
  obtain ⟨pa', hpa', -, ht, hmem, hbus, hrom, hparity⟩ := eventBusWrite_next h
  obtain rfl : pa = pa' := Except.ok.inj (hpa.symm.trans hpa')
  refine ⟨?_, ?_, ?_, ?_, ?_⟩
  · have hlaunch : t.launch = s.launch := by rw [ht]
    rcases hmem with e | e
    · exact memByte_congr e hlaunch x
    · exact (memByte_congr (s := s.setMemByte pa v) e hlaunch x).trans (memByte_setMemByte_other s hx v)
  · rcases hbus with e | e | e <;> simp [e, mem_addrInsert, hx]
  · rcases hrom with e | e <;> simp [e, hx]
  · rcases hparity with e | e
    · exact parityMayHit_congr e x
    · simp [parityMayHit_renew e, hx]
  · rw [ht]
    simp [mem_addrInsert, hx]

/-- Settles O52: what the next read of the byte gives is decided by the marks the write leaves it. -/
theorem busWriteAndTheNextRead : Obligations.BusWriteAndTheNextRead := by
  intro s a v
  refine ⟨fun hopen hge => ?_, fun pa hplace => ⟨fun hf => ?_, fun hf => ?_⟩⟩
  · rw [envStep, eventBusWrite, ((narrowPhys_of_toNat rfl).1 hopen).2 hge]
  · rw [envStep_busWrite_of_busPlace hplace, busWriteAt, if_pos hf]
  · obtain ⟨t, hnext, hram, hrom, hstale⟩ := busWriteAt_of_not_fetched hf v
    have hstep : envStep (.busWrite a v) s = .next t := (envStep_busWrite_of_busPlace hplace v).trans hnext
    have hnarrow := narrowPhys_of_busPlace hplace
    obtain ⟨pa', hpa', -, ht, -⟩ := eventBusWrite_next hstep
    obtain rfl : pa = pa' := Except.ok.inj (hnarrow.symm.trans hpa')
    have hother (x : Nat) (hx : x ≠ pa) : ByteSame s t x := by
      have hx := eventBusWrite_other hnarrow hstep hx
      exact ⟨hx.mem, hx.written, hx.bus, hx.rom, hx.parity,
        isStale_of_marks (by rw [ht]) (by rw [ht]) hx.bus hx.rom hx.parity⟩
    refine ⟨t, hstep, hram, hrom, fun x => ?_, hother, fun h => readByte_fresh (hstale.trans ?_),
      fun hcached hbus => readByte_fresh (hstale.trans (isStale_busWriteStale_of_uncached hcached hbus)),
      fun hsnoop hforce hcached =>
        readByte_of_stale (hstale.trans (isStale_busWriteStale_of_cached hsnoop hforce hcached)), ?_⟩
    · rw [ht]
      exact mem_addrInsert
    · exact h.elim isStale_busWriteStale_of_snoop isStale_busWriteStale_of_forced
    · rw [ht]
      exact ⟨rfl, rfl, rfl, ⟨rfl, rfl⟩, rfl, rfl, rfl, rfl, rfl, rfl, rfl, rfl, rfl⟩

end Sys2Proof.Machine
end

section
/-! PROOF. XBTS under XbtsGK: what an operand that can be read gives, and the memory form (O18). -/

namespace Sys2Proof.Machine

open Sys2Proof.Claim

/-! ### The words of the statements -/

theorem width_eq_opBits (w : OpSize) : width w = opBits w := by cases w <;> rfl

/-- The offset of the statements is the one XbtsGK takes from AX or EAX (R166). -/
theorem toNat_narrow_eax (s : State) (w : OpSize) : (narrow w (s.reg .eax)).toNat = bitOffset w s := by
  cases w with
  | w16 => exact toNat_narrow .w16 _
  | w32 => rfl

theorem getLsbD_statusFlagMask (i : Nat) : statusFlagMask.getLsbD i = isStatusFlag i := by
  by_cases hi : i < 32
  · exact (by decide : ∀ j < 32, statusFlagMask.getLsbD j = isStatusFlag j) i hi
  · rw [BitVec.getLsbD_of_ge _ _ (Nat.le_of_not_lt hi)]
    simp [isStatusFlag]
    omega

/-! ### XbtsGK -/

/-- A bit above the string is a draw's under XBTS_HIGH_FILL = draw (R166). -/
theorem getLsbD_xbtsGK_draw (d : Quad) (m : Word) (off : Nat) {len i : Nat} (hlen : len ≤ i) (hi : i < 32) :
    (xbtsHigh .draw len d ||| (m >>> off &&& lowMask len)).getLsbD i = d.getLsbD (i - len) := by
  rw [BitVec.getLsbD_or, BitVec.getLsbD_and, getLsbD_lowMask _ _ (by omega), decide_eq_false (Nat.not_lt.2 hlen),
    Bool.and_false, Bool.or_false, xbtsHigh, BitVec.getLsbD_shiftLeft, BitVec.getLsbD_setWidth, decide_eq_true hi,
    decide_eq_false (Nat.not_lt.2 hlen), decide_eq_true (show i - len < 32 by omega)]
  simp

/-- What XBTS under XbtsGK makes of `s`, `operand` being the value read from the second operand (R162, R166): the string
in the low bits of the destination, the fill above it, the rest of the destination kept, the six status flags free, and
everything else as it was. -/
structure GkResult (s t : State) (w : OpSize) (reg : Reg) (operand : Word) : Prop where
  field : ∀ i, i < bitCount s → (t.reg reg).getLsbD i = operand.getLsbD (bitOffset w s + i)
  zeroFill : s.cfg.xbtsHighFill = .zero → ∀ i, bitCount s ≤ i → i < width w → (t.reg reg).getLsbD i = false
  drawFill : s.cfg.xbtsHighFill = .draw → ∃ n, s.draws ≤ n ∧ n < t.draws ∧
    ∀ i, bitCount s ≤ i → i < width w → (t.reg reg).getLsbD i = (Config.freeWord n).getLsbD (i - bitCount s)
  above : ∀ i, width w ≤ i → (t.reg reg).getLsbD i = (s.reg reg).getLsbD i
  regs : OtherRegsSame [reg] s t
  flags : OtherFlagsSame s t
  mem : t.mem = s.mem
  memory : MemorySame s t
  msrs : MsrsSame s t
  system : SystemSame s t
  marks : MarksSame s t

/-- A bit of a register after a W-bit write (R12). -/
theorem getLsbD_reg_writeReg (s : State) (w : OpSize) (r : Reg) (v : Word) (i : Nat) :
    ((writeReg s w r v).reg r).getLsbD i = if i < width w then v.getLsbD i else (s.reg r).getLsbD i := by
  rw [writeReg, State.reg_setReg_same, getLsbD_mergeReg, width_eq_opBits]

/-- XBTS under XbtsGK completes where the second operand can be read, the string lies in it and pc fits. -/
theorem exec_xbts_gk {s s1 : State} {w a : OpSize} {reg : Reg} {rm : RmOperand} {operand : Word} (hgk : RunsGK s)
    (hread : readPlace s w (rmPlace s rm) = .ok (operand, s1)) (hstring : bitOffset w s + bitCount s ≤ width w)
    (hfit : FitsPc s (instrLength s.cfg (.xbts w a reg rm))) :
    ∃ t, Next (exec (.xbts w a reg rm) s) t ∧ GkResult s t w reg operand ∧
      t.pc.toNat = s.pc.toNat + instrLength s.cfg (.xbts w a reg rm) := by
  obtain ⟨k, rfl⟩ := readPlace_state hread
  have hcount : s.cl.toNat = bitCount s := toNat_cl s
  have hw : width w ≤ 32 := width_eq_opBits w ▸ opBits_le w
  have hlen : bitCount s ≤ 32 := by omega
  have heffect := xbtsEffect_gk_ok (reg := reg) hgk.2 hread (by rwa [toNat_narrow_eax, hcount, ← width_eq_opBits])
  rw [toNat_narrow_eax, hcount] at heffect
  have hp : pcWraps s (instrLength s.cfg (.xbts w a reg rm)) = false := pcWraps_eq_false_iff.2 hfit
  obtain ⟨v, hv⟩ : ∃ v, v = xbtsHigh s.cfg.xbtsHighFill (bitCount s) (s.ticks k).free |||
    (operand >>> bitOffset w s &&& lowMask (bitCount s)) := ⟨_, rfl⟩
  rw [← hv] at heffect
  have hbelow (i : Nat) (hi : i < width w) : ((writeReg s w reg v).reg reg).getLsbD i = v.getLsbD i := by
    rw [getLsbD_reg_writeReg, if_pos hi]
  refine ⟨_, execXbts_next_iff.2 ⟨hgk.1, _, heffect, hp, rfl⟩, ?_, toNat_advance_pc hp⟩
  exact
    { field := fun i hi => by
        rw [← getLsbD_xbtsGK_field s.cfg.xbtsHighFill (s.ticks k).free operand (bitOffset w s) _ i hlen hi, ← hv]
        exact hbelow i (by omega)
      zeroFill := fun hfill i hge hi => by
        rw [hfill] at hv
        exact (hbelow i hi).trans (hv ▸ getLsbD_xbtsGK_zero _ _ _ _ _ hlen hge)
      drawFill := fun hfill => by
        refine ⟨s.draws + k, Nat.le_add_right _ _, Nat.lt_add_of_pos_right Nat.two_pos, fun i hge hi => ?_⟩
        rw [hfill] at hv
        exact (hbelow i hi).trans (hv ▸ getLsbD_xbtsGK_draw _ _ _ hge (by omega))
      above := fun i hi => (getLsbD_reg_writeReg s w reg v i).trans (if_neg (Nat.not_lt.2 hi))
      regs := fun r hr => State.reg_setReg_other s (mt List.mem_singleton.2 hr) _
      flags := fun i hi => by
        refine (getLsbD_withStatusFlags _ _ i).trans ?_
        rw [getLsbD_statusFlagMask, hi]
        rfl
      mem := rfl
      memory := fun _ => rfl
      msrs := ⟨rfl, rfl⟩
      system := ⟨rfl, rfl, rfl, rfl, rfl, rfl, rfl, rfl, rfl⟩
      marks := ⟨rfl, rfl, rfl, rfl⟩ }

/-- Settles O18: a readable operand is read, and each bit of the string is a bit of the byte it lies in. -/
theorem xbtsMemoryFormExtractsTheField : Obligations.XbtsMemoryFormExtractsTheField := by
  intro s w a reg rm ea hgk hplace hreadable hstring hfit
  have hbytes : opBytes w = width w / 8 := by cases w <;> rfl
  obtain ⟨operand, s1, hread⟩ : ∃ v s1, readPlace s w (rmPlace s rm) = .ok (v, s1) := by
    refine readPlace_isOk fun ea' h k hk => ?_
    obtain rfl : ea = ea' := Place.mem.inj (hplace.symm.trans h)
    exact hreadable k (hbytes ▸ hk)
  obtain ⟨t, hnext, hgkr, hpc⟩ := exec_xbts_gk hgk hread hstring hfit
  refine ⟨t, hnext, fun pa hpa i hi => ?_, hgkr.zeroFill, hgkr.drawFill, hgkr.above, hgkr.regs, hgkr.flags, hgkr.mem,
    hgkr.memory, hgkr.msrs, hgkr.system, hgkr.marks, hpc⟩
  rw [hplace] at hread
  rw [hgkr.field i hi]
  exact readPlace_mem_bit hread (fun k hk => hpa k (hbytes ▸ hk)) (by rw [← width_eq_opBits]; omega)

end Sys2Proof.Machine
end

section
/-! PROOF. What the decoder answers, opcode by opcode; decode of encode, and the length and well-formedness of what
decodes (O1, O2, O3). -/

namespace Sys2Proof

open Sys2Proof.Claim

/-! ### The decoder, byte by byte (R126) -/

section
variable (c : Config) (o a : Bool) (rest : List Byte)

theorem decodeFrom_forbidden {p : Byte} (h : p ∈ forbiddenPrefixes) :
    decodeFrom c o a (p :: rest) = .stop .prefixNotAdmitted := by
  have h66 : p ≠ 0x66 := fun e => absurd (e ▸ h) (by decide)
  have h67 : p ≠ 0x67 := fun e => absurd (e ▸ h) (by decide)
  simp only [decodeFrom, h66, h67, h, if_true, if_false]

theorem decodeFrom_66 :
    decodeFrom c o a (0x66 :: rest) = if o then .stop .prefixNotAdmitted else decodeFrom c true a rest := rfl

theorem decodeFrom_67 :
    decodeFrom c o a (0x67 :: rest) = if a then .stop .prefixNotAdmitted else decodeFrom c o true rest := rfl

theorem decodeFrom_opcode {b : Byte} (h66 : b ≠ 0x66) (h67 : b ≠ 0x67) (h : b ∉ forbiddenPrefixes) :
    decodeFrom c o a (b :: rest) = decodeOpcode c o a (b :: rest) := by
  simp only [decodeFrom, h66, h67, h, if_false]

theorem decodeFrom_0F : decodeFrom c o a (0x0F :: rest) = decodeTwoByte c o a rest := rfl

/-- The opcodes of the helper (R190). -/
theorem isMovOpcode_iff : ∀ b : Byte, b &&& 0xF8 = 0xB8 ↔ 0xB8 ≤ b.toNat ∧ b.toNat ≤ 0xBF := by decide

/-- The helper's opcode has the register in its low field (R190). -/
theorem decodeFrom_mov {b : Byte} (hb : b &&& 0xF8 = 0xB8) :
    decodeFrom c o a (b :: rest) = decodeMov c o a (Reg.ofBits (lowField b)) rest := by
  have hne {x : Byte} (hx : x &&& 0xF8 ≠ 0xB8) : b ≠ x := fun e => hx (e ▸ hb)
  have hadmitted : b ∉ forbiddenPrefixes := fun h =>
    (by decide : ∀ x ∈ forbiddenPrefixes, x &&& 0xF8 ≠ 0xB8) b h hb
  rw [decodeFrom_opcode c o a rest (hne (by decide)) (hne (by decide)) hadmitted]
  simp only [decodeOpcode, takeByte_cons, if_neg (hne (x := 0x0F) (by decide)), if_pos hb]

theorem decode0FA6_i386A {c : Config} (h : c.cpu = .i386A) : decode0FA6 c o a rest = decodeXbts c o a rest := by
  rw [decode0FA6, h]

theorem decode0FA6_i486A {c : Config} (h : c.cpu = .i486A) : decode0FA6 c o a rest = decodeCmpxchg c o a rest := by
  rw [decode0FA6, h]

theorem decode0FA6_of_lacks {c : Config} (h : c.cpu ∈ lacks0FA6) : decode0FA6 c o a rest = .invalidOpcode rest := by
  unfold decode0FA6
  cases hcpu : c.cpu with
  | i386A | i486A =>
    rw [hcpu] at h
    exact absurd h (by decide)
  | am5x86 | ibm386SLC | ibm486SLC | ibm486SLC2 | ibm486BL3 | i486B | other => rfl

/-- MemOperandNotAdmitted is for a memory form where such operands are not admitted (R126). -/
theorem decodeXbts_cons (modrm : Byte) :
    decodeXbts c o a (modrm :: rest) =
      if ModField.ofBits (topField modrm) = .m11 ∨ c.admitMemOperands = true then
        decodeRmFormat c o a .xbts (modrm :: rest)
      else .stop .memOperandNotAdmitted := by
  by_cases hm : ModField.ofBits (topField modrm) = .m11 <;> cases hadm : c.admitMemOperands <;>
    simp [decodeXbts, isMemoryModRm, hm, hadm]

/-- Format RM gives an instruction exactly where the ModRM byte and the second operand can be read. -/
theorem decodeRmFormat_ok_iff {mk : OpSize → OpSize → Reg → RmOperand → Instr} {bs : List Byte} {i : Instr} :
    decodeRmFormat c o a mk bs = .ok i rest ↔ ∃ modrm bs' rm, bs = modrm :: bs' ∧
      decodeRm (sizeWith c a) (ModField.ofBits (topField modrm)) (lowField modrm) bs' = some (rm, rest) ∧
      i = mk (sizeWith c o) (sizeWith c a) (Reg.ofBits (midField modrm)) rm := by
  cases bs with
  | nil => simp [decodeRmFormat, takeByte]
  | cons modrm bs' =>
    simp only [decodeRmFormat, takeByte_cons]
    cases hrm : decodeRm (sizeWith c a) (ModField.ofBits (topField modrm)) (lowField modrm) bs' with
    | none => simp [hrm]
    | some p =>
      obtain ⟨rm, rest'⟩ := p
      simp [hrm, and_comm, eq_comm]

end

/-! ### The forms that have an encoding (R118, R119) -/

theorem wellFormed_based16_iff {b : Base16} {d : Disp16} :
    (Mem16.based b d).wellFormed = true ↔ ¬ (d.mod = .m00 ∧ b.bits = 6) := by
  cases b <;> cases d <;> simp [Mem16.wellFormed, Disp16.mod, Base16.bits]

theorem wellFormed_based32_iff {r : Reg} {d : Disp32} :
    (Mem32.based r d).wellFormed = true ↔ r.bits ≠ 4 ∧ ¬ (d.mod = .m00 ∧ r.bits = 5) := by
  cases r <;> cases d <;> simp [Mem32.wellFormed, Disp32.mod, Reg.bits]

theorem wellFormed_sib_iff {s : Scale} {i : Option Reg} {r : Reg} {d : Disp32} :
    (Mem32.sib s i r d).wellFormed = true ↔ indexWellFormed i = true ∧ ¬ (d.mod = .m00 ∧ r.bits = 5) := by
  cases r <;> cases d <;> simp [Mem32.wellFormed, Disp32.mod, Reg.bits]

theorem mod_mem16_ne (m : Mem16) : (RmOperand.mem16 m).mod ≠ .m11 := by
  rcases m with ⟨b, _ | _ | _⟩ | d <;> simp [RmOperand.mod, Disp16.mod]

theorem mod_mem32_ne (m : Mem32) : (RmOperand.mem32 m).mod ≠ .m11 := by
  rcases m with ⟨r, _ | _ | _⟩ | d | ⟨s, i, r, _ | _ | _⟩ | ⟨s, i, d⟩ <;> simp [RmOperand.mod, Disp32.mod]

/-! ### Decode of encode -/

theorem takeDisp16_bytes (d : Disp16) (rest : List Byte) : takeDisp16 d.mod (d.bytes ++ rest) = some (d, rest) := by
  cases d with
  | absent | d8 d => rfl
  | d16 d => simp [takeDisp16, Disp16.mod, Disp16.bytes]

theorem takeDisp32_bytes (d : Disp32) (rest : List Byte) : takeDisp32 d.mod (d.bytes ++ rest) = some (d, rest) := by
  cases d with
  | absent | d8 d => rfl
  | d32 d => simp [takeDisp32, Disp32.mod, Disp32.bytes]

theorem decodeMem16_tail {m : Mem16} (h : m.wellFormed = true) (rest : List Byte) :
    decodeMem16 (RmOperand.mem16 m).mod (RmOperand.mem16 m).rmBits ((RmOperand.mem16 m).tail ++ rest) =
      some (m, rest) := by
  cases m with
  | based b d =>
    change decodeMem16 d.mod b.bits (d.bytes ++ rest) = _
    rw [decodeMem16, if_neg (wellFormed_based16_iff.1 h)]
    simp [takeDisp16_bytes]
  | direct d => simp [decodeMem16, RmOperand.mod, RmOperand.rmBits, RmOperand.tail]

theorem decodeMem32_tail {m : Mem32} (h : m.wellFormed = true) (rest : List Byte) :
    decodeMem32 (RmOperand.mem32 m).mod (RmOperand.mem32 m).rmBits ((RmOperand.mem32 m).tail ++ rest) =
      some (m, rest) := by
  cases m with
  | based r d =>
    obtain ⟨hsib, hdirect⟩ := wellFormed_based32_iff.1 h
    change decodeMem32 d.mod r.bits (d.bytes ++ rest) = _
    rw [decodeMem32, if_neg hsib, if_neg hdirect]
    simp [takeDisp32_bytes]
  | direct d => simp [decodeMem32, RmOperand.mod, RmOperand.rmBits, RmOperand.tail]
  | sib s i b d =>
    obtain ⟨hi, hbase⟩ := wellFormed_sib_iff.1 h
    change decodeMem32 d.mod 4 (fieldsByte s.bits (indexBits i) b.bits :: (d.bytes ++ rest)) = _
    simp only [decodeMem32, decodeSib, takeByte_cons, lowField_fieldsByte, if_true, if_neg hbase]
    simp [takeDisp32_bytes, indexOfBits_bits hi]
  | sibNoBase s i d =>
    have hi : indexWellFormed i = true := h
    simp [decodeMem32, decodeSib, RmOperand.mod, RmOperand.rmBits, RmOperand.tail, indexOfBits_bits hi]

theorem decodeRm_tail {a : OpSize} {rm : RmOperand} (h : rm.wellFormed a = true) (rest : List Byte) :
    decodeRm a rm.mod rm.rmBits (rm.tail ++ rest) = some (rm, rest) := by
  cases rm with
  | reg r => simp [decodeRm, RmOperand.mod, RmOperand.rmBits, RmOperand.tail]
  | mem16 m =>
    cases a with
    | w16 =>
      rw [decodeRm, if_neg (mod_mem16_ne m)]
      simp only [decodeMem16_tail h, Option.map_some]
    | w32 => cases h
  | mem32 m =>
    cases a with
    | w16 => cases h
    | w32 =>
      rw [decodeRm, if_neg (mod_mem32_ne m)]
      simp only [decodeMem32_tail h, Option.map_some]

/-- Format RM, read back behind the prefixes and the two opcode bytes. -/
theorem decodeRmFormat_encode (c : Config) {w a : OpSize} (reg : Reg) {rm : RmOperand} (h : rm.wellFormed a = true)
    (mk : OpSize → OpSize → Reg → RmOperand → Instr) (rest : List Byte) :
    decodeRmFormat c (w != c.defaultSize) (a != c.defaultSize) mk
      (fieldsByte rm.mod.bits reg.bits rm.rmBits :: (rm.tail ++ rest)) = .ok (mk w a reg rm) rest :=
  (decodeRmFormat_ok_iff ..).2 ⟨_, _, rm, rfl, by simp [sizeWith_ne, decodeRm_tail h], by simp [sizeWith_ne]⟩

/-- The prefixes and the opcode bytes 0Fh A6h lead to format RM. -/
theorem decode_encodeRmFormat (c : Config) (w a : OpSize) (reg : Reg) (rm : RmOperand) (rest : List Byte) :
    decode c (encodeRmFormat c w a reg rm ++ rest) = decode0FA6 c (w != c.defaultSize) (a != c.defaultSize)
      (fieldsByte rm.mod.bits reg.bits rm.rmBits :: (rm.tail ++ rest)) := by
  rw [encodeRmFormat, List.append_assoc]
  exact decode_sizePrefixes c w a _

/-- XBTS is there on the A step alone, with a memory operand only where ADMIT_MEM_OPERANDS allows it. -/
theorem availableOn_xbts_iff {c : Config} {w a : OpSize} {reg : Reg} {rm : RmOperand} :
    (Instr.xbts w a reg rm).availableOn c = true ↔
      c.cpu = .i386A ∧ (rm.mod = .m11 ∨ c.admitMemOperands = true) := by
  cases rm with
  | reg r => simp [Instr.availableOn, RmOperand.mod]
  | mem16 m => simp [Instr.availableOn, mod_mem16_ne]
  | mem32 m => simp [Instr.availableOn, mod_mem32_ne]

/-- Settles O1: each opcode's reader finds the fields the encoder wrote. -/
theorem decodeOfEncodeIsTheInstruction : Obligations.DecodeOfEncodeIsTheInstruction := by
  intro c i rest hwf hav
  cases i with
  | xbts w a reg rm =>
    obtain ⟨hcpu, hadmit⟩ := availableOn_xbts_iff.1 hav
    rw [encode, decode_encodeRmFormat, decode0FA6_i386A _ _ _ hcpu, decodeXbts_cons]
    exact (if_pos (by simpa using hadmit)).trans (decodeRmFormat_encode c reg hwf _ rest)
  | cmpxchg f =>
    have hcpu : c.cpu = .i486A := by simpa [Instr.availableOn] using hav
    rw [encode, decode_encodeRmFormat, decode0FA6_i486A _ _ _ hcpu]
    exact decodeRmFormat_encode c f.reg hwf _ rest
  | rdmsr | wrmsr =>
    have hmsrs : c.cpu.hasMsrs = true := hav
    change decodeMsrOp c false false _ rest = _
    simp [decodeMsrOp, hmsrs]
  | movR32Imm32 r imm =>
    have hsize : c.defaultSize = .w32 := by simpa [Instr.availableOn] using hav
    rw [encode, decode, List.cons_append, decodeFrom_mov _ _ _ _ (by cases r <;> rfl)]
    simp [decodeMov, hsize]

/-! ### What decodes -/

theorem mod_of_takeDisp16 {m : ModField} {bs rest : List Byte} {d : Disp16} (hm : m ≠ .m11)
    (h : takeDisp16 m bs = some (d, rest)) : d.mod = m := by
  cases m with
  | m00 =>
    cases h
    rfl
  | m11 => exact absurd rfl hm
  | m01 | m10 =>
    obtain ⟨x, -, hx⟩ := Option.map_eq_some_iff.1 h
    cases hx
    rfl

theorem mod_of_takeDisp32 {m : ModField} {bs rest : List Byte} {d : Disp32} (hm : m ≠ .m11)
    (h : takeDisp32 m bs = some (d, rest)) : d.mod = m := by
  cases m with
  | m00 =>
    cases h
    rfl
  | m11 => exact absurd rfl hm
  | m01 | m10 =>
    obtain ⟨x, -, hx⟩ := Option.map_eq_some_iff.1 h
    cases hx
    rfl

theorem wellFormed_of_decodeMem16 {m : ModField} {rm : BitVec 3} {bs rest : List Byte} {x : Mem16} (hm : m ≠ .m11)
    (h : decodeMem16 m rm bs = some (x, rest)) : x.wellFormed = true := by
  unfold decodeMem16 at h
  split at h
  · obtain ⟨d, -, hx⟩ := Option.map_eq_some_iff.1 h
    cases hx
    rfl
  · rename_i hform
    obtain ⟨d, hd, hx⟩ := Option.map_eq_some_iff.1 h
    cases hx
    rwa [wellFormed_based16_iff, Base16.bits_ofBits, mod_of_takeDisp16 hm hd]

theorem wellFormed_of_decodeSib {m : ModField} {bs rest : List Byte} {x : Mem32} (hm : m ≠ .m11)
    (h : decodeSib m bs = some (x, rest)) : x.wellFormed = true := by
  cases bs with
  | nil => cases h
  | cons sb bs =>
    simp only [decodeSib, takeByte_cons] at h
    split at h
    · obtain ⟨d, -, hx⟩ := Option.map_eq_some_iff.1 h
      cases hx
      exact indexOfBits_wellFormed _
    · rename_i hform
      obtain ⟨d, hd, hx⟩ := Option.map_eq_some_iff.1 h
      cases hx
      rw [wellFormed_sib_iff, Reg.bits_ofBits, mod_of_takeDisp32 hm hd]
      exact ⟨indexOfBits_wellFormed _, hform⟩

theorem wellFormed_of_decodeMem32 {m : ModField} {rm : BitVec 3} {bs rest : List Byte} {x : Mem32} (hm : m ≠ .m11)
    (h : decodeMem32 m rm bs = some (x, rest)) : x.wellFormed = true := by
  unfold decodeMem32 at h
  split at h
  · exact wellFormed_of_decodeSib hm h
  · rename_i hsib
    split at h
    · obtain ⟨d, -, hx⟩ := Option.map_eq_some_iff.1 h
      cases hx
      rfl
    · rename_i hform
      obtain ⟨d, hd, hx⟩ := Option.map_eq_some_iff.1 h
      cases hx
      rw [wellFormed_based32_iff, Reg.bits_ofBits, mod_of_takeDisp32 hm hd]
      exact ⟨hsib, hform⟩

/-- The second operand read is one that has an encoding, of the form the mod field names. -/
theorem wellFormed_of_decodeRm {a : OpSize} {m : ModField} {b : BitVec 3} {bs rest : List Byte} {rm : RmOperand}
    (h : decodeRm a m b bs = some (rm, rest)) : rm.wellFormed a = true ∧ (m = .m11 → rm.mod = .m11) := by
  unfold decodeRm at h
  split at h
  · cases h
    exact ⟨by cases a <;> rfl, fun _ => rfl⟩
  · rename_i hm
    refine ⟨?_, fun e => absurd e hm⟩
    cases a with
    | w16 =>
      obtain ⟨x, hx, hrm⟩ := Option.map_eq_some_iff.1 h
      cases hrm
      exact wellFormed_of_decodeMem16 hm hx
    | w32 =>
      obtain ⟨x, hx, hrm⟩ := Option.map_eq_some_iff.1 h
      cases hrm
      exact wellFormed_of_decodeMem32 hm hx

/-- The instruction has an encoding, and the configured part has the instruction. -/
def Encodable (c : Config) (i : Instr) : Prop := i.wellFormed = true ∧ i.availableOn c = true

section
variable {c : Config} {o a : Bool} {bs rest : List Byte} {i : Instr}

theorem encodable_of_decodeXbts (hcpu : c.cpu = .i386A) (h : decodeXbts c o a bs = .ok i rest) : Encodable c i := by
  cases bs with
  | nil => cases h
  | cons modrm bs =>
    rw [decodeXbts_cons] at h
    split at h
    · rename_i hadmit
      obtain ⟨_, _, rm, ⟨⟩, hrm, rfl⟩ := (decodeRmFormat_ok_iff ..).1 h
      obtain ⟨hwf, hmod⟩ := wellFormed_of_decodeRm hrm
      exact ⟨hwf, availableOn_xbts_iff.2 ⟨hcpu, hadmit.imp_left hmod⟩⟩
    · cases h

theorem encodable_of_decode0FA6 (h : decode0FA6 c o a bs = .ok i rest) : Encodable c i := by
  by_cases hlacks : c.cpu ∈ lacks0FA6
  · rw [decode0FA6_of_lacks _ _ _ hlacks] at h
    cases h
  · have hcpu : c.cpu = .i386A ∨ c.cpu = .i486A := by
      revert hlacks
      cases c.cpu <;> decide
    rcases hcpu with hcpu | hcpu
    · rw [decode0FA6_i386A _ _ _ hcpu] at h
      exact encodable_of_decodeXbts hcpu h
    · rw [decode0FA6_i486A _ _ _ hcpu] at h
      obtain ⟨_, _, rm, -, hrm, rfl⟩ := (decodeRmFormat_ok_iff ..).1 h
      exact ⟨(wellFormed_of_decodeRm hrm).1, by simp [Instr.availableOn, hcpu]⟩

theorem decodeMsrOp_ok_iff {op : Instr} :
    decodeMsrOp c o a op bs = .ok i rest ↔
      (o || a) = false ∧ c.cpu.hasMsrs = true ∧ i = op ∧ rest = bs := by
  cases h : o || a <;> cases hm : c.cpu.hasMsrs <;> simp [decodeMsrOp, h, hm, eq_comm]

theorem decodeMov_ok_iff {r : Reg} :
    decodeMov c o a r bs = .ok i rest ↔
      (o || a) = false ∧ c.defaultSize = .w32 ∧ ∃ imm, takeWord bs = some (imm, rest) ∧ i = .movR32Imm32 r imm := by
  cases h : o || a <;> cases hd : c.defaultSize <;> cases hw : takeWord bs <;>
    simp [decodeMov, h, hd, hw, eq_comm, and_comm, Prod.ext_iff]

theorem encodable_of_decodeTwoByte (h : decodeTwoByte c o a bs = .ok i rest) : Encodable c i := by
  cases bs with
  | nil => cases h
  | cons b bs =>
    simp only [decodeTwoByte, takeByte_cons] at h
    split_ifs at h
    · exact encodable_of_decode0FA6 h
    · obtain ⟨-, hmsrs, rfl, -⟩ := decodeMsrOp_ok_iff.1 h
      exact ⟨rfl, hmsrs⟩
    · obtain ⟨-, hmsrs, rfl, -⟩ := decodeMsrOp_ok_iff.1 h
      exact ⟨rfl, hmsrs⟩

theorem encodable_of_decodeOpcode (h : decodeOpcode c o a bs = .ok i rest) : Encodable c i := by
  cases bs with
  | nil => cases h
  | cons b bs =>
    simp only [decodeOpcode, takeByte_cons] at h
    split_ifs at h
    · exact encodable_of_decodeTwoByte h
    · obtain ⟨-, hsize, imm, -, rfl⟩ := decodeMov_ok_iff.1 h
      exact ⟨rfl, by simp [Instr.availableOn, hsize]⟩

/-- Whatever the decoder gives is encodable: each row asks for its own part and size (R124, R125, R190). -/
theorem encodable_of_decodeFrom (h : decodeFrom c o a bs = .ok i rest) : Encodable c i := by
  induction bs generalizing o a with
  | nil => cases h
  | cons b bs ih =>
    simp only [decodeFrom] at h
    split_ifs at h
    · exact ih h
    · exact ih h
    · exact encodable_of_decodeOpcode h

end

/-- Settles O2: every branch of the decoder gives such instructions, and reads the bytes R121 counts. -/
theorem decodedInstructionIsWellFormedAndHasItsLength : Obligations.DecodedInstructionIsWellFormedAndHasItsLength := by
  intro c bs rest i h
  obtain ⟨hwf, hav⟩ := encodable_of_decodeFrom h
  obtain ⟨own, rfl, hlen, -⟩ := decode_own h
  exact ⟨hwf, hav, by rw [List.length_append, hlen], instrLength_le c i⟩

/-- Settles O3: the bytes the decoder takes are the instruction's own. -/
theorem decoderReadsOnlyTheInstructionsBytes : Obligations.DecoderReadsOnlyTheInstructionsBytes := by
  intro c bs rest other i h
  obtain ⟨own, hbs, -, hother⟩ := decode_own h
  exact ⟨own, hbs, hother other⟩

end Sys2Proof
end

section
/-! PROOF. Which bytes are refused, and which are an opcode the part lacks (O4 to O8, O13, O22, O25). -/

namespace Sys2Proof

open Sys2Proof.Claim

/-! ### Prefixes (R114, R126) -/

theorem decodeFrom_both_seen {c : Config} {x : Byte} (h : x ∈ neverAdmitted ∨ x = 0x66 ∨ x = 0x67) (rest : List Byte) :
    decodeFrom c true true (x :: rest) = .stop .prefixNotAdmitted := by
  rcases h with h | rfl | rfl
  · exact decodeFrom_forbidden c true true rest h
  · rfl
  · rfl

section
variable {c : Config} {o a : Bool} (h : (o || a) = true) (rest : List Byte)
include h

/-- Behind one size override, a second one is a repetition or leaves none to come (R114). -/
theorem decodeFrom_third_prefix {q x : Byte} (hq : q = 0x66 ∨ q = 0x67)
    (hx : x ∈ neverAdmitted ∨ x = 0x66 ∨ x = 0x67) :
    decodeFrom c o a (q :: x :: rest) = .stop .prefixNotAdmitted := by
  rcases hq with rfl | rfl
  · rw [decodeFrom_66]
    cases o with
    | true => rfl
    | false =>
      obtain rfl : a = true := h
      exact decodeFrom_both_seen hx rest
  · rw [decodeFrom_67]
    cases a with
    | true => rfl
    | false =>
      obtain rfl : o = true := by simpa using h
      exact decodeFrom_both_seen hx rest

theorem decodeFrom_msrOp_of_prefix {b : Byte} (hb : b = 0x30 ∨ b = 0x32) :
    decodeFrom c o a (0x0F :: b :: rest) = .stop .prefixNotAdmitted := by
  rcases hb with rfl | rfl <;> exact if_pos h

theorem decodeFrom_mov_of_prefix {b : Byte} (hlo : 0xB8 ≤ b.toNat) (hhi : b.toNat ≤ 0xBF) :
    decodeFrom c o a (b :: rest) = .stop .prefixNotAdmitted := by
  rw [decodeFrom_mov c o a rest ((isMovOpcode_iff b).2 ⟨hlo, hhi⟩), decodeMov, if_pos h]

end

/-- Settles O5: behind 66h or 67h the decoder goes on with that override seen. -/
theorem prefixesNotAdmittedAreRefused : Obligations.PrefixesNotAdmittedAreRefused := by
  intro c rest
  refine ⟨fun p hp => ⟨decodeFrom_forbidden c false false rest hp, decodeFrom_forbidden c true false rest hp,
    decodeFrom_forbidden c false true rest hp⟩, fun p hp => ?_⟩
  obtain ⟨o, a, hseen, hdec⟩ : ∃ o a, (o || a) = true ∧ ∀ bs, decode c (p :: bs) = decodeFrom c o a bs := by
    rcases hp with rfl | rfl
    · exact ⟨true, false, rfl, fun _ => rfl⟩
    · exact ⟨false, true, rfl, fun _ => rfl⟩
  simp only [hdec]
  refine ⟨?_, fun q hq x hx => decodeFrom_third_prefix hseen rest hq hx,
    fun b hb => decodeFrom_msrOp_of_prefix hseen rest hb, fun b hlo hhi => decodeFrom_mov_of_prefix hseen rest hlo hhi⟩
  rw [← hdec]
  rcases hp with rfl | rfl <;> rfl

/-! ### Opcodes (R124, R125, R190) -/

theorem decodeMsrOp_of_lacks {c : Config} (h : c.cpu ∈ lacksMsrs) (i : Instr) (rest : List Byte) :
    decodeMsrOp c false false i rest = .invalidOpcode rest := by
  simp [decodeMsrOp, (Machine.hasMsrs_eq_false_iff c.cpu).2 h]

theorem decodeMsrOp_of_has {c : Config} (h : c.cpu ∉ lacksMsrs) (i : Instr) (rest : List Byte) :
    decodeMsrOp c false false i rest = .ok i rest := by
  simp [decodeMsrOp, eq_true_of_ne_false (mt (Machine.hasMsrs_eq_false_iff c.cpu).1 h)]

/-- Settles O7. -/
theorem msrOpcodesExistOnlyWithMsrs : Obligations.MsrOpcodesExistOnlyWithMsrs := fun _ rest =>
  ⟨fun h => ⟨decodeMsrOp_of_lacks h .rdmsr rest, decodeMsrOp_of_lacks h .wrmsr rest⟩,
    fun h => ⟨decodeMsrOp_of_has h .rdmsr rest, decodeMsrOp_of_has h .wrmsr rest⟩⟩

/-- Settles O8. -/
theorem unknownOpcodesAreRefused : Obligations.UnknownOpcodesAreRefused := by
  intro c b rest
  refine ⟨fun hadmitted h66 h67 h0F hmov => ?_, fun hA6 h32 h30 => ?_, fun hlo hhi hsize => ?_⟩
  · have hnot : ¬ b &&& 0xF8 = 0xB8 := by rw [isMovOpcode_iff]; omega
    rw [decode, decodeFrom_opcode c _ _ _ h66 h67 hadmitted]
    simp only [decodeOpcode, takeByte_cons, if_neg h0F, if_neg hnot]
  · rw [decode, decodeFrom_0F]
    simp only [decodeTwoByte, takeByte_cons, if_neg hA6, if_neg h32, if_neg h30]
  · rw [decode, decodeFrom_mov c _ _ _ ((isMovOpcode_iff b).2 ⟨hlo, hhi⟩)]
    simp [decodeMov, hsize]

/-- From C0h on the mod field is 11, a register operand (R115). -/
theorem topField_eq_m11_iff : ∀ b : Byte, ModField.ofBits (topField b) = .m11 ↔ 0xC0 ≤ b.toNat := by decide

/-- With mod = 11 format RM is the ModRM byte alone, which names two registers (R115). -/
theorem decodeRmFormat_reg {modrm : Byte} (h : 0xC0 ≤ modrm.toNat) (c : Config) (o a : Bool)
    (mk : OpSize → OpSize → Reg → RmOperand → Instr) (rest : List Byte) :
    decodeRmFormat c o a mk (modrm :: rest) = .ok (mk (sizeWith c o) (sizeWith c a) (Reg.ofBits (midField modrm))
      (.reg (Reg.ofBits (lowField modrm)))) rest :=
  (decodeRmFormat_ok_iff ..).2 ⟨modrm, rest, _, rfl, if_pos ((topField_eq_m11_iff modrm).2 h), rfl⟩

theorem decodeRmFormat_ne_memOperandNotAdmitted (c : Config) (o a : Bool)
    (mk : OpSize → OpSize → Reg → RmOperand → Instr) (bs : List Byte) :
    decodeRmFormat c o a mk bs ≠ .stop .memOperandNotAdmitted := by
  unfold decodeRmFormat
  split
  · exact nofun
  · split <;> exact nofun

theorem decode_0FA6 (c : Config) (rest : List Byte) :
    decode c (0x0F :: 0xA6 :: rest) = decode0FA6 c false false rest := rfl

/-- Settles O6. -/
theorem opcode0FA6DependsOnTheProcessor : Obligations.Opcode0FA6DependsOnTheProcessor := by
  intro c modrm rest
  rw [decode_0FA6]
  refine ⟨decode0FA6_of_lacks _ _ _, fun hcpu hreg => ?_, fun hcpu => ?_, fun hcpu hreg => ?_, fun hcpu hmem hadm => ?_⟩
  · rw [decode0FA6_i486A _ _ _ hcpu]
    exact decodeRmFormat_reg hreg c false false _ rest
  · rw [decode0FA6_i486A _ _ _ hcpu]
    exact decodeRmFormat_ne_memOperandNotAdmitted _ _ _ _ _
  · rw [decode0FA6_i386A _ _ _ hcpu, decodeXbts_cons, if_pos (.inl ((topField_eq_m11_iff modrm).2 hreg))]
    exact decodeRmFormat_reg hreg c false false _ rest
  · rw [decode0FA6_i386A _ _ _ hcpu, decodeXbts_cons, if_neg]
    rw [topField_eq_m11_iff, hadm]
    simpa using hmem

/-- Settles O4: the table's words, each evaluated. -/
theorem spelledOutBytesDecode : Obligations.SpelledOutBytesDecode := by
  unfold Obligations.SpelledOutBytesDecode
  decide

/-! ### CMPXCHG (R111, R185) -/

/-- The A step with memory operands admitted, the rest of the configuration as it is. -/
def onTheAStep (c : Config) : Config := { c with cpu := .i386A, admitMemOperands := true }

theorem decodeCmpxchg_iff_decodeXbts {c : Config} {o a : Bool} {bs rest : List Byte} {f : RmForm} :
    decodeCmpxchg c o a bs = .ok (.cmpxchg f) rest ↔
      decodeXbts (onTheAStep c) o a bs = .ok (.xbts f.w f.a f.reg f.rm) rest := by
  have hadmitted : decodeXbts (onTheAStep c) o a bs = decodeRmFormat c o a .xbts bs := by
    rw [decodeXbts, onTheAStep, Bool.not_true, Bool.and_false]
    rfl
  rw [hadmitted, decodeCmpxchg, decodeRmFormat_ok_iff, decodeRmFormat_ok_iff]
  obtain ⟨w, s, reg, rm⟩ := f
  simp only [Instr.cmpxchg.injEq, RmForm.mk.injEq, Instr.xbts.injEq]

section
variable {c : Config} {o a : Bool} {bs rest : List Byte} {f : RmForm}

theorem decodeTwoByte_cmpxchg_iff (hcpu : c.cpu = .i486A) :
    decodeTwoByte c o a bs = .ok (.cmpxchg f) rest ↔
      decodeTwoByte (onTheAStep c) o a bs = .ok (.xbts f.w f.a f.reg f.rm) rest := by
  cases bs with
  | nil => exact iff_of_false nofun nofun
  | cons b bs =>
    simp only [decodeTwoByte, takeByte_cons]
    split_ifs
    · rw [decode0FA6_i486A _ _ _ hcpu, decode0FA6_i386A _ _ _ rfl, decodeCmpxchg_iff_decodeXbts]
    · simp [decodeMsrOp_ok_iff]
    · simp [decodeMsrOp_ok_iff]
    · exact iff_of_false nofun nofun

/-- The prefixes and opcode bytes of CMPXCHG are those of XBTS. -/
theorem decodeFrom_cmpxchg_iff (hcpu : c.cpu = .i486A) :
    decodeFrom c o a bs = .ok (.cmpxchg f) rest ↔
      decodeFrom (onTheAStep c) o a bs = .ok (.xbts f.w f.a f.reg f.rm) rest := by
  induction bs generalizing o a with
  | nil => exact iff_of_false nofun nofun
  | cons b bs ih =>
    simp only [decodeFrom, decodeOpcode, takeByte_cons]
    split_ifs
    · exact iff_of_false nofun nofun
    · exact ih
    · exact iff_of_false nofun nofun
    · exact ih
    · exact iff_of_false nofun nofun
    · exact decodeTwoByte_cmpxchg_iff hcpu
    · simp [decodeMov_ok_iff]
    · exact iff_of_false nofun nofun

end

/-- Settles O25. -/
theorem cmpxchgIsRefusedByName : Obligations.CmpxchgIsRefusedByName :=
  fun _ _ hcpu => ⟨rfl, fun _ _ => decodeFrom_cmpxchg_iff hcpu⟩

end Sys2Proof

namespace Sys2Proof.Machine

open Sys2Proof.Claim

/-- Settles O22. -/
theorem xbtsExistsOnlyOnTheAStep : Obligations.XbtsExistsOnlyOnTheAStep := by
  intro s w a reg rm
  refine ⟨fun hlacks => ?_, fun hcpu => by simp only [exec, execXbts, hcpu]⟩
  simp only [exec, execXbts]
  cases hcpu : s.cfg.cpu with
  | i386A | i486A =>
    rw [hcpu] at hlacks
    exact absurd hlacks (by decide)
  | am5x86 | ibm386SLC | ibm486SLC | ibm486SLC2 | ibm486BL3 | i486B | other => rfl

/-! ### The trap of a missing opcode (R124, R125, R201) -/

/-- An opcode at pc that the part lacks traps, unless one of its bytes was written in the run (R96). -/
theorem fetchInstr_of_invalidOpcode {s : State} {bs : List Byte} {pas : List Nat} (h : StandsAtPc s bs pas)
    (hd : decode s.cfg bs = .invalidOpcode []) (hlen : bs.length ≤ maxInstrLength)
    (hend : s.pc.toNat + bs.length ≤ 2 ^ 32) :
    fetchInstr s = .stop (if anyWritten s pas then .refuse .codeModified else .trap .invalidOpcode) := by
  obtain ⟨more, hwin⟩ := fetchWindow_holds (n := maxInstrLength) h.1 hlen hend h.window
  have hdec : decode s.cfg ((pas.zip bs ++ more).map Prod.snd) = .invalidOpcode (more.map Prod.snd) := by
    rw [List.map_append, List.map_snd_zip (by rw [h.1])]
    have hstands := decode_stands s.cfg bs (more.map Prod.snd)
    rwa [hd] at hstands
  simp only [fetchInstr, hwin, hdec, fetchedAddrs_zip h.1]
  split <;> rfl

/-- Two bytes at pc, each at its physical address. -/
theorem standsAtPc_pair {s : State} {b0 b1 : Byte} {p0 p1 : Nat} (hp0 : physAddr s s.pc = .ok p0)
    (hp1 : physAddr s (s.pc + 1) = .ok p1) (hb0 : s.memByte p0 = b0) (hb1 : s.memByte p1 = b1) :
    StandsAtPc s [b0, b1] [p0, p1] := by
  refine ⟨rfl, fun k pa b hpa hb => ?_⟩
  match k with
  | 0 =>
    cases hpa
    cases hb
    exact ⟨by simpa using hp0, hb0⟩
  | 1 =>
    cases hpa
    cases hb
    exact ⟨hp1, hb1⟩
  | k + 2 => cases hpa

/-- Settles O13: both bytes are found at pc, they decode to an opcode the part lacks, and neither is on record as
written. -/
theorem missingOpcodeTraps : Obligations.MissingOpcodeTraps := by
  intro s rest p0 p1 hturn hnmi hend hp0 hp1 hb0 hlacks hw0 hw1
  have hd : decode s.cfg [0x0F, s.memByte p1] = .invalidOpcode [] := by
    rcases hlacks with ⟨hcpu, hb1⟩ | ⟨hcpu, hb1 | hb1⟩ <;> rw [hb1]
    · exact decode0FA6_of_lacks _ _ _ hcpu
    · exact decodeMsrOp_of_lacks hcpu .wrmsr []
    · exact decodeMsrOp_of_lacks hcpu .rdmsr []
  have hfresh : anyWritten (s.setSchedule rest) [p0, p1] = false := by simp [anyWritten, hw0, hw1]
  have hstands := (standsAtPc_pair hp0 hp1 hb0 rfl).setSchedule rest
  have hfetch := fetchInstr_of_invalidOpcode hstands hd (show 2 ≤ 10 by decide) hend
  rw [hfresh] at hfetch
  exact step_of_fetch_stop hturn hnmi hfetch

end Sys2Proof.Machine
end

section
/-! PROOF. The tables of effective addresses, with address size 16 and 32 (O9, O10). -/

namespace Sys2Proof

/-! ### The operand forms, from the bytes after ModRM (R118, R119) -/

section
variable {m : ModField} (hm : m ≠ .m11) {rm : BitVec 3} {bs rest : List Byte}
include hm

theorem decodeRm_based16 (hrm : ¬ (m = .m00 ∧ rm = 6)) {d : Disp16} (hd : takeDisp16 m bs = some (d, rest)) :
    decodeRm .w16 m rm bs = some (.mem16 (.based (Base16.ofBits rm) d), rest) := by
  simp only [decodeRm, decodeMem16, if_neg hm, if_neg hrm, hd, Option.map_some]

theorem decodeRm_based32 (h4 : rm ≠ 4) (h5 : ¬ (m = .m00 ∧ rm = 5)) {d : Disp32}
    (hd : takeDisp32 m bs = some (d, rest)) :
    decodeRm .w32 m rm bs = some (.mem32 (.based (Reg.ofBits rm) d), rest) := by
  simp only [decodeRm, decodeMem32, if_neg hm, if_neg h4, if_neg h5, hd, Option.map_some]

theorem decodeRm_sib (sc : BitVec 2) (ix : BitVec 3) {ba : BitVec 3} (hba : ¬ (m = .m00 ∧ ba = 5)) {d : Disp32}
    (hd : takeDisp32 m bs = some (d, rest)) :
    decodeRm .w32 m 4 (fieldsByte sc ix ba :: bs) =
      some (.mem32 (.sib (Scale.ofBits sc) (indexOfBits ix) (Reg.ofBits ba) d), rest) := by
  simp only [decodeRm, decodeMem32, decodeSib, takeByte_cons, topField_fieldsByte, midField_fieldsByte,
    lowField_fieldsByte, if_neg hm, if_true, if_neg hba, hd, Option.map_some]

end

theorem decodeRm_sibNoBase (sc : BitVec 2) (ix : BitVec 3) {bs rest : List Byte} {d : Word}
    (hd : takeWord bs = some (d, rest)) :
    decodeRm .w32 .m00 4 (fieldsByte sc ix 5 :: bs) =
      some (.mem32 (.sibNoBase (Scale.ofBits sc) (indexOfBits ix) d), rest) := by
  simp [decodeRm, decodeMem32, decodeSib, hd]

/-- The SIB byte as a number (R118). -/
theorem ofNat_sib : ∀ sc < 4, ∀ ix < 8, ∀ ba < 8, BitVec.ofNat 8 (64 * sc + 8 * ix + ba) =
    fieldsByte (BitVec.ofNat 2 sc) (BitVec.ofNat 3 ix) (BitVec.ofNat 3 ba) := by decide

/-- A field of three bits as a number. -/
theorem ofNat3_inj : ∀ n < 8, ∀ k < 8, BitVec.ofNat 3 n = BitVec.ofNat 3 k → n = k := by decide

end Sys2Proof

namespace Sys2Proof.Machine

open Sys2Proof.Claim

/-! ### Numbers modulo 2^16 and 2^32 -/

/-- disp8 is sign-extended (R118, R119). -/
theorem ofInt_signed8 (w : Nat) (d : Byte) : BitVec.ofInt w (signed8 d) = d.signExtend w := by
  have hsigned : signed8 d = d.toInt := by
    rw [signed8, BitVec.toInt_eq_toNat_cond]
    split <;> split <;> omega
  rw [hsigned, BitVec.signExtend]

theorem ofInt_toNat {n : Nat} (v : BitVec n) : BitVec.ofInt n v.toNat = v := by
  rw [BitVec.ofInt_natCast, BitVec.ofNat_toNat, BitVec.setWidth_eq]

theorem toNat_append_byte {n : Nat} (v : BitVec n) (b : Byte) : (v ++ b).toNat = 256 * v.toNat + b.toNat := by
  rw [BitVec.toNat_append, ← Nat.shiftLeft_add_eq_or_of_lt b.isLt, Nat.shiftLeft_eq, Nat.mul_comm]

/-- disp16, low byte first (R122). -/
theorem ofInt_disp16 (b0 b1 : Byte) : BitVec.ofInt 16 (b0.toNat + 256 * b1.toNat) = b1 ++ b0 := by
  rw [← ofInt_toNat (b1 ++ b0), toNat_append_byte]
  congr 1
  omega

/-- disp32, low byte first (R122). -/
theorem ofInt_disp32 (b0 b1 b2 b3 : Byte) :
    BitVec.ofInt 32 (b0.toNat + 256 * b1.toNat + 65536 * b2.toNat + 16777216 * b3.toNat) = b3 ++ b2 ++ b1 ++ b0 := by
  rw [← ofInt_toNat (b3 ++ b2 ++ b1 ++ b0), toNat_append_byte, toNat_append_byte, toNat_append_byte]
  congr 1
  omega

/-! ### Sums of the tables -/

section
variable (s : State)

theorem ofInt_sum16 (rm : Fin 8) :
    BitVec.ofInt 16 (sum16 s rm) = base16Value s (Base16.ofBits (BitVec.ofNat 3 rm.val)) := by
  have hreg (r : Reg) : BitVec.ofNat 16 ((s.reg r).toNat % 65536) = reg16 s r :=
    BitVec.eq_of_toNat_eq (by simp [reg16])
  rw [BitVec.ofInt_natCast]
  fin_cases rm <;> simp only [sum16, BitVec.ofNat_add, hreg] <;> rfl

theorem numbered_eq_ofBits : ∀ n : Fin 8, numbered n = Reg.ofBits (BitVec.ofNat 3 n.val) := by decide

theorem ofInt_numbered (n : Fin 8) :
    BitVec.ofInt 32 (s.reg (numbered n)).toNat = s.reg (Reg.ofBits (BitVec.ofNat 3 n.val)) := by
  rw [ofInt_toNat, numbered_eq_ofBits]

/-- The index shifted by the scale; 100 is no index (R118). -/
theorem ofInt_index {sc : Nat} (hsc : sc < 4) (ix : Fin 8) :
    BitVec.ofInt 32 (if ix.val = 4 then 0 else (s.reg (numbered ix)).toNat * 2 ^ sc) =
      indexValue s (Scale.ofBits (BitVec.ofNat 2 sc)) (indexOfBits (BitVec.ofNat 3 ix.val)) := by
  have hscale : (Scale.ofBits (BitVec.ofNat 2 sc)).bits.toNat = sc := by
    rw [Scale.bits_ofBits, BitVec.toNat_ofNat, Nat.mod_eq_of_lt hsc]
  by_cases h4 : ix.val = 4
  · rw [if_pos h4, h4]
    rfl
  · have hne : BitVec.ofNat 3 ix.val ≠ 4 := fun h => h4 (ofNat3_inj _ ix.isLt 4 (by decide) h)
    have hindex : indexOfBits (BitVec.ofNat 3 ix.val) = some (numbered ix) := by
      rw [numbered_eq_ofBits]
      exact if_neg hne
    have hcast : ((s.reg (numbered ix)).toNat * 2 ^ sc : Int) = ((s.reg (numbered ix)).toNat * 2 ^ sc : Nat) := by
      push_cast
      rfl
    rw [if_neg h4, hindex, indexValue, hscale, hcast, BitVec.ofInt_natCast]
    refine BitVec.eq_of_toNat_eq ?_
    rw [BitVec.toNat_shiftLeft, Nat.shiftLeft_eq, BitVec.toNat_ofNat]

theorem ea16_based {rm : Fin 8} {d : Disp16} {n : Int} (hn : BitVec.ofInt 16 n = disp16Value d) :
    ea16 s (.based (Base16.ofBits (BitVec.ofNat 3 rm.val)) d) = mod16 (sum16 s rm + n) := by
  rw [mod16, BitVec.ofInt_add, ofInt_sum16, hn, ea16]

theorem ea32_based {r : Fin 8} {d : Disp32} {n : Int} (hn : BitVec.ofInt 32 n = disp32Value d) :
    ea32 s (.based (Reg.ofBits (BitVec.ofNat 3 r.val)) d) = mod32 ((s.reg (numbered r)).toNat + n) := by
  rw [mod32, BitVec.ofInt_add, ofInt_numbered, hn, ea32]

theorem ea32_sib {sc : Scale} {i : Option Reg} {r : Fin 8} {d : Disp32} {x n : Int}
    (hx : BitVec.ofInt 32 x = indexValue s sc i) (hn : BitVec.ofInt 32 n = disp32Value d) :
    ea32 s (.sib sc i (Reg.ofBits (BitVec.ofNat 3 r.val)) d) = mod32 ((s.reg (numbered r)).toNat + x + n) := by
  rw [mod32, BitVec.ofInt_add, BitVec.ofInt_add, ofInt_numbered, hx, hn, ea32]

variable {s}

/-- The place of an operand that has been read, and the bytes after it. -/
theorem map_rmPlace {r : Option (RmOperand × List Byte)} {rm : RmOperand} {rest : List Byte} {ea : Word}
    (h : r = some (rm, rest)) (hea : rmPlace s rm = .mem ea) :
    r.map (fun p => (rmPlace s p.1, p.2)) = some (.mem ea, rest) := by
  rw [h, Option.map_some, hea]

end

/-- Settles O9: each form is read, and its address is the table's sum. -/
theorem sixteenBitAddressesFollowTheTable : Obligations.SixteenBitAddressesFollowTheTable := by
  intro s rm b0 b1 rest
  refine ⟨fun hrm => ?_, ?_, ?_, ?_⟩
  · have hrow : ¬ (ModField.m00 = .m00 ∧ BitVec.ofNat 3 rm.val = 6) := fun h =>
      hrm (Fin.ext (ofNat3_inj _ rm.isLt 6 (by decide) h.2))
    have hea := ea16_based s (rm := rm) (d := .absent) (n := 0) rfl
    rw [Int.add_zero] at hea
    exact map_rmPlace (decodeRm_based16 (m := .m00) nofun hrow rfl) (congrArg Place.mem hea)
  · refine map_rmPlace (rm := .mem16 (.direct (b1 ++ b0))) rfl ?_
    rw [mod16, ofInt_disp16]
    rfl
  · exact map_rmPlace (decodeRm_based16 (m := .m01) nofun nofun rfl)
      (congrArg Place.mem (ea16_based s (ofInt_signed8 16 b0)))
  · exact map_rmPlace (decodeRm_based16 (m := .m10) nofun nofun rfl)
      (congrArg Place.mem (ea16_based s (ofInt_disp16 b0 b1)))

/-- Settles O10: each form is read, and its address is the table's sum. -/
theorem thirtyTwoBitAddressesFollowTheTable : Obligations.ThirtyTwoBitAddressesFollowTheTable := by
  intro s rm sc ix ba b0 b1 b2 b3 rest hrm hix hba hsc reg d32 place sib idx
  have hne (n : Nat) (hn : n < 8) (k : Nat) (hk : k < 8) (h : n ≠ k) : BitVec.ofNat 3 n ≠ BitVec.ofNat 3 k :=
    mt (ofNat3_inj n hn k hk) h
  have hsib : sib = fieldsByte (BitVec.ofNat 2 sc) (BitVec.ofNat 3 ix) (BitVec.ofNat 3 ba) :=
    ofNat_sib sc hsc ix hix ba hba
  have hidx : BitVec.ofInt 32 idx = indexValue s (Scale.ofBits (BitVec.ofNat 2 sc)) (indexOfBits (BitVec.ofNat 3 ix)) :=
    ofInt_index s hsc ⟨ix, hix⟩
  have hd32 : BitVec.ofInt 32 d32 = b3 ++ b2 ++ b1 ++ b0 := ofInt_disp32 b0 b1 b2 b3
  rw [hsib]
  refine ⟨fun h4 h5 => ?_, ?_, fun h4 => ?_, fun h4 => ?_, fun h5 => ?_, fun h5 => ?_, ?_, ?_⟩
  · have hea := ea32_based s (r := ⟨rm, hrm⟩) (d := .absent) (n := 0) rfl
    rw [Int.add_zero] at hea
    exact map_rmPlace (decodeRm_based32 (m := .m00) nofun (hne rm hrm 4 (by decide) h4)
      (fun h => hne rm hrm 5 (by decide) h5 h.2) rfl) (congrArg Place.mem hea)
  · refine map_rmPlace (rm := .mem32 (.direct (b3 ++ b2 ++ b1 ++ b0))) rfl ?_
    rw [mod32, hd32]
    rfl
  · exact map_rmPlace (decodeRm_based32 (m := .m01) nofun (hne rm hrm 4 (by decide) h4) nofun rfl)
      (congrArg Place.mem (ea32_based s (r := ⟨rm, hrm⟩) (ofInt_signed8 32 b0)))
  · exact map_rmPlace (decodeRm_based32 (m := .m10) nofun (hne rm hrm 4 (by decide) h4) nofun rfl)
      (congrArg Place.mem (ea32_based s (r := ⟨rm, hrm⟩) (d := .d32 _) hd32))
  · have hea := ea32_sib s (r := ⟨ba, hba⟩) (d := .absent) (n := 0) hidx rfl
    rw [Int.add_zero] at hea
    exact map_rmPlace (decodeRm_sib (m := .m00) nofun _ _ (fun h => hne ba hba 5 (by decide) h5 h.2) rfl)
      (congrArg Place.mem hea)
  · subst h5
    refine map_rmPlace (decodeRm_sibNoBase _ _ rfl) ?_
    rw [mod32, BitVec.ofInt_add, hidx, hd32]
    rfl
  · exact map_rmPlace (decodeRm_sib (m := .m01) nofun _ _ nofun rfl)
      (congrArg Place.mem (ea32_sib s (r := ⟨ba, hba⟩) hidx (ofInt_signed8 32 b0)))
  · exact map_rmPlace (decodeRm_sib (m := .m10) nofun _ _ nofun rfl)
      (congrArg Place.mem (ea32_sib s (r := ⟨ba, hba⟩) (d := .d32 _) hidx hd32))

end Sys2Proof.Machine
end

section
/-! PROOF. What RDMSR returns, the store to Register 83h, and who can reach the model-specific registers (O27, O31, O41,
O42). -/

namespace Sys2Proof.Machine

open Sys2Proof.Claim

/-- Settles O27: RDMSR writes EDX, EAX and pc and uses one free value; a fixed bit of what it returns is the stored one. -/
theorem rdmsrReturnsTheStoredFields : Obligations.RdmsrReturnsTheStoredFields := by
  intro s m hsel hfit
  have hgate : msrGate s = .ok m := msrGate_ok_iff.2 hsel
  have hwrap : pcWraps s 2 = false := pcWraps_eq_false_iff.2 hfit
  have hnext := execRdmsr_next_iff.2 ⟨m, hgate, hwrap, rfl⟩
  refine ⟨_, hnext, fun i hi hfixed => ?_, fun r hr => ?_, rfl, rfl, fun _ => rfl, ⟨rfl, rfl⟩,
    ⟨rfl, rfl, rfl, rfl, rfl, rfl, rfl, rfl, rfl⟩, ⟨rfl, rfl, rfl, rfl⟩, rfl, toNat_advance_pc hwrap⟩
  · rw [edxEaxBit_rdmsr hgate hnext hi, getLsbD_readValue_fixedBit _ _ _ hi, if_pos hfixed]
  · obtain ⟨heax, hedx⟩ : r ≠ .eax ∧ r ≠ .edx := by simpa using hr
    exact (State.reg_setReg_other _ heax _).trans (State.reg_setReg_other _ hedx _)

/-- Settles O31: the written value passes both checks of WriteValue(83h), and the bits stored as written are EAX's. -/
theorem wrmsr83StoresTheFields : Obligations.Wrmsr83StoresTheFields := by
  intro s hsel hfit hzeros hlisted
  have hdc : (edxEax s).extractLsb' 1 3 = written3to1 s := extractLsb'_edxEax s (by decide)
  have hok : writeValue s .r83 (edxEax s) s.free = .ok (merge 0xEF s.msr.r83 (edxEax s)) :=
    write83_ok_iff.2 ⟨(reservedBits83_eq_zero_iff s).2 hzeros, hdc ▸ hlisted, rfl⟩
  obtain ⟨t, ht, hv, hl, ho, hf⟩ := exec_wrmsr_of_writeValue hsel hfit hok
  refine ⟨t, ht, fun i hi h4 => ?_, ho, hl, hf⟩
  have hcontrol : controlBit s.cfg.cpu .r83 i = true := by
    simp only [controlBit, Bool.or_eq_true, decide_eq_true_eq]
    omega
  rw [← edxEaxBit_of_lt s (by omega)]
  exact controlBits_of_writeValue hok hv (by omega) hcontrol

/-! ### Who can reach the model-specific registers -/

/-- RDMSR and WRMSR complete at CPL 0 only (R145). -/
theorem cpl_of_msrAccess {s t : State} {i : Instr} (hi : i = .rdmsr ∨ i = .wrmsr) (h : exec i s = .next t) :
    s.cfg.cpl = 0 := by
  rcases hi with rfl | rfl
  · obtain ⟨m, hgate, -⟩ := execRdmsr_next_iff.1 h
    exact (msrGate_ok_iff.1 hgate).1
  · obtain ⟨m, v, hgate, -⟩ := execWrmsr_next_iff.1 h
    exact (msrGate_ok_iff.1 hgate).1

/-- Settles O41: the instruction a core step at CPL other than 0 ran, where the step answers, is no access to the registers; and no other
instruction changes them. -/
theorem unprivilegedCodeCannotReachTheMsrs : Obligations.UnprivilegedCodeCannotReachTheMsrs := by
  intro s t rest hturn hcpl h
  obtain ⟨i, s', hf, hx⟩ := step_next_of_coreTurn hturn h
  obtain ⟨_, -, -, rfl⟩ := fetchInstr_run hf
  have hno : ¬ (i = .rdmsr ∨ i = .wrmsr) := fun hi => by
    have hprivileged := cpl_of_msrAccess hi hx
    exact hcpl hprivileged
  refine ⟨?_, fun u => ⟨fun hu => ?_, fun hu => ?_⟩⟩
  · rcases exec_msr hx with hsame | ⟨hw, -⟩
    · exact hsame
    · exact absurd (.inr hw) hno
  · cases hf.symm.trans hu
    exact hno (.inl rfl)
  · cases hf.symm.trans hu
    exact hno (.inr rfl)

/-- Settles O42: of the instructions only WRMSR writes the registers, and it stores the one its checks found in ECX. -/
theorem noInstructionButWrmsrChangesTheMsrs : Obligations.NoInstructionButWrmsrChangesTheMsrs := by
  intro s t rest hturn h hchanged
  obtain ⟨i, s', hf, hx⟩ := step_next_of_coreTurn hturn h
  obtain ⟨_, -, -, rfl⟩ := fetchInstr_run hf
  rcases exec_msr hx with hsame | ⟨rfl, m, v, hgate, -, hstored, -⟩
  · exact absurd hsame hchanged
  · obtain ⟨-, hnamed, -⟩ := msrGate_ok_iff.1 hgate
    refine ⟨⟨_, hf⟩, m, hnamed, fun q hq => ?_⟩
    rw [hstored]
    exact MsrFile.get_set_other _ hq _

end Sys2Proof.Machine
end

section
/-! PROOF. XBTS: the register form under XbtsGK, the refusals of XbtsGK and XbtsLiteral, and what XBTS leaves unchanged
under every instance of XbtsFn (O17, O19, O20, O23, O24). -/

namespace Sys2Proof.Machine

open Sys2Proof.Claim

/-! ### Register operands and refusals -/

/-- Settles O17: a register operand is always read, as its W-bit view, and the string lies inside that view. -/
theorem xbtsRegisterFormExtractsTheField : Obligations.XbtsRegisterFormExtractsTheField := by
  intro s w a reg src hgk hstring hfit
  obtain ⟨t, hnext, hres, hpc⟩ := exec_xbts_gk (rm := .reg src) hgk (readPlace_reg s w src) hstring hfit
  refine ⟨t, hnext, fun i hi => ?_, hres.zeroFill, hres.drawFill, hres.above, hres.regs, hres.flags, hres.mem,
    hres.memory, hres.msrs, hres.system, hres.marks, hpc⟩
  have hin : bitOffset w s + i < opBits w := by
    rw [← width_eq_opBits]
    omega
  rw [hres.field i hi, readReg, getLsbD_narrow, if_pos hin]

/-- The operand's length in bytes, as the statements write it. -/
theorem opBytes_eq_width (w : OpSize) : opBytes w = width w / 8 := by rw [opBytes_eq, width_eq_opBits]

/-- The statements' readable operand is one that the instruction reads. -/
theorem readPlace_of_operandReadable {s : State} {w : OpSize} {rm : RmOperand} (h : OperandReadable s w rm) :
    ∃ v s1, readPlace s w (rmPlace s rm) = .ok (v, s1) :=
  readPlace_isOk fun ea hplace k hk => h ea hplace k (opBytes_eq_width w ▸ hk)

/-- On the 80386 A step a readable XBTS is refused as XbtsFn refuses, where XbtsFn refuses whatever it was handed for the
operand and the free value (R162, R165). -/
theorem exec_xbts_of_xbtsFn_error {s : State} {w : OpSize} {reg : Reg} {rm : RmOperand} {r : Refusal}
    (hcpu : s.cfg.cpu = .i386A) (hreadable : OperandReadable s w rm)
    (hfn : ∀ mOld d, xbtsFn s.cfg w (readReg s w reg) mOld (s.reg .eax) s.cl d = .error r) (a : OpSize) :
    exec (.xbts w a reg rm) s = .refused r := by
  obtain ⟨mOld, s1, hread⟩ := readPlace_of_operandReadable hreadable
  simp only [exec, execXbts, hcpu, xbtsEffect, hread, hfn]

/-- Settles O19: offset and count are those of the statement, and XbtsGK tests their sum before it takes any bit. -/
theorem xbtsPastTheOperandIsRefused : Obligations.XbtsPastTheOperandIsRefused := by
  rintro s w a reg rm ⟨hcpu, hfn⟩ hreadable hpast
  refine exec_xbts_of_xbtsFn_error hcpu hreadable (fun mOld d => ?_) a
  have hbits : opBits w < (narrow w (s.reg .eax)).toNat + s.cl.toNat := by
    rwa [toNat_narrow_eax, toNat_cl, ← width_eq_opBits]
  simp only [xbtsFn, hfn, xbtsGK, if_pos hbits]

/-- Settles O20: XbtsLiteral looks at none of its inputs. -/
theorem xbtsLiteralRefusesEveryInput : Obligations.XbtsLiteralRefusesEveryInput := by
  intro s w a reg rm hcpu hfn hreadable
  refine exec_xbts_of_xbtsFn_error hcpu hreadable (fun mOld d => ?_) a
  simp only [xbtsFn, hfn]

/-! ### The flags and the frame, under every instance -/

theorem lt_of_isStatusFlag {i : Nat} (h : isStatusFlag i = true) : i < 32 := by
  simp only [isStatusFlag, Bool.or_eq_true, beq_iff_eq] at h
  omega

/-- Settles O23: the last thing XBTS does before pc moves on is to give the six flags the bits of the free value at hand,
and that value is then used up. -/
theorem xbtsLeavesTheStatusFlagsFree : Obligations.XbtsLeavesTheStatusFlagsFree := by
  intro s t w a reg rm h
  obtain ⟨-, u, hu, -, rfl⟩ := execXbts_next_iff.1 h
  obtain ⟨n, hlt, hdraws, hflags, -⟩ := xbtsEffect_ok hu
  have hbit (i : Nat) : u.eflags.getLsbD i =
      if isStatusFlag i then ((Config.freeWord n).setWidth 32).getLsbD i else s.eflags.getLsbD i := by
    rw [hflags, getLsbD_withStatusFlags, getLsbD_statusFlagMask]
  refine ⟨⟨n, Nat.le_of_lt hlt, ?_, fun i hi => ?_⟩, fun i hi => ?_⟩
  · rw [State.setPc_draws, hdraws]
    exact Nat.lt_succ_self n
  · rw [State.setPc_eflags, hbit, if_pos hi, BitVec.getLsbD_setWidth, decide_eq_true (lt_of_isStatusFlag hi),
      Bool.true_and]
  · rw [State.setPc_eflags, hbit, if_neg (by simp [hi])]

/-- A byte with the same content and marks reads the same where the configuration and the registers that govern the cache
are the same. -/
theorem SameByte.byteSame {s t : State} {x : Nat} (h : SameByte s t x) (hc : t.cfg = s.cfg) (hm : t.msr = s.msr) :
    ByteSame s t x :=
  ⟨h.mem, h.written, h.bus, h.rom, h.parity, isStale_of_marks hc hm h.bus h.rom h.parity⟩

/-- XBTS keeps the model-specific registers and the latch, as every instruction but WRMSR does (R140). -/
theorem msrsSame_of_xbts {s t : State} {w a : OpSize} {reg : Reg} {rm : RmOperand}
    (h : exec (.xbts w a reg rm) s = .next t) : MsrsSame s t := by
  rcases exec_msr h with hsame | ⟨hwrmsr, -⟩
  · exact hsame
  · cases hwrmsr

/-- No instruction that completes changes the configuration, CR0, the hidden state, the record of fetched bytes or the
schedule. -/
theorem systemSame_of_exec {s t : State} {i : Instr} (h : exec i s = .next t) : SystemSame s t := by
  obtain ⟨ht, -, -⟩ := exec_ok h
  rw [ht]
  exact ⟨rfl, rfl, rfl, rfl, rfl, rfl, rfl, rfl, rfl⟩

/-- Settles O24: registers, bytes and marks by what the effect can do, flags by O23, and the rest by what any instruction
can do. -/
theorem xbtsFrame : Obligations.XbtsFrame := by
  intro s t w a reg rm h
  have hmsrs : MsrsSame s t := msrsSame_of_xbts h
  have hsystem : SystemSame s t := systemSame_of_exec h
  have hflags : OtherFlagsSame s t := (xbtsLeavesTheStatusFlagsFree s t w a reg rm h).2
  obtain ⟨-, u, hu, -, rfl⟩ := execXbts_next_iff.1 h
  obtain ⟨-, -, -, -, -, hregs, hbytes, hregForm⟩ := xbtsEffect_ok hu
  refine ⟨hregs, fun x hx => ?_, fun q hq => ?_, hflags, hmsrs, hsystem⟩
  · have hsame : SameByte s u x := hbytes x fun ea k hplace hk =>
      hx ea k hplace (opBytes_eq_width w ▸ hk)
    exact hsame.byteSame hsystem.1 hmsrs.1
  · rw [hregForm q hq]
    exact ⟨fun _ => rfl, rfl, rfl, rfl, rfl⟩

end Sys2Proof.Machine
end

section
/-! PROOF. The helper MOV r32, imm32 (O26). -/

namespace Sys2Proof

open Sys2Proof.Claim

/-! ### Its bytes (R122, R190) -/

/-- The opcodes B8h to BFh. -/
theorem movOpcode_bounds : ∀ n : Fin 8,
    0xB8 ≤ (BitVec.ofNat 8 (0xB8 + n.val)).toNat ∧ (BitVec.ofNat 8 (0xB8 + n.val)).toNat ≤ 0xBF := by decide

theorem lowField_movOpcode : ∀ n : Fin 8, lowField (BitVec.ofNat 8 (0xB8 + n.val)) = BitVec.ofNat 3 n.val := by decide

theorem decode_movOpcode {c : Config} (hsize : c.defaultSize = .w32) (n : Fin 8) (b0 b1 b2 b3 : Byte)
    (rest : List Byte) :
    decode c (BitVec.ofNat 8 (0xB8 + n.val) :: b0 :: b1 :: b2 :: b3 :: rest) =
      .ok (.movR32Imm32 (numbered n) (b3 ++ b2 ++ b1 ++ b0)) rest := by
  rw [decode, decodeFrom_mov _ _ _ _ ((isMovOpcode_iff _).2 (movOpcode_bounds n)), lowField_movOpcode,
    ← Machine.numbered_eq_ofBits]
  exact decodeMov_ok_iff.2 ⟨rfl, hsize, _, rfl, rfl⟩

/-- Four bytes low byte first, as a number (R122). -/
theorem toNat_append_bytes (b0 b1 b2 b3 : Byte) :
    (b3 ++ b2 ++ b1 ++ b0 : Word).toNat =
      b0.toNat + 256 * b1.toNat + 65536 * b2.toNat + 16777216 * b3.toNat := by
  rw [Machine.toNat_append_byte, Machine.toNat_append_byte, Machine.toNat_append_byte]
  omega

end Sys2Proof

namespace Sys2Proof.Machine

open Sys2Proof.Claim

/-! ### Its effect (R190) -/

/-- The helper completes where pc does not wrap, and then writes its register and pc only. -/
theorem exec_movR32Imm32_next_iff {r : Reg} {imm : Word} {s t : State} :
    exec (.movR32Imm32 r imm) s = .next t ↔ pcWraps s 5 = false ∧ t = (s.setReg r imm).setPc (s.pc + 5) :=
  advance_next_iff

/-- Settles O26: the opcode is refused as in O8 and behind a prefix as in O5; else its low field is the register and the
four bytes are the immediate, and of the state only that register and pc are written. -/
theorem movLoadsTheImmediate : Obligations.MovLoadsTheImmediate := by
  intro s n b0 b1 b2 b3 rest
  obtain ⟨hlo, hhi⟩ := movOpcode_bounds n
  refine ⟨fun hsize => ?_, fun p hp => ?_, fun hsize hfit => ?_⟩
  · obtain ⟨-, -, hunknown⟩ := unknownOpcodesAreRefused s.cfg (BitVec.ofNat 8 (0xB8 + n.val))
      (b0 :: b1 :: b2 :: b3 :: rest)
    exact hunknown hlo hhi hsize
  · rcases List.mem_cons.1 hp with rfl | hp
    · exact decodeFrom_mov_of_prefix (o := true) (a := false) rfl _ hlo hhi
    rcases List.mem_cons.1 hp with rfl | hp
    · exact decodeFrom_mov_of_prefix (o := false) (a := true) rfl _ hlo hhi
    · exact decodeFrom_forbidden _ _ _ _ hp
  · have hwrap : pcWraps s 5 = false := pcWraps_eq_false_iff.2 hfit
    have hnext := (exec_movR32Imm32_next_iff (r := numbered n) (imm := b3 ++ b2 ++ b1 ++ b0)).2 ⟨hwrap, rfl⟩
    exact ⟨_, toNat_append_bytes b0 b1 b2 b3, decode_movOpcode hsize n b0 b1 b2 b3 rest, _, hnext,
      State.reg_setReg_same _ _ _, fun r hr => State.reg_setReg_other _ (mt List.mem_singleton.2 hr) _, rfl, rfl,
      fun _ => rfl, ⟨rfl, rfl⟩, systemSame_of_exec hnext, ⟨rfl, rfl, rfl, rfl⟩, rfl, toNat_advance_pc hwrap⟩

end Sys2Proof.Machine
end

section
/-! PROOF. The core's turn with a pending NMI, the flush signal and the power interrupt pin (O12, O57). -/

namespace Sys2Proof.Machine

open Sys2Proof.Claim

/-- Settles O12: on the core's turn the step is `coreStep`, and its pending NMI comes before the fetch; taking it ends
the run (R206). -/
theorem pendingNmiIsTakenBeforeTheFetch : Obligations.PendingNmiIsTakenBeforeTheFetch := by
  intro s rest hturn hnmi
  have htaken : coreStep (s.setSchedule rest) = takeException .nmi (s.setSchedule rest) := by
    rw [coreStep, State.setSchedule_nmiPending, if_pos hnmi]
  rw [step_core hturn, htaken]
  rfl

/-- Emptying the cache changes nothing that the statements call the system. -/
theorem systemSame_flushCache (s : State) : SystemSame s s.flushCache :=
  ⟨rfl, rfl, rfl, rfl, rfl, rfl, rfl, rfl, rfl⟩

/-- With 1000h bit 4 the signal empties the cache (R219). -/
theorem envStep_flushSnoopSignal_of_enabled {s : State} (h1000 : hasMsr s.cfg .r1000 = true)
    (h4 : s.msr.r1000.getLsbD 4 = true) : envStep .flushSnoopSignal s = .next s.flushCache := by
  rw [envStep, onPartsWith1000_of_present h1000, eventFlushSnoopSignal, if_pos h4]

/-- Settles O57: the enabled signal is a flush, after which no byte carries a mark of staleness; bit 5 decides about the
pin. -/
theorem flushSnoopAndPowerInterrupt : Obligations.FlushSnoopAndPowerInterrupt := by
  intro s h1000
  have hpin : envStep .pwiPin s = eventPwiPin s := onPartsWith1000_of_present h1000 _
  refine ⟨fun h4 => ?_, fun h5 => ?_, fun h5 => ?_⟩
  · exact ⟨s.flushCache, envStep_flushSnoopSignal_of_enabled h1000 h4, isStale_of_flushed rfl rfl rfl, rfl, rfl, rfl,
      ⟨rfl, rfl⟩, memByte_congr rfl rfl, systemSame_flushCache s, rfl⟩
  · rw [hpin, eventPwiPin, h5, if_neg Bool.false_ne_true]
  · rw [hpin, eventPwiPin, if_pos h5]

end Sys2Proof.Machine
end

section
/-! PROOF. The state after reset is in canonical form (O50). -/

namespace Sys2Proof.Machine

open Sys2Proof.Claim

/-- Settles O50: reset lists no byte and no mark (R240, R243), and empty lists are canonical at any width of address. -/
theorem resetIsCanonical : Obligations.ResetIsCanonical := by
  refine (canonical_iff_parts State.reset).2 ?_
  exact { mem := .nil, hidden := rfl, staleBus := .nil, staleRom := .nil, parityRenewed := .nil, fetched := .nil,
          written := .nil }

end Sys2Proof.Machine
end
